-- ==== Sys2Proof/Word.lean ====
section
/-! DEFINITION. The byte, the one word of the machine (00_scope.md R7, R13). -/

namespace Sys2Proof

/-- A byte: every register of the chip, every chunk byte and every frame byte is one (R7, R13). -/
abbrev Byte := BitVec 8

end Sys2Proof
end

