-- ==== Sys2Proof/Config.lean ====
section
/-! DEFINITION. The configuration record `CFG` (00_scope.md R12) and the free values: what the
implementation fixes, and what the environment draws. -/

namespace Sys2Proof

/-- `CFG` (R12): every chip-specific constant the block uses. It is an argument of construction
and fixed for the life of the block (10_state.md R35). -/
structure Cfg where
  addrPwrmode : Nat
  pwrStandby : Byte
  pwrFulltx : Byte
  pwrFullrx : Byte
  addrXtalstatus : Nat
  xtalRunMask : Byte
  addrRng : Nat
  rngStartValue : Byte
  rngBusyMask : Byte
  rngErrMask : Byte
  addrFifostat : Nat
  fifoCommit : Byte
  addrFifodata : Nat
  addrFifocount : Nat
  addrTxdone : Nat
  txdoneMask : Byte
  txdoneValue : Byte
  addrFault : Nat
  faultMask : Byte
  txFlags : Byte
  tagFreqoffs : Byte
  tagAntrssi2 : Byte
  tagTimer : Byte
  tagRffreqoffs : Byte
  tagAntrssi3 : Byte
  classLen4 : Option Nat
  classLen5 : Option Nat
  classLen6 : Option Nat
  fifoDepth : Nat
  autorangeTimeoutTicks : Nat
  deriving DecidableEq, Repr

namespace Config

/-- The timeout less one. `AUTORANGE_TIMEOUT_TICKS` is a required input with no default, an
integer at least 1 (R10, R12 "OPEN"): a free value. DESIGN CHOICE, safe (log 2). -/
opaque timeoutLessOne : Nat

/-- Whether transaction number `k` fails, where State holds no answer for it (20_memory.md R55,
93 U4). DESIGN CHOICE, safe (log 3). -/
opaque freeFails (k : Nat) : Bool

/-- Response byte `j` of transaction number `k`, where State holds no byte for it (20_memory.md
R57, 93 U3, U5, U6). DESIGN CHOICE, safe (log 3). -/
opaque freeByte (k j : Nat) : Byte

/-- Which of several out-of-range keys of a batch is named by `AddressOutOfRange`: the spec walks
the keys of a map, whose order it does not fix (40_bus_primitives.md R122). DESIGN CHOICE, safe
(log 11). -/
opaque freePick (keys : List Nat) : Nat

end Config

/-- The five configured tags (R12). -/
def Cfg.tags (c : Cfg) : List Byte :=
  [c.tagFreqoffs, c.tagAntrssi2, c.tagTimer, c.tagRffreqoffs, c.tagAntrssi3]

/-- The eight configured addresses (R12). -/
def Cfg.addresses (c : Cfg) : List Nat :=
  [c.addrPwrmode, c.addrXtalstatus, c.addrRng, c.addrFifostat, c.addrFifodata, c.addrFifocount,
   c.addrTxdone, c.addrFault]

/-- A configured class length is `none` or in 1..257 (30_encoding.md R91). -/
def Cfg.classLenOk : Option Nat → Bool
  | none => true
  | some l => decide (1 ≤ l ∧ l ≤ 257)

/-- Well-formedness of `CFG` (R12, R10, 30_encoding.md R91). The second of the two FIFO-count
registers is an address the block uses too, so it is at most 0xFFF: DEDUCED, unsafe (log 12). -/
abbrev Cfg.WellFormed (c : Cfg) : Prop :=
  (∀ a ∈ c.addresses, a ≤ 0xFFF) ∧
  c.addrFifocount + 1 ≤ 0xFFF ∧
  (c.tags ++ [0x31#8, 0x74#8, 0xE1#8]).Nodup ∧
  (c.tagFreqoffs >>> 5 = 2#8 ∧ c.tagAntrssi2 >>> 5 = 2#8) ∧
  (c.tagTimer >>> 5 = 3#8 ∧ c.tagRffreqoffs >>> 5 = 3#8 ∧ c.tagAntrssi3 >>> 5 = 3#8) ∧
  (Cfg.classLenOk c.classLen4 = true ∧ Cfg.classLenOk c.classLen5 = true ∧
    Cfg.classLenOk c.classLen6 = true) ∧
  1 ≤ c.autorangeTimeoutTicks

/-- The reference column of R12. DESIGN CHOICE, unsafe where a statement rests on it (log 1);
the timeout is free (log 2). -/
def Cfg.reference : Cfg where
  addrPwrmode := 0x002
  pwrStandby := 0x05
  pwrFulltx := 0x0D
  pwrFullrx := 0x09
  addrXtalstatus := 0x01D
  xtalRunMask := 0x01
  addrRng := 0x033
  rngStartValue := 0x18
  rngBusyMask := 0x10
  rngErrMask := 0x20
  addrFifostat := 0x028
  fifoCommit := 0x04
  addrFifodata := 0x029
  addrFifocount := 0x02A
  addrTxdone := 0x01C
  txdoneMask := 0x0F
  txdoneValue := 0x00
  addrFault := 0x033
  faultMask := 0x20
  txFlags := 0x03
  tagFreqoffs := 0x52
  tagAntrssi2 := 0x55
  tagTimer := 0x70
  tagRffreqoffs := 0x73
  tagAntrssi3 := 0x75
  classLen4 := none
  classLen5 := none
  classLen6 := none
  fifoDepth := 256
  autorangeTimeoutTicks := Config.timeoutLessOne + 1

end Sys2Proof
end

