-- ==== Sys2Proof/Syntax.lean ====
section
/-! DEFINITION. The instructions: one constructor for each row of spec/opcode_table.json
(00_scope.md R3): bus frames, command writes, chunk forms, host operations. -/

namespace Sys2Proof

/-- The instructions, in the table's order. A constructor's operands are the row's operands; bytes
that the form or `CFG` fixes (headers, tags, length bytes, fill bytes) are no operands. -/
inductive Instr where
  /-- BUS_WR_SHORT (R133): a burst write under a short header. -/
  | busWrShort (a : BitVec 7) (data : List Byte)
  /-- BUS_WR_LONG (R134): a burst write under an extended header. -/
  | busWrLong (a : BitVec 12) (data : List Byte)
  /-- BUS_RD_SHORT (R135): a burst read of `n` bytes under a short header. -/
  | busRdShort (a : BitVec 7) (n : Nat)
  /-- BUS_RD_LONG (R136): a burst read of `n` bytes under an extended header. -/
  | busRdLong (a : BitVec 12) (n : Nat)
  /-- FIFO_TX_DATA (R126, R88): an outbound Data frame. -/
  | fifoTxData (payload : List Byte)
  /-- CMD_COMMIT (R128). -/
  | cmdCommit
  /-- CMD_PWR_STANDBY (R129). -/
  | cmdPwrStandby
  /-- CMD_PWR_FULLTX (R130). -/
  | cmdPwrFulltx
  /-- CMD_PWR_FULLRX (R131). -/
  | cmdPwrFullrx
  /-- CMD_RNG_START (R132). -/
  | cmdRngStart
  /-- CHK_RSSI (R153). -/
  | chkRssi (b1 : Byte)
  /-- CHK_FREQOFFS (R154). -/
  | chkFreqoffs (b1 b2 : Byte)
  /-- CHK_ANTRSSI2 (R155). -/
  | chkAntrssi2 (b1 b2 : Byte)
  /-- CHK_TIMER (R156). -/
  | chkTimer (b1 b2 b3 : Byte)
  /-- CHK_RFFREQOFFS (R157). -/
  | chkRffreqoffs (b1 b2 b3 : Byte)
  /-- CHK_DATARATE (R158). -/
  | chkDatarate (b1 b2 b3 : Byte)
  /-- CHK_ANTRSSI3 (R159). -/
  | chkAntrssi3 (b1 b2 b3 : Byte)
  /-- CHK_DATA (R160): the length byte is the payload's length plus 1. -/
  | chkData (flags : Byte) (payload : List Byte)
  /-- CHK_UNKNOWN_C0 (R161). -/
  | chkUnknownC0 (t : Byte)
  /-- CHK_UNKNOWN_C1 (R162). -/
  | chkUnknownC1 (t b1 : Byte)
  /-- CHK_UNKNOWN_C2 (R163). -/
  | chkUnknownC2 (t b1 b2 : Byte)
  /-- CHK_UNKNOWN_C3 (R164). -/
  | chkUnknownC3 (t b1 b2 b3 : Byte)
  /-- CHK_UNKNOWN_C7 (R165): the length byte is the body's length. -/
  | chkUnknownC7 (t : Byte) (body : List Byte)
  /-- CHK_BADCLASS (R166): a tag of class 4, 5 or 6; `body` is empty where the class has no
  length, and else the bytes after the tag. -/
  | chkBadclass (t : Byte) (body : List Byte)
  /-- TICK (R190): `dispatch()`. -/
  | tick
  /-- SET_TX (R207). -/
  | setTx (b : Bool)
  /-- SET_RX (R208). -/
  | setRx (b : Bool)
  /-- SET_RESET (R209). -/
  | setReset (b : Bool)
  /-- PUSH (R210). -/
  | push (p : List Byte)
  /-- IS_FAULTED (R211). -/
  | isFaulted
  /-- GET_STATE (R212). -/
  | getState
  /-- TAKE_RXDATA (R213). -/
  | takeRxdata
  /-- TAKE_TLM (R214). -/
  | takeTlm
  /-- GET_FAULT_CAUSE (R215). -/
  | getFaultCause
  /-- EXECUTE (R122): a batch, a finite map from addresses to bytes. -/
  | execute (batch : List (Nat × Byte))
  /-- READ (R124). -/
  | read (a : Nat)
  /-- READ16 (R125). -/
  | read16 (a : Nat)
  /-- WRITE_FIFO_DATA (R126). -/
  | writeFifoData (p : List Byte)
  /-- READ_FIFO (R127). -/
  | readFifo (n : Nat)
  /-- DECODE_CHUNK (R150). -/
  | decodeChunk (buf : List Byte)
  deriving DecidableEq, Repr

/-- Where an instruction's encoding is read: on the bus, in the chunk stream, or nowhere
(30_encoding.md, opening; R102). -/
inductive Stream where
  | bus
  | chunk
  | host
  deriving DecidableEq, Repr

/-- The stream an instruction belongs to (00_scope.md R3). -/
def Instr.stream : Instr → Stream
  | .busWrShort _ _ | .busWrLong _ _ | .busRdShort _ _ | .busRdLong _ _ | .fifoTxData _
  | .cmdCommit | .cmdPwrStandby | .cmdPwrFulltx | .cmdPwrFullrx | .cmdRngStart => .bus
  | .chkRssi _ | .chkFreqoffs _ _ | .chkAntrssi2 _ _ | .chkTimer _ _ _ | .chkRffreqoffs _ _ _
  | .chkDatarate _ _ _ | .chkAntrssi3 _ _ _ | .chkData _ _ | .chkUnknownC0 _ | .chkUnknownC1 _ _
  | .chkUnknownC2 _ _ _ | .chkUnknownC3 _ _ _ _ | .chkUnknownC7 _ _ | .chkBadclass _ _ => .chunk
  | .tick | .setTx _ | .setRx _ | .setReset _ | .push _ | .isFaulted | .getState | .takeRxdata
  | .takeTlm | .getFaultCause | .execute _ | .read _ | .read16 _ | .writeFifoData _ | .readFifo _
  | .decodeChunk _ => .host

end Sys2Proof
end

