-- ==== Sys2Proof/Decode.lean ====
section
/-! DEFINITION. The two encoded streams (30_encoding.md): reading a bus frame, reading the chunk at
the front of a byte list, and after them the encoder and the words of the opcode table. -/

namespace Sys2Proof

/-- The direction of a bus access (30_encoding.md R82). -/
inductive Dir where
  | write
  | read
  deriving DecidableEq, Repr

/-- Why bytes are no bus frame. -/
inductive DecodeError where
  /-- No byte at all: a transaction shifts out at least one byte (R55). -/
  | emptyFrame
  /-- A header and no data or fill byte: a burst has n >= 1 data bytes (R84, R85). -/
  | headerOnlyFrame
  /-- An extended header whose address is below 0x070 (R82; 93 U7). -/
  | longFormShortAddress
  /-- A read frame whose fill bytes are not all 0x00 (R85). -/
  | fillNotZero
  deriving DecidableEq, Repr

/-! ### Address headers (R80 to R83) -/

/-- The header of address `a` (R82). It is used for `a ≤ 0xFFF` only: every primitive refuses a
greater address first. -/
def header (a : Nat) (d : Dir) : List Byte :=
  if a < 0x070 then
    [(match d with | .write => 0x80#8 | .read => 0x00#8) ||| BitVec.ofNat 8 a]
  else
    [(match d with | .write => 0xF0#8 | .read => 0x70#8) ||| BitVec.ofNat 8 (a >>> 8),
      BitVec.ofNat 8 (a &&& 0xFF)]

/-- The header's length, by the address alone (R82). -/
def headerLen (a : Nat) : Nat := if a < 0x070 then 1 else 2

/-- What the first byte of a frame tells (R83): the direction and the header's length. -/
def classifyFirstByte (b : Byte) : Dir × Nat :=
  if b.toNat < 0x70 then (.read, 1)
  else if b.toNat < 0x80 then (.read, 2)
  else if b.toNat < 0xF0 then (.write, 1)
  else (.write, 2)

/-- The address in an extended header: `h` in the low nibble of byte 0, `l` in byte 1 (R81). -/
def longAddress (b0 b1 : Byte) : BitVec 12 := (b0.truncate 4 : BitVec 4) ++ b1

/-! ### Bus frames (R84 to R89) -/

/-- A write frame's instruction from its data bytes (R84). -/
def writeFrame (mk : List Byte → Instr) (data : List Byte) : Except DecodeError Instr :=
  if data = [] then .error .headerOnlyFrame else .ok (mk data)

/-- A read frame's instruction from its fill bytes (R85). -/
def readFrame (mk : Nat → Instr) (fill : List Byte) : Except DecodeError Instr :=
  if fill = [] then .error .headerOnlyFrame
  else if fill = List.replicate fill.length 0x00#8 then .ok (mk fill.length)
  else .error .fillNotZero

/-- Reads a frame with an extended header: the second header byte, then what the direction's
form holds (R81, R86). -/
def decodeLong (d : Dir) (b0 : Byte) : List Byte → Except DecodeError Instr
  | [] => .error .headerOnlyFrame
  | b1 :: rest =>
    if (longAddress b0 b1).toNat < 0x070 then .error .longFormShortAddress
    else
      match d with
      | .read => readFrame (.busRdLong (longAddress b0 b1)) rest
      | .write => writeFrame (.busWrLong (longAddress b0 b1)) rest

/-- Reads a frame as one of the four header forms (R83, R86, R133 to R136). -/
def decodeHeader : List Byte → Except DecodeError Instr
  | [] => .error .emptyFrame
  | b0 :: rest =>
    if b0.toNat < 0x70 then readFrame (.busRdShort (b0.truncate 7)) rest
    else if b0.toNat < 0x80 then decodeLong .read b0 rest
    else if b0.toNat < 0xF0 then writeFrame (.busWrShort (b0.truncate 7)) rest
    else decodeLong .write b0 rest

/-- The data bytes of an outbound Data frame, `F(p)` (R88). -/
def fifoFrameData (c : Cfg) (p : List Byte) : List Byte :=
  0xE1#8 :: BitVec.ofNat 8 (p.length + 1) :: c.txFlags :: p

/-- The outbound FIFO frame on the bus (R88). -/
def fifoFrame (c : Cfg) (p : List Byte) : List Byte :=
  header c.addrFifodata .write ++ fifoFrameData c p

/-- The frame of a one-register write (R84, R89). -/
def commandFrame (a : Nat) (v : Byte) : List Byte := header a .write ++ [v]

/-- The five command frames (R89), each with its instruction, in the table's order. -/
def commandFrames (c : Cfg) : List (List Byte × Instr) :=
  [(commandFrame c.addrFifostat c.fifoCommit, .cmdCommit),
   (commandFrame c.addrPwrmode c.pwrStandby, .cmdPwrStandby),
   (commandFrame c.addrPwrmode c.pwrFulltx, .cmdPwrFulltx),
   (commandFrame c.addrPwrmode c.pwrFullrx, .cmdPwrFullrx),
   (commandFrame c.addrRng c.rngStartValue, .cmdRngStart)]

/-- The first entry of a table of frames that is the given frame. -/
def lookupFrame (bs : List Byte) : List (List Byte × Instr) → Option Instr
  | [] => none
  | (f, i) :: rest => if bs = f then some i else lookupFrame bs rest

/-- The payload a frame would carry if it were an outbound FIFO frame (R88). -/
def fifoPayload (c : Cfg) (bs : List Byte) : List Byte := bs.drop (headerLen c.addrFifodata + 3)

/-- Reads a whole bus frame. The command and FIFO frames are looked for before the header forms,
whose words they are; a word that two commands of a `CFG` share is read as the table's first:
DESIGN CHOICE, safe (log 15). -/
def decodeFrame (c : Cfg) (bs : List Byte) : Except DecodeError Instr :=
  match lookupFrame bs (commandFrames c) with
  | some i => .ok i
  | none =>
    if (fifoPayload c bs).length ≤ 254 ∧ bs = fifoFrame c (fifoPayload c bs) then
      .ok (.fifoTxData (fifoPayload c bs))
    else decodeHeader bs

/-! ### Chunks (R90 to R99) -/

/-- The tag class, bits 7:5 of the tag (R90). -/
def tagClass (t : Byte) : Nat := (t >>> 5).toNat

/-- The configured length of the tag's class, for a tag of class 4, 5 or 6 (R91). -/
def configuredLen (c : Cfg) (t : Byte) : Option Nat :=
  match tagClass t with
  | 4 => c.classLen4
  | 5 => c.classLen5
  | 6 => c.classLen6
  | _ => none

/-- What the front of a byte list tells of its first chunk's length (R99). -/
inductive ChunkLen where
  /-- The length is known. -/
  | known (n : Nat)
  /-- The bytes that give the length are not all there yet. -/
  | needMore
  /-- The class has no defined length. -/
  | noLength
  deriving DecidableEq, Repr

/-- The chunk length at the front of a byte list (R91, R99). -/
def chunkLen (c : Cfg) : List Byte → ChunkLen
  | [] => .needMore
  | t :: body =>
    match tagClass t with
    | 0 => .known 1
    | 1 => .known 2
    | 2 => .known 3
    | 3 => .known 4
    | 7 =>
      match body with
      | [] => .needMore
      | b1 :: _ => .known (b1.toNat + 2)
    | _ =>
      match configuredLen c t with
      | none => .noLength
      | some n => .known n

/-- Element `i` of a byte list; 0x00 past its end, which no chunk of a well-formed `CFG` reaches
(R151, last sentence; log 13). -/
def byteAt (bs : List Byte) (i : Nat) : Byte := bs.getD i 0x00#8

/-- The chunk form of a complete chunk: by its exact tag where the table of R94 has it, and else
by its class (R94, R97, R98). -/
def chunkInstr (c : Cfg) (ch : List Byte) : Instr :=
  let t := byteAt ch 0
  if t = 0x31#8 then .chkRssi (byteAt ch 1)
  else if t = c.tagFreqoffs then .chkFreqoffs (byteAt ch 1) (byteAt ch 2)
  else if t = c.tagAntrssi2 then .chkAntrssi2 (byteAt ch 1) (byteAt ch 2)
  else if t = c.tagTimer then .chkTimer (byteAt ch 1) (byteAt ch 2) (byteAt ch 3)
  else if t = c.tagRffreqoffs then .chkRffreqoffs (byteAt ch 1) (byteAt ch 2) (byteAt ch 3)
  else if t = 0x74#8 then .chkDatarate (byteAt ch 1) (byteAt ch 2) (byteAt ch 3)
  else if t = c.tagAntrssi3 then .chkAntrssi3 (byteAt ch 1) (byteAt ch 2) (byteAt ch 3)
  else if t = 0xE1#8 ∧ byteAt ch 1 ≠ 0x00#8 then .chkData (byteAt ch 2) (ch.drop 3)
  else
    match tagClass t with
    | 0 => .chkUnknownC0 t
    | 1 => .chkUnknownC1 t (byteAt ch 1)
    | 2 => .chkUnknownC2 t (byteAt ch 1) (byteAt ch 2)
    | 3 => .chkUnknownC3 t (byteAt ch 1) (byteAt ch 2) (byteAt ch 3)
    | 7 => .chkUnknownC7 t (ch.drop 2)
    | _ => .chkBadclass t (ch.drop 1)

/-- What reading the front of a chunk stream gives. -/
inductive ChunkFetch where
  /-- No complete chunk is there (R99). -/
  | needMore
  /-- A chunk form and the bytes after it. A tag whose class has no length is the form
  `chkBadclass` with nothing consumed (R152). -/
  | instr (i : Instr) (rest : List Byte)
  deriving DecidableEq, Repr

/-- Reads the chunk form at the front of a byte list (R99, R152). -/
def fetchChunk (c : Cfg) (bs : List Byte) : ChunkFetch :=
  match chunkLen c bs with
  | .needMore => .needMore
  | .noLength => .instr (.chkBadclass (byteAt bs 0) []) bs
  | .known n => if bs.length < n then .needMore else .instr (chunkInstr c (bs.take n)) (bs.drop n)

/-! ### The encoder -/

/-- The bytes of a well-formed instruction (R80 to R98); a host operation has none (R102). -/
def encode (c : Cfg) : Instr → Option (List Byte)
  | .busWrShort a data => some (header a.toNat .write ++ data)
  | .busWrLong a data => some (header a.toNat .write ++ data)
  | .busRdShort a n => some (header a.toNat .read ++ List.replicate n 0x00#8)
  | .busRdLong a n => some (header a.toNat .read ++ List.replicate n 0x00#8)
  | .fifoTxData p => some (fifoFrame c p)
  | .cmdCommit => some (commandFrame c.addrFifostat c.fifoCommit)
  | .cmdPwrStandby => some (commandFrame c.addrPwrmode c.pwrStandby)
  | .cmdPwrFulltx => some (commandFrame c.addrPwrmode c.pwrFulltx)
  | .cmdPwrFullrx => some (commandFrame c.addrPwrmode c.pwrFullrx)
  | .cmdRngStart => some (commandFrame c.addrRng c.rngStartValue)
  | .chkRssi b1 => some [0x31#8, b1]
  | .chkFreqoffs b1 b2 => some [c.tagFreqoffs, b1, b2]
  | .chkAntrssi2 b1 b2 => some [c.tagAntrssi2, b1, b2]
  | .chkTimer b1 b2 b3 => some [c.tagTimer, b1, b2, b3]
  | .chkRffreqoffs b1 b2 b3 => some [c.tagRffreqoffs, b1, b2, b3]
  | .chkDatarate b1 b2 b3 => some [0x74#8, b1, b2, b3]
  | .chkAntrssi3 b1 b2 b3 => some [c.tagAntrssi3, b1, b2, b3]
  | .chkData flags p => some (0xE1#8 :: BitVec.ofNat 8 (p.length + 1) :: flags :: p)
  | .chkUnknownC0 t => some [t]
  | .chkUnknownC1 t b1 => some [t, b1]
  | .chkUnknownC2 t b1 b2 => some [t, b1, b2]
  | .chkUnknownC3 t b1 b2 b3 => some [t, b1, b2, b3]
  | .chkUnknownC7 t body => some (t :: BitVec.ofNat 8 body.length :: body)
  | .chkBadclass t body => some (t :: body)
  | .tick | .setTx _ | .setRx _ | .setReset _ | .push _ | .isFaulted | .getState | .takeRxdata
  | .takeTlm | .getFaultCause | .execute _ | .read _ | .read16 _ | .writeFifoData _ | .readFifo _
  | .decodeChunk _ => none

/-! ### Words of the opcode table -/

/-- The `n` bytes of a number, the most significant first: a table word is one word in the
hardware's byte order, which is big-endian everywhere (20_memory.md R53; log 14). -/
def bigEndianBytes (w : Nat) : Nat → List Byte
  | 0 => []
  | n + 1 => BitVec.ofNat 8 (w >>> (8 * n)) :: bigEndianBytes w n

/-- Zero bytes up to a length. -/
def padTo (n : Nat) (bs : List Byte) : List Byte :=
  bs ++ List.replicate (n - bs.length) 0x00#8

/-- A chunk word's missing operand bytes are zeros. -/
def completeChunk (c : Cfg) (bs : List Byte) : List Byte :=
  match bs, chunkLen c bs with
  | _ :: _, .needMore => padTo 2 bs
  | _, .known n => padTo n bs
  | _, _ => bs

/-- A frame word's missing operand bytes are zeros: the rest of the header and one data byte. Of a
FIFO frame cut after its tag the length byte and the flag byte are no operands; they are what
R88 fixes for the empty payload (log 14). -/
def completeFrame (c : Cfg) (bs : List Byte) : List Byte :=
  if bs = header c.addrFifodata .write ++ [0xE1#8] then fifoFrame c []
  else
    match bs with
    | [] => []
    | b0 :: _ => padTo ((classifyFirstByte b0).2 + 1) bs

/-- Where a table word is read. The chunk rows and the four header rows of the table all have
one-byte patterns and share their bytes; a one-byte word is read in the chunk stream, the only
stream the block itself decodes (40_bus_primitives.md, section 6), and a longer one as a bus
frame. DESIGN CHOICE, safe (log 14). -/
def tableStream (nbits : Nat) : Stream := if nbits ≤ 8 then .chunk else .bus

/-- The bytes of a table word, its operand bytes zero, under a `CFG`. -/
def tableBytes (c : Cfg) (nbits w : Nat) : List Byte :=
  match tableStream nbits with
  | .chunk => completeChunk c (bigEndianBytes w (nbits / 8))
  | _ => completeFrame c (bigEndianBytes w (nbits / 8))

/-- The instruction read from a table word (the table's patterns are those of the reference
`CFG`, R12). -/
def decodeTableWord (nbits w : Nat) : Option Instr :=
  match tableStream nbits with
  | .chunk =>
    match fetchChunk Cfg.reference (tableBytes Cfg.reference nbits w) with
    | .needMore => none
    | .instr i _ => some i
  | _ =>
    match decodeFrame Cfg.reference (tableBytes Cfg.reference nbits w) with
    | .ok i => some i
    | .error _ => none

end Sys2Proof
end

