-- ==== Sys2Proof/WellFormed.lean ====
section
/-! DEFINITION. Which instructions are instructions of the spec, under a `CFG`: the checks on their
operands. An operand that the spec gives an error for (an address above 0xFFF, a payload of 255
bytes handed to PUSH) is well formed: the operation runs and raises the error. -/

namespace Sys2Proof

/-- The operands are ones the row admits (R80 to R98, R122 for a batch's distinct keys). -/
def Instr.wellFormed (c : Cfg) : Instr → Bool
  | .busWrShort a data => decide (a.toNat < 0x70) && decide (data ≠ [])
  | .busWrLong a data => decide (0x070 ≤ a.toNat) && decide (data ≠ [])
  | .busRdShort a n => decide (a.toNat < 0x70) && decide (1 ≤ n)
  | .busRdLong a n => decide (0x070 ≤ a.toNat) && decide (1 ≤ n)
  | .fifoTxData p => decide (p.length ≤ 254)
  | .chkData _ p => decide (p.length ≤ 254)
  | .chkUnknownC0 t => decide (tagClass t = 0)
  | .chkUnknownC1 t _ => decide (tagClass t = 1 ∧ t ≠ 0x31#8)
  | .chkUnknownC2 t _ _ => decide (tagClass t = 2 ∧ t ≠ c.tagFreqoffs ∧ t ≠ c.tagAntrssi2)
  | .chkUnknownC3 t _ _ _ =>
    decide (tagClass t = 3 ∧ t ≠ c.tagTimer ∧ t ≠ c.tagRffreqoffs ∧ t ≠ 0x74#8 ∧
      t ≠ c.tagAntrssi3)
  | .chkUnknownC7 t body =>
    decide (tagClass t = 7 ∧ body.length ≤ 255 ∧ (t = 0xE1#8 → body = []))
  | .chkBadclass t body =>
    decide (tagClass t = 4 ∨ tagClass t = 5 ∨ tagClass t = 6) &&
      (match configuredLen c t with
       | none => decide (body = [])
       | some n => decide (body.length + 1 = n))
  | .execute batch => decide ((batch.map Prod.fst).Nodup)
  | .cmdCommit | .cmdPwrStandby | .cmdPwrFulltx | .cmdPwrFullrx | .cmdRngStart => true
  | .chkRssi _ | .chkFreqoffs _ _ | .chkAntrssi2 _ _ | .chkTimer _ _ _ | .chkRffreqoffs _ _ _
  | .chkDatarate _ _ _ | .chkAntrssi3 _ _ _ => true
  | .tick | .setTx _ | .setRx _ | .setReset _ | .push _ | .isFaulted | .getState | .takeRxdata
  | .takeTlm | .getFaultCause | .read _ | .read16 _ | .writeFifoData _ | .readFifo _
  | .decodeChunk _ => true

end Sys2Proof
end

