-- ==== Sys2Proof/Machine/State.lean ====
section
/-! DEFINITION. The machine's state (10_state.md), its reset value, and the reasons a step can stop. -/

namespace Sys2Proof.Machine

/-- The five values of the Manager state register (10_state.md R22). -/
inductive MgrState where
  | autoranging
  | idle
  | transmitting
  | receiving
  | faulted
  deriving DecidableEq, Repr

/-- The fault causes (60_exceptions.md R245). -/
inductive FaultCause where
  | none
  | rangingError
  | autorangeTimeout
  | txFault
  | rxFault
  | transport
  | decodeBadclass
  | fifoCount
  deriving DecidableEq, Repr

/-- The nine variants of a chunk value (10_state.md R36). -/
inductive Chunk where
  | rssi (v : Int)
  | frequencyOffset (v : BitVec 16)
  | antennaRssiPair (v0 v1 : Int)
  | timer (v : BitVec 24)
  | rfFrequencyOffset (v : BitVec 24)
  | dataRate (v : BitVec 24)
  | antennaRssiTriple (b0 b1 b2 : Byte)
  | data (flags : Byte) (payload : List Byte)
  | unknown (raw : List Byte)
  deriving DecidableEq, Repr

/-- A decode result (10_state.md R37). -/
inductive DecodeResult where
  | needMore
  | chunk (c : Chunk) (rest : List Byte)
  | badClass (tag : Byte)
  deriving DecidableEq, Repr

/-- The errors an operation raises to the host (60_exceptions.md R241). They end the operation, not
the machine. -/
inductive Error where
  | transportError
  | addressOutOfRange (a : Nat)
  | payloadTooLong (n : Nat)
  deriving DecidableEq, Repr

/-- What an operation hands back to the host: its value, or the error it raised (R241, R207 to
R217). The model's own output port (log 5). -/
inductive Result where
  /-- The operation returns nothing. -/
  | unit
  /-- IS_FAULTED's Boolean. -/
  | flag (b : Bool)
  /-- GET_STATE's or GET_FAULT_CAUSE's code. -/
  | code (n : Nat)
  /-- TAKE_RXDATA's payload, or none. -/
  | payload (p : Option (List Byte))
  /-- TAKE_TLM's chunk value, or none. -/
  | telemetry (c : Option Chunk)
  /-- READ's byte. -/
  | byte (v : Byte)
  /-- READ16's value. -/
  | word (v : BitVec 16)
  /-- The data bytes of a burst read. -/
  | bytes (vs : List Byte)
  /-- A decode result. -/
  | decoded (r : DecodeResult)
  /-- The error raised. -/
  | raised (e : Error)
  deriving DecidableEq, Repr

/-- One answer of the environment to one transaction (20_memory.md R55, R57): whether it fails, and
the response bytes. A byte missing here is a free value (log 3). -/
structure Draw where
  fails : Bool
  bytes : List Byte
  deriving DecidableEq, Repr

/-- One bus transaction (R55, and the trace notation of 30_encoding.md R102). -/
inductive Transaction where
  /-- `W [out]`; `ok` is false where it is marked `!ERR`. -/
  | write (out : List Byte) (ok : Bool)
  /-- `X [out] -> [in]`; the response is none where it is marked `!ERR`. -/
  | xfer (out : List Byte) (response : Option (List Byte))
  deriving DecidableEq, Repr

/-- What a transaction did at the chip's register interface (40_bus_primitives.md R133 to R136). A
burst headed at the FIFO data register names that register for every byte (20_memory.md R52). -/
inductive Access where
  /-- `R[reg] <- v`, or `v` pushed to the FIFO. -/
  | wrote (reg : Nat) (v : Byte)
  /-- `v` read from `R[reg]`, or taken from the FIFO. -/
  | got (reg : Nat) (v : Byte)
  /-- A failed transaction: its effect on the chip is unknown (60_exceptions.md R242; log 18). -/
  | unknownEffect
  deriving DecidableEq, Repr

/-- The bus transport as the block sees it: the environment's answers to come, how many
transactions have drawn one, and the record of what went over the bus. The model's own fields
(log 3, 6). -/
structure Port where
  env : List Draw
  drawn : Nat
  trace : List Transaction
  chip : List Access
  deriving DecidableEq, Repr

/-- The complete state of the block (10_state.md R41). -/
structure Manager where
  /-- The Manager state register (R22, R23). -/
  state : MgrState
  /-- `tx_enabled` (R24). -/
  txEnabled : Bool
  /-- `rx_enabled` (R25). -/
  rxEnabled : Bool
  /-- `reset_requested` (R26). -/
  resetRequested : Bool
  /-- The outbound payload queue (R28). -/
  inbox : List (List Byte)
  /-- The decode buffer (R29). -/
  rxBuf : List Byte
  /-- The received-data stream (R30). -/
  rxData : List (List Byte)
  /-- The telemetry stream (R31). -/
  tlm : List Chunk
  /-- Whether the autorange start was issued in this stay (R32). -/
  rngIssued : Bool
  /-- The Autoranging ticks of this stay (R33). -/
  rngTicks : Nat
  /-- The fault cause (R34). -/
  faultCause : FaultCause
  deriving DecidableEq, Repr

/-- What the host has lined up to run next (log 4). -/
inductive Request where
  /-- A call of an operation (42_manager.md R207 to R217). -/
  | call (i : Instr)
  /-- The bytes of one bus frame, for the protocol unit to put on the bus (log 8, 14). -/
  | frame (bs : List Byte)
  /-- Bytes of a chunk stream, for the decoder to read from the front (log 7, 14). -/
  | chunk (bs : List Byte)
  deriving DecidableEq, Repr

/-- The machine: the configuration, which no step writes (R35), the block's state (R41), and the
model's own interface to the environment and the host (log 3 to 6). -/
structure State where
  cfg : Cfg
  mgr : Manager
  port : Port
  requests : List Request
  ret : Result
  deriving DecidableEq, Repr

/-- The reasons the machine could stop with a fault: there are none. Every abnormal event of the
spec is an error returned to the host, the Faulted state, or no error (60_exceptions.md R240), and
the block goes on. Safe or unsafe: log 17. -/
inductive Fault where
  deriving DecidableEq, Repr

/-- The reasons a step is refused. -/
inductive Refusal where
  /-- Raised by `exec` for an instruction without a meaning; no arm raises it. Safe. -/
  | notModelled (mnemonic : String)
  /-- Raised by the meanings of the four bus-frame rows for an address the header form cannot
  carry: a short header at 0x070 or above (R80), an extended one below 0x070 (R82; 93 U7, which
  says `refuse`). Safe. -/
  | headerMismatch
  /-- Raised by the meanings of the four bus-frame rows for a header with no data or fill byte:
  n >= 1 (R84, R85, R121). Safe. -/
  | headerOnlyFrame
  /-- Raised by `step` for bytes handed to the protocol unit that are no frame. Safe. -/
  | undecodableFrame (e : DecodeError)
  deriving DecidableEq, Repr

/-- What the next step is (log 4): it runs an instruction from a state, it hands a result over, or
it is refused. -/
inductive Fetched where
  | run (i : Instr) (s : State)
  | settled (s : State)
  | reject (r : Refusal)
  deriving DecidableEq, Repr

/-- The block's state at construction (10_state.md R41, 70_reset_and_hazards.md R270). -/
def Manager.initial : Manager where
  state := .autoranging
  txEnabled := false
  rxEnabled := false
  resetRequested := false
  inbox := []
  rxBuf := []
  rxData := []
  tlm := []
  rngIssued := false
  rngTicks := 0
  faultCause := .none

/-- The transport before any transaction: construction performs none (R270). -/
def Port.initial : Port where
  env := []
  drawn := 0
  trace := []
  chip := []

/-- Construction, the block's one reset (R270), with its argument `CFG`. -/
def State.construct (c : Cfg) : State where
  cfg := c
  mgr := Manager.initial
  port := Port.initial
  requests := []
  ret := .unit

/-- The machine right after reset: constructed with the reference `CFG` of R12. DESIGN CHOICE,
unsafe where a statement rests on the reference values (log 1). -/
def State.reset : State := State.construct Cfg.reference

end Sys2Proof.Machine
end

