-- ==== Sys2Proof/Machine/Flags.lean ====
section
/-! DEFINITION. The conditions the Manager tests. The block has no arithmetic flags (10_state.md
R39); these are the bits of the chip's status registers that a tick looks at, the stored flags'
combinational output, and the codes of the two enumerations the host can read. -/

namespace Sys2Proof.Machine

/-- Some bit of the mask is set in a status byte. -/
def anyBit (v mask : Byte) : Bool := decide (v &&& mask ≠ 0x00#8)

/-- The ranging error bit (42_manager.md R192). -/
def rangingError (c : Cfg) (s : Byte) : Bool := anyBit s c.rngErrMask

/-- Some ranging bit is still set (R192). -/
def rangingBusy (c : Cfg) (s : Byte) : Bool := anyBit s c.rngBusyMask

/-- The crystal is running (R192). -/
def xtalRunning (c : Cfg) (x : Byte) : Bool := anyBit x c.xtalRunMask

/-- The fault bit polled in Transmitting and Receiving (R198, R199). -/
def faultBit (c : Cfg) (f : Byte) : Bool := anyBit f c.faultMask

/-- Transmit-complete (R198). -/
def txComplete (c : Cfg) (d : Byte) : Bool := decide (d &&& c.txdoneMask = c.txdoneValue)

/-- `is_faulted`, an output and no stored flag (10_state.md R27). -/
def Manager.isFaulted (m : Manager) : Bool := decide (m.state = .faulted)

/-- The state codes (10_state.md R22). -/
def MgrState.code : MgrState → Nat
  | .autoranging => 0
  | .idle => 1
  | .transmitting => 2
  | .receiving => 3
  | .faulted => 4

/-- The fault cause codes (60_exceptions.md R245). -/
def FaultCause.code : FaultCause → Nat
  | .none => 0
  | .rangingError => 1
  | .autorangeTimeout => 2
  | .txFault => 3
  | .rxFault => 4
  | .transport => 5
  | .decodeBadclass => 6
  | .fifoCount => 7

end Sys2Proof.Machine
end

