-- ==== Sys2Proof/Machine/Operands.lean ====
section
/-! DEFINITION. The operand and field forms: signed bytes, 16- and 24-bit fields, write batches. -/

namespace Sys2Proof.Machine

/-- `sext_8` (00_scope.md R14): the two's-complement value of a byte. -/
def sext8 (b : Byte) : Int := b.toInt

/-- `u16(b1, b0)`, the first byte most significant (R14). -/
def u16 (b1 b0 : Byte) : BitVec 16 := b1 ++ b0

/-- `u24(b2, b1, b0)`, the first byte most significant (R14). -/
def u24 (b2 b1 b0 : Byte) : BitVec 24 := b2 ++ b1 ++ b0

/-! ### Write batches (30_encoding.md R87) -/

/-- The map that a list of entries stands for: the entries put in one after the other, so that of
two with one key the later stays. A batch is a map and has distinct keys (R87); a list with distinct
keys is that map itself. DESIGN CHOICE, safe (log 19). -/
def batchMap : List (Nat × Byte) → List (Nat × Byte)
  | [] => []
  | e :: rest => if rest.any (fun f => f.1 == e.1) then batchMap rest else e :: batchMap rest

/-- Puts one entry into a list sorted by address. -/
def insertEntry (e : Nat × Byte) : List (Nat × Byte) → List (Nat × Byte)
  | [] => [e]
  | f :: rest => if e.1 ≤ f.1 then e :: f :: rest else f :: insertEntry e rest

/-- The batch in ascending order of address (R87, step 1). -/
def sortBatch : List (Nat × Byte) → List (Nat × Byte)
  | [] => []
  | e :: rest => insertEntry e (sortBatch rest)

/-- Puts one entry before the runs of the entries after it: into the first run where that run
begins at the next address, and else as a run of its own (R87, step 2). -/
def consRun (e : Nat × Byte) : List (Nat × List Byte) → List (Nat × List Byte)
  | [] => [(e.1, [e.2])]
  | (b, vs) :: more => if b = e.1 + 1 then (e.1, e.2 :: vs) :: more else (e.1, [e.2]) :: (b, vs) :: more

/-- The maximal runs of a sorted batch: each is its first address and its bytes (R87, step 2). -/
def runsOf : List (Nat × Byte) → List (Nat × List Byte)
  | [] => []
  | e :: rest => consRun e (runsOf rest)

/-- The keys of a batch that are no chip address, ascending (40_bus_primitives.md R122). -/
def outOfRangeKeys (batch : List (Nat × Byte)) : List Nat :=
  ((sortBatch batch).map Prod.fst).filter (fun a => decide (0xFFF < a))

/-- The key that `AddressOutOfRange` names: none where every key is a chip address, the key where
there is one out of range, and one of them, left free, where there are several (R122; log 11). -/
def namedBadKey (batch : List (Nat × Byte)) : Option Nat :=
  match outOfRangeKeys batch with
  | [] => none
  | [a] => some a
  | a :: b :: more =>
    some ((a :: b :: more).getD (Config.freePick (a :: b :: more) % (more.length + 2)) a)

end Sys2Proof.Machine
end

