-- ==== Sys2Proof/Machine/Ops.lean ====
section
/-! DEFINITION. The shared operations: the bus transport, the register primitives over it, the
output streams, Faulted entry and the return from it, and handing a result to the host. -/

namespace Sys2Proof.Machine

/-- The outcome of a primitive: its value or the error it raises, and the transport after it. -/
abbrev Prim (α : Type) := Except Error α × Port

/-! ### The transport (20_memory.md R55, R57) -/

/-- The environment's answer to the next transaction: the next one State holds, and past their end
a free one (log 3). -/
def Port.nextDraw (p : Port) : Draw :=
  match p.env with
  | d :: _ => d
  | [] => { fails := Config.freeFails p.drawn, bytes := [] }

/-- Byte `j` of the response: the answer's, and where it has none a free one (log 3). -/
def Port.responseByte (p : Port) (j : Nat) : Byte :=
  match p.nextDraw.bytes[j]? with
  | some b => b
  | none => Config.freeByte p.drawn j

/-- The bytes of the response from byte `j` on, `n` of them. -/
def Port.responseFrom (p : Port) (j : Nat) : Nat → List Byte
  | 0 => []
  | n + 1 => p.responseByte j :: p.responseFrom (j + 1) n

/-- The response to a transfer of `n` bytes: its length is fixed, its bytes are a draw (R55, R57). -/
def Port.response (p : Port) (n : Nat) : List Byte := p.responseFrom 0 n

/-- The register that byte `k` of a burst headed at `a` reaches: `a + k`, but the FIFO data
register does not advance (R52). -/
def landing (c : Cfg) (a k : Nat) : Nat := if a = c.addrFifodata then a else a + k

/-- The accesses of a burst from its byte `k` on. -/
def burstAccesses (c : Cfg) (mk : Nat → Byte → Access) (a : Nat) : Nat → List Byte → List Access
  | _, [] => []
  | k, v :: vs => mk (landing c a k) v :: burstAccesses c mk a (k + 1) vs

/-- What a completed transaction does at the chip's register interface, read from its frame as the
chip reads it (40_bus_primitives.md R133 to R136). Response bytes under the header are echo bytes
and no access (30_encoding.md R85). -/
def frameAccesses (c : Cfg) (out response : List Byte) : List Access :=
  match decodeHeader out with
  | .ok (.busWrShort a data) => burstAccesses c .wrote a.toNat 0 data
  | .ok (.busWrLong a data) => burstAccesses c .wrote a.toNat 0 data
  | .ok (.busRdShort a _) => burstAccesses c .got a.toNat 0 (response.drop 1)
  | .ok (.busRdLong a _) => burstAccesses c .got a.toNat 0 (response.drop 2)
  | _ => []

/-- One transaction's record: the answer is used up, the trace and the chip's accesses grow. -/
def Port.record (p : Port) (t : Transaction) (accesses : List Access) : Port :=
  { p with
    env := p.env.tail
    drawn := p.drawn + 1
    trace := p.trace ++ [t]
    chip := p.chip ++ accesses }

/-- `BusWrite(out)` (R55). -/
def Port.busWrite (c : Cfg) (out : List Byte) (p : Port) : Prim Unit :=
  if p.nextDraw.fails then (.error .transportError, p.record (.write out false) [.unknownEffect])
  else (.ok (), p.record (.write out true) (frameAccesses c out []))

/-- `BusXfer(out)` (R55). -/
def Port.busXfer (c : Cfg) (out : List Byte) (p : Port) : Prim (List Byte) :=
  if p.nextDraw.fails then (.error .transportError, p.record (.xfer out none) [.unknownEffect])
  else
    (.ok (p.response out.length),
      p.record (.xfer out (some (p.response out.length)))
        (frameAccesses c out (p.response out.length)))

/-! ### Register access (40_bus_primitives.md R120, R121) -/

/-- A burst of `n` bytes at `a` stays within the register space; at the FIFO data register any
length does (20_memory.md R54, R52). -/
def inSpace (c : Cfg) (a n : Nat) : Bool :=
  decide (a ≤ 0xFFF ∧ (a = c.addrFifodata ∨ a + n ≤ 0x1000))

/-- `MemWrite(a, n, vs)` (R121), after the check of R54 (log 9). -/
def memWrite (c : Cfg) (a : Nat) (vs : List Byte) (p : Port) : Prim Unit :=
  if inSpace c a vs.length then p.busWrite c (header a .write ++ vs)
  else (.error (.addressOutOfRange a), p)

/-- `MemRead(a, n)` (R121), after the check of R54 (log 9). -/
def memRead (c : Cfg) (a n : Nat) (p : Port) : Prim (List Byte) :=
  if inSpace c a n then
    match p.busXfer c (header a .read ++ List.replicate n 0x00#8) with
    | (.ok inp, p') => (.ok (inp.drop (headerLen a)), p')
    | (.error e, p') => (.error e, p')
  else (.error (.addressOutOfRange a), p)

/-- The bursts of a batch, one transaction each, stopping at the first that fails (R122). -/
def burstWrites (c : Cfg) : List (Nat × List Byte) → Port → Prim Unit
  | [], p => (.ok (), p)
  | (a, vs) :: more, p =>
    match memWrite c a vs p with
    | (.ok _, p') => burstWrites c more p'
    | (.error e, p') => (.error e, p')

/-- `execute(batch)` for a batch given as a list with distinct keys (R122). -/
def executeMap (c : Cfg) (batch : List (Nat × Byte)) (p : Port) : Prim Unit :=
  match namedBadKey batch with
  | some a => (.error (.addressOutOfRange a), p)
  | none => burstWrites c (runsOf (sortBatch batch)) p

/-- `execute(batch)` (R122). -/
def execute (c : Cfg) (batch : List (Nat × Byte)) (p : Port) : Prim Unit :=
  executeMap c (batchMap batch) p

/-- `read(a)` (R124). -/
def read (c : Cfg) (a : Nat) (p : Port) : Prim Byte :=
  if 0xFFF < a then (.error (.addressOutOfRange a), p)
  else
    match memRead c a 1 p with
    | (.ok vs, p') => (.ok (byteAt vs 0), p')
    | (.error e, p') => (.error e, p')

/-- `read16(a)` (R125). -/
def read16 (c : Cfg) (a : Nat) (p : Port) : Prim (BitVec 16) :=
  if 0xFFE < a then (.error (.addressOutOfRange a), p)
  else
    match memRead c a 2 p with
    | (.ok vs, p') => (.ok (u16 (byteAt vs 0) (byteAt vs 1)), p')
    | (.error e, p') => (.error e, p')

/-- `write_fifo_data(p)` (R126). -/
def writeFifoData (c : Cfg) (payload : List Byte) (p : Port) : Prim Unit :=
  if 254 < payload.length then (.error (.payloadTooLong payload.length), p)
  else memWrite c c.addrFifodata (fifoFrameData c payload) p

/-- `read_fifo(count)` (R127). -/
def readFifo (c : Cfg) (count : Nat) (p : Port) : Prim (List Byte) :=
  if count = 0 then (.ok [], p) else memRead c c.addrFifodata count p

/-- A command write: `execute` of a one-entry batch (30_encoding.md R89). -/
def command (c : Cfg) (a : Nat) (v : Byte) (p : Port) : Prim Unit := execute c [(a, v)] p

/-- `cmd_commit()` (R128). -/
def cmdCommit (c : Cfg) (p : Port) : Prim Unit := command c c.addrFifostat c.fifoCommit p

/-- `cmd_pwr_standby()` (R129). -/
def cmdPwrStandby (c : Cfg) (p : Port) : Prim Unit := command c c.addrPwrmode c.pwrStandby p

/-- `cmd_pwr_fulltx()` (R130). -/
def cmdPwrFulltx (c : Cfg) (p : Port) : Prim Unit := command c c.addrPwrmode c.pwrFulltx p

/-- `cmd_pwr_fullrx()` (R131). -/
def cmdPwrFullrx (c : Cfg) (p : Port) : Prim Unit := command c c.addrPwrmode c.pwrFullrx p

/-- `cmd_rng_start()` (R132). -/
def cmdRngStart (c : Cfg) (p : Port) : Prim Unit := command c c.addrRng c.rngStartValue p

/-! ### Faulted entry and the return from it -/

/-- `fault(cause)`, Faulted entry (60_exceptions.md R246). The tick that calls it ends with it. -/
def Manager.enterFaulted (m : Manager) (cause : FaultCause) : Manager :=
  { m with state := .faulted, faultCause := cause }

/-- The fault-reset, the return from Faulted (R253). -/
def Manager.faultReset (m : Manager) : Manager :=
  { m with
    state := .autoranging
    rngIssued := false
    rngTicks := 0
    rxBuf := []
    faultCause := .none }

/-- A tick goes on with a primitive's value, and takes the transport fault where it raised an error
(R248). Under a well-formed `CFG` a tick's primitives raise no other error (log 13). -/
def orFault {α : Type} (r : Prim α) (m : Manager) (k : α → Port → Manager × Port) : Manager × Port :=
  match r with
  | (.ok v, p) => k v p
  | (.error _, p) => (m.enterFaulted .transport, p)

/-! ### The output streams -/

/-- `emit_data(p)` (10_state.md R30). -/
def Manager.emitData (m : Manager) (payload : List Byte) : Manager :=
  { m with rxData := m.rxData ++ [payload] }

/-- `emit_tlm(c)` (10_state.md R31). -/
def Manager.emitTlm (m : Manager) (v : Chunk) : Manager := { m with tlm := m.tlm ++ [v] }

/-- Emits a decoded chunk: a Data chunk's payload as received data, its flags byte dropped, and any
other value as telemetry (41_chunk_decoder.md R167, R170). -/
def Manager.emit (m : Manager) : Chunk → Manager
  | .data _ payload => m.emitData payload
  | v => m.emitTlm v

/-! ### Results to the host -/

/-- Hands a result to the host and changes nothing else. -/
def State.returning (s : State) (r : Result) : State := { s with ret := r }

/-- An operation on the block's state that returns a result (42_manager.md R207 to R215). -/
def State.withMgr (s : State) (m : Manager) (r : Result) : State := { s with mgr := m, ret := r }

/-- A primitive the host calls: it returns its value or the error it raised, and writes no block
state (40_bus_primitives.md R137, R138). -/
def State.hostCall {α : Type} (s : State) (r : Prim α) (give : α → Result) : State :=
  { s with
    port := r.2
    ret := match r.1 with
      | .ok v => give v
      | .error e => .raised e }

end Sys2Proof.Machine
end

