-- ==== Sys2Proof/Machine/Bus.lean ====
section
/-! DEFINITION. The meanings of the bus rows (40_bus_primitives.md): the four frame forms, the FIFO
frame, the five commands, and the primitives the host calls. None writes block state (R138). -/

namespace Sys2Proof.Machine

/-! ### The frame forms (R133 to R136) -/

/-- Emits a burst write frame headed at `a` (R84), one transaction. -/
def emitWrite (a : Nat) (data : List Byte) (s : State) : Host.Outcome State Fault Refusal :=
  if data = [] then .refused .headerOnlyFrame
  else .next (s.hostCall (memWrite s.cfg a data s.port) (fun _ => .unit))

/-- Emits a burst read frame of `n` bytes headed at `a` (R85), one transaction, and returns its data
bytes. -/
def emitRead (a n : Nat) (s : State) : Host.Outcome State Fault Refusal :=
  if n = 0 then .refused .headerOnlyFrame
  else .next (s.hostCall (memRead s.cfg a n s.port) .bytes)

/-- BUS_WR_SHORT (R133). -/
def execBusWrShort (a : BitVec 7) (data : List Byte) (s : State) :
    Host.Outcome State Fault Refusal :=
  if a.toNat < 0x70 then emitWrite a.toNat data s else .refused .headerMismatch

/-- BUS_WR_LONG (R134). -/
def execBusWrLong (a : BitVec 12) (data : List Byte) (s : State) :
    Host.Outcome State Fault Refusal :=
  if a.toNat < 0x070 then .refused .headerMismatch else emitWrite a.toNat data s

/-- BUS_RD_SHORT (R135). -/
def execBusRdShort (a : BitVec 7) (n : Nat) (s : State) : Host.Outcome State Fault Refusal :=
  if a.toNat < 0x70 then emitRead a.toNat n s else .refused .headerMismatch

/-- BUS_RD_LONG (R136). -/
def execBusRdLong (a : BitVec 12) (n : Nat) (s : State) : Host.Outcome State Fault Refusal :=
  if a.toNat < 0x070 then .refused .headerMismatch else emitRead a.toNat n s

/-! ### The FIFO frame and the commands (R126, R128 to R132) -/

/-- FIFO_TX_DATA (R126, 30_encoding.md R88). -/
def execFifoTxData (payload : List Byte) (s : State) : Host.Outcome State Fault Refusal :=
  .next (s.hostCall (writeFifoData s.cfg payload s.port) (fun _ => .unit))

/-- CMD_COMMIT (R128). -/
def execCmdCommit (s : State) : Host.Outcome State Fault Refusal :=
  .next (s.hostCall (cmdCommit s.cfg s.port) (fun _ => .unit))

/-- CMD_PWR_STANDBY (R129). -/
def execCmdPwrStandby (s : State) : Host.Outcome State Fault Refusal :=
  .next (s.hostCall (cmdPwrStandby s.cfg s.port) (fun _ => .unit))

/-- CMD_PWR_FULLTX (R130). -/
def execCmdPwrFulltx (s : State) : Host.Outcome State Fault Refusal :=
  .next (s.hostCall (cmdPwrFulltx s.cfg s.port) (fun _ => .unit))

/-- CMD_PWR_FULLRX (R131). -/
def execCmdPwrFullrx (s : State) : Host.Outcome State Fault Refusal :=
  .next (s.hostCall (cmdPwrFullrx s.cfg s.port) (fun _ => .unit))

/-- CMD_RNG_START (R132). -/
def execCmdRngStart (s : State) : Host.Outcome State Fault Refusal :=
  .next (s.hostCall (cmdRngStart s.cfg s.port) (fun _ => .unit))

/-! ### The primitives called by the host (42_manager.md R217) -/

/-- EXECUTE (R122). -/
def execExecute (batch : List (Nat × Byte)) (s : State) : Host.Outcome State Fault Refusal :=
  .next (s.hostCall (execute s.cfg batch s.port) (fun _ => .unit))

/-- READ (R124). -/
def execRead (a : Nat) (s : State) : Host.Outcome State Fault Refusal :=
  .next (s.hostCall (read s.cfg a s.port) .byte)

/-- READ16 (R125). -/
def execRead16 (a : Nat) (s : State) : Host.Outcome State Fault Refusal :=
  .next (s.hostCall (read16 s.cfg a s.port) .word)

/-- WRITE_FIFO_DATA (R126). -/
def execWriteFifoData (p : List Byte) (s : State) : Host.Outcome State Fault Refusal :=
  .next (s.hostCall (writeFifoData s.cfg p s.port) (fun _ => .unit))

/-- READ_FIFO (R127). -/
def execReadFifo (n : Nat) (s : State) : Host.Outcome State Fault Refusal :=
  .next (s.hostCall (readFifo s.cfg n s.port) .bytes)

end Sys2Proof.Machine
end

