-- ==== Sys2Proof/Machine/Chunks.lean ====
section
/-! DEFINITION. The chunk decoder (41_chunk_decoder.md): `decode_chunk`, the drain loop, and the
meanings of the chunk rows. A chunk row's meaning is the decoder's result for that chunk, handed to
the host: it writes no block state (R153 to R166, "Flags written: none"); what a Receiving tick
stores is the drain loop's doing (R167; log 7). -/

namespace Sys2Proof.Machine

/-! ### The decode function -/

/-- The chunk value of a complete chunk (R151). -/
def variant (c : Cfg) (ch : List Byte) : Chunk :=
  let t := byteAt ch 0
  if t = 0x31#8 then .rssi (sext8 (byteAt ch 1))
  else if t = c.tagFreqoffs then .frequencyOffset (u16 (byteAt ch 1) (byteAt ch 2))
  else if t = c.tagAntrssi2 then .antennaRssiPair (sext8 (byteAt ch 1)) (sext8 (byteAt ch 2))
  else if t = c.tagTimer then .timer (u24 (byteAt ch 1) (byteAt ch 2) (byteAt ch 3))
  else if t = c.tagRffreqoffs then .rfFrequencyOffset (u24 (byteAt ch 1) (byteAt ch 2) (byteAt ch 3))
  else if t = 0x74#8 then .dataRate (u24 (byteAt ch 1) (byteAt ch 2) (byteAt ch 3))
  else if t = c.tagAntrssi3 then .antennaRssiTriple (byteAt ch 1) (byteAt ch 2) (byteAt ch 3)
  else if t = 0xE1#8 ∧ 1 ≤ (byteAt ch 1).toNat then .data (byteAt ch 2) (ch.drop 3)
  else .unknown ch

/-- `decode_chunk(buf)` (R150, R151). -/
def decodeChunk (c : Cfg) (buf : List Byte) : DecodeResult :=
  match chunkLen c buf with
  | .needMore => .needMore
  | .noLength => .badClass (byteAt buf 0)
  | .known n =>
    if buf.length < n then .needMore else .chunk (variant c (buf.take n)) (buf.drop n)

/-! ### The drain loop -/

/-- The drain loop with a bound on its iterations (R167): the block's state after it, and the bad
tag where it returns `BAD`. -/
def drainLoop (c : Cfg) : Nat → Manager → Manager × Option Byte
  | 0, m => (m, none)
  | n + 1, m =>
    match decodeChunk c m.rxBuf with
    | .needMore => (m, none)
    | .badClass t => (m, some t)
    | .chunk v rest => drainLoop c n (Manager.emit { m with rxBuf := rest } v)

/-- `drain()` (R167). It iterates at most `len(rxBuf)` times, each chunk consuming a byte or more. -/
def drain (c : Cfg) (m : Manager) : Manager × Option Byte := drainLoop c m.rxBuf.length m

/-! ### The chunk rows -/

/-- The decoder's result for one chunk with nothing after it, handed to the host. -/
def State.decodes (s : State) (v : Chunk) : State := s.returning (.decoded (.chunk v []))

/-- CHK_RSSI (R153). -/
def execChkRssi (b1 : Byte) (s : State) : Host.Outcome State Fault Refusal :=
  .next (s.decodes (.rssi (sext8 b1)))

/-- CHK_FREQOFFS (R154): unsigned. -/
def execChkFreqoffs (b1 b2 : Byte) (s : State) : Host.Outcome State Fault Refusal :=
  .next (s.decodes (.frequencyOffset (u16 b1 b2)))

/-- CHK_ANTRSSI2 (R155). -/
def execChkAntrssi2 (b1 b2 : Byte) (s : State) : Host.Outcome State Fault Refusal :=
  .next (s.decodes (.antennaRssiPair (sext8 b1) (sext8 b2)))

/-- CHK_TIMER (R156). -/
def execChkTimer (b1 b2 b3 : Byte) (s : State) : Host.Outcome State Fault Refusal :=
  .next (s.decodes (.timer (u24 b1 b2 b3)))

/-- CHK_RFFREQOFFS (R157): unsigned, as the source states it. -/
def execChkRffreqoffs (b1 b2 b3 : Byte) (s : State) : Host.Outcome State Fault Refusal :=
  .next (s.decodes (.rfFrequencyOffset (u24 b1 b2 b3)))

/-- CHK_DATARATE (R158). -/
def execChkDatarate (b1 b2 b3 : Byte) (s : State) : Host.Outcome State Fault Refusal :=
  .next (s.decodes (.dataRate (u24 b1 b2 b3)))

/-- CHK_ANTRSSI3 (R159): the bytes stay raw. -/
def execChkAntrssi3 (b1 b2 b3 : Byte) (s : State) : Host.Outcome State Fault Refusal :=
  .next (s.decodes (.antennaRssiTriple b1 b2 b3))

/-! The other rows have the tag or a list of bytes among their operands. Their meaning is the
decoder's answer for the bytes of the form, so that operands which are another form's bytes get what
the spec gives those bytes: an exact tag takes precedence over its class (30_encoding.md R94), and no
tag is illegal in a way that traps (R97; log 19). -/

/-- Hands the decoder's answer for some bytes to the host (R150). -/
def State.decodesBytes (s : State) (bs : List Byte) : State :=
  s.returning (.decoded (decodeChunk s.cfg bs))

/-- CHK_DATA (R160): the flags byte is carried, not interpreted (R170). -/
def execChkData (flags : Byte) (payload : List Byte) (s : State) :
    Host.Outcome State Fault Refusal :=
  .next (s.decodesBytes (0xE1#8 :: BitVec.ofNat 8 (payload.length + 1) :: flags :: payload))

/-- CHK_UNKNOWN_C0 (R161). -/
def execChkUnknownC0 (t : Byte) (s : State) : Host.Outcome State Fault Refusal :=
  .next (s.decodesBytes [t])

/-- CHK_UNKNOWN_C1 (R162). -/
def execChkUnknownC1 (t b1 : Byte) (s : State) : Host.Outcome State Fault Refusal :=
  .next (s.decodesBytes [t, b1])

/-- CHK_UNKNOWN_C2 (R163). -/
def execChkUnknownC2 (t b1 b2 : Byte) (s : State) : Host.Outcome State Fault Refusal :=
  .next (s.decodesBytes [t, b1, b2])

/-- CHK_UNKNOWN_C3 (R164). -/
def execChkUnknownC3 (t b1 b2 b3 : Byte) (s : State) : Host.Outcome State Fault Refusal :=
  .next (s.decodesBytes [t, b1, b2, b3])

/-- CHK_UNKNOWN_C7 (R165): the length byte is kept with the other bytes. -/
def execChkUnknownC7 (t : Byte) (body : List Byte) (s : State) :
    Host.Outcome State Fault Refusal :=
  .next (s.decodesBytes (t :: BitVec.ofNat 8 body.length :: body))

/-- CHK_BADCLASS (R166): `BadClass` where the class has no length, and else an Unknown chunk. -/
def execChkBadclass (t : Byte) (body : List Byte) (s : State) : Host.Outcome State Fault Refusal :=
  .next (s.decodesBytes (t :: body))

/-- DECODE_CHUNK (R150, 42_manager.md R217): `rxBuf` is not touched. -/
def execDecodeChunk (buf : List Byte) (s : State) : Host.Outcome State Fault Refusal :=
  .next (s.decodesBytes buf)

end Sys2Proof.Machine
end

