-- ==== Sys2Proof/Machine/Manager.lean ====
section
/-! DEFINITION. The Manager (42_manager.md): the tick of each state, `dispatch()`, and the host
operations on the block's public surface. -/

namespace Sys2Proof.Machine

/-! ### The tick of each state -/

/-- The poll of an Autoranging tick: the exits in their order error, success, timeout (R192, R193,
60_exceptions.md R251). -/
def autorangingPoll (c : Cfg) (m : Manager) (p : Port) : Manager × Port :=
  orFault (read c c.addrRng p) m fun s p =>
  orFault (read c c.addrXtalstatus p) m fun x p =>
  if rangingError c s then (m.enterFaulted .rangingError, p)
  else if xtalRunning c x && !rangingBusy c s then ({ m with state := .idle }, p)
  else if c.autorangeTimeoutTicks ≤ m.rngTicks then (m.enterFaulted .autorangeTimeout, p)
  else (m, p)

/-- `tick_autoranging()` (R192). -/
def tickAutoranging (c : Cfg) (m : Manager) (p : Port) : Manager × Port :=
  if m.rngIssued then autorangingPoll c { m with rngTicks := m.rngTicks + 1 } p
  else
    orFault (cmdPwrStandby c p) m fun _ p =>
    orFault (cmdRngStart c p) m fun _ p =>
    autorangingPoll c { m with rngIssued := true, rngTicks := m.rngTicks + 1 } p

/-- `enter_transmitting()` for the payload at the inbox's head (R195). The head is removed only
after all three writes. -/
def enterTransmitting (c : Cfg) (payload : List Byte) (m : Manager) (p : Port) : Manager × Port :=
  orFault (writeFifoData c payload p) m fun _ p =>
  orFault (cmdCommit c p) m fun _ p =>
  orFault (cmdPwrFulltx c p) m fun _ p =>
  ({ m with inbox := m.inbox.tail, state := .transmitting }, p)

/-- `enter_receiving()` (R196). -/
def enterReceiving (c : Cfg) (m : Manager) (p : Port) : Manager × Port :=
  orFault (cmdPwrFullrx c p) m fun _ p => ({ m with rxBuf := [], state := .receiving }, p)

/-- `tick_idle()` (R194, R197). -/
def tickIdle (c : Cfg) (m : Manager) (p : Port) : Manager × Port :=
  match m.txEnabled, m.inbox with
  | true, payload :: _ => enterTransmitting c payload m p
  | _, _ => if m.rxEnabled then enterReceiving c m p else (m, p)

/-- `tick_transmitting()` (R198). -/
def tickTransmitting (c : Cfg) (m : Manager) (p : Port) : Manager × Port :=
  orFault (read c c.addrFault p) m fun f p =>
  if faultBit c f then (m.enterFaulted .txFault, p)
  else
    orFault (read c c.addrTxdone p) m fun d p =>
    if txComplete c d then
      orFault (cmdPwrStandby c p) m fun _ p => ({ m with state := .idle }, p)
    else (m, p)

/-- Appends bytes read from the chip FIFO and drains; a bad class faults and `rxBuf` keeps the
undecodable bytes (R199, 60_exceptions.md R249). -/
def receiveBytes (c : Cfg) (m : Manager) (bs : List Byte) : Manager :=
  match drain c { m with rxBuf := m.rxBuf ++ bs } with
  | (m', none) => m'
  | (m', some _) => m'.enterFaulted .decodeBadclass

/-- `tick_receiving()` (R199). -/
def tickReceiving (c : Cfg) (m : Manager) (p : Port) : Manager × Port :=
  orFault (read c c.addrFault p) m fun f p =>
  if faultBit c f then (m.enterFaulted .rxFault, p)
  else if !m.rxEnabled then
    orFault (cmdPwrStandby c p) m fun _ p => ({ m with state := .idle }, p)
  else
    orFault (read16 c c.addrFifocount p) m fun n p =>
    if c.fifoDepth < n.toNat then (m.enterFaulted .fifoCount, p)
    else orFault (readFifo c n.toNat p) m fun bs p => (receiveBytes c m bs, p)

/-- `tick_faulted(rr)` (R201, 60_exceptions.md R252). -/
def tickFaulted (rr : Bool) (m : Manager) (p : Port) : Manager × Port :=
  if rr then (m.faultReset, p) else (m, p)

/-- The tick of the state the Manager is in; `rr` is the reset request sampled by the prologue. -/
def tickBody (c : Cfg) (rr : Bool) (m : Manager) (p : Port) : Manager × Port :=
  match m.state with
  | .faulted => tickFaulted rr m p
  | .autoranging => tickAutoranging c m p
  | .idle => tickIdle c m p
  | .transmitting => tickTransmitting c m p
  | .receiving => tickReceiving c m p

/-- `dispatch()` (R190): the prologue samples and clears `reset_requested` (R191). -/
def dispatch (c : Cfg) (m : Manager) (p : Port) : Manager × Port :=
  tickBody c m.resetRequested { m with resetRequested := false } p

/-- TICK (R190): it returns nothing and raises nothing. -/
def execTick (s : State) : Host.Outcome State Fault Refusal :=
  .next
    { s with
      mgr := (dispatch s.cfg s.mgr s.port).1
      port := (dispatch s.cfg s.mgr s.port).2
      ret := .unit }

/-! ### The host operations -/

/-- SET_TX (R207). -/
def execSetTx (b : Bool) (s : State) : Host.Outcome State Fault Refusal :=
  .next (s.withMgr { s.mgr with txEnabled := b } .unit)

/-- SET_RX (R208). -/
def execSetRx (b : Bool) (s : State) : Host.Outcome State Fault Refusal :=
  .next (s.withMgr { s.mgr with rxEnabled := b } .unit)

/-- SET_RESET (R209). -/
def execSetReset (b : Bool) (s : State) : Host.Outcome State Fault Refusal :=
  .next (s.withMgr { s.mgr with resetRequested := b } .unit)

/-- PUSH (R210): a payload of 255 bytes or more raises PayloadTooLong. -/
def execPush (p : List Byte) (s : State) : Host.Outcome State Fault Refusal :=
  .next
    (if 254 < p.length then s.returning (.raised (.payloadTooLong p.length))
     else s.withMgr { s.mgr with inbox := s.mgr.inbox ++ [p] } .unit)

/-- IS_FAULTED (R211). -/
def execIsFaulted (s : State) : Host.Outcome State Fault Refusal :=
  .next (s.returning (.flag s.mgr.isFaulted))

/-- GET_STATE (R212). -/
def execGetState (s : State) : Host.Outcome State Fault Refusal :=
  .next (s.returning (.code s.mgr.state.code))

/-- TAKE_RXDATA (R213): the oldest entry, or none from an empty stream. -/
def execTakeRxdata (s : State) : Host.Outcome State Fault Refusal :=
  .next (s.withMgr { s.mgr with rxData := s.mgr.rxData.tail } (.payload s.mgr.rxData.head?))

/-- TAKE_TLM (R214): the oldest entry, or none from an empty stream. -/
def execTakeTlm (s : State) : Host.Outcome State Fault Refusal :=
  .next (s.withMgr { s.mgr with tlm := s.mgr.tlm.tail } (.telemetry s.mgr.tlm.head?))

/-- GET_FAULT_CAUSE (R215). -/
def execGetFaultCause (s : State) : Host.Outcome State Fault Refusal :=
  .next (s.returning (.code s.mgr.faultCause.code))

end Sys2Proof.Machine
end

