-- ==== Sys2Proof/Machine/Dispatch.lean ====
section
/-! DEFINITION. The dispatch: one arm for each instruction. -/

namespace Sys2Proof.Machine

def exec (i : Instr) (s : State) : Host.Outcome State Fault Refusal :=
  match i with
  -- bus frames and commands
  | .busWrShort a data => Sys2Proof.Machine.execBusWrShort a data s
  | .busWrLong a data => Sys2Proof.Machine.execBusWrLong a data s
  | .busRdShort a n => Sys2Proof.Machine.execBusRdShort a n s
  | .busRdLong a n => Sys2Proof.Machine.execBusRdLong a n s
  | .fifoTxData payload => Sys2Proof.Machine.execFifoTxData payload s
  | .cmdCommit => Sys2Proof.Machine.execCmdCommit s
  | .cmdPwrStandby => Sys2Proof.Machine.execCmdPwrStandby s
  | .cmdPwrFulltx => Sys2Proof.Machine.execCmdPwrFulltx s
  | .cmdPwrFullrx => Sys2Proof.Machine.execCmdPwrFullrx s
  | .cmdRngStart => Sys2Proof.Machine.execCmdRngStart s
  -- chunk forms
  | .chkRssi b1 => Sys2Proof.Machine.execChkRssi b1 s
  | .chkFreqoffs b1 b2 => Sys2Proof.Machine.execChkFreqoffs b1 b2 s
  | .chkAntrssi2 b1 b2 => Sys2Proof.Machine.execChkAntrssi2 b1 b2 s
  | .chkTimer b1 b2 b3 => Sys2Proof.Machine.execChkTimer b1 b2 b3 s
  | .chkRffreqoffs b1 b2 b3 => Sys2Proof.Machine.execChkRffreqoffs b1 b2 b3 s
  | .chkDatarate b1 b2 b3 => Sys2Proof.Machine.execChkDatarate b1 b2 b3 s
  | .chkAntrssi3 b1 b2 b3 => Sys2Proof.Machine.execChkAntrssi3 b1 b2 b3 s
  | .chkData flags payload => Sys2Proof.Machine.execChkData flags payload s
  | .chkUnknownC0 t => Sys2Proof.Machine.execChkUnknownC0 t s
  | .chkUnknownC1 t b1 => Sys2Proof.Machine.execChkUnknownC1 t b1 s
  | .chkUnknownC2 t b1 b2 => Sys2Proof.Machine.execChkUnknownC2 t b1 b2 s
  | .chkUnknownC3 t b1 b2 b3 => Sys2Proof.Machine.execChkUnknownC3 t b1 b2 b3 s
  | .chkUnknownC7 t body => Sys2Proof.Machine.execChkUnknownC7 t body s
  | .chkBadclass t body => Sys2Proof.Machine.execChkBadclass t body s
  -- host operations
  | .tick => Sys2Proof.Machine.execTick s
  | .setTx b => Sys2Proof.Machine.execSetTx b s
  | .setRx b => Sys2Proof.Machine.execSetRx b s
  | .setReset b => Sys2Proof.Machine.execSetReset b s
  | .push p => Sys2Proof.Machine.execPush p s
  | .isFaulted => Sys2Proof.Machine.execIsFaulted s
  | .getState => Sys2Proof.Machine.execGetState s
  | .takeRxdata => Sys2Proof.Machine.execTakeRxdata s
  | .takeTlm => Sys2Proof.Machine.execTakeTlm s
  | .getFaultCause => Sys2Proof.Machine.execGetFaultCause s
  | .execute batch => Sys2Proof.Machine.execExecute batch s
  | .read a => Sys2Proof.Machine.execRead a s
  | .read16 a => Sys2Proof.Machine.execRead16 a s
  | .writeFifoData p => Sys2Proof.Machine.execWriteFifoData p s
  | .readFifo n => Sys2Proof.Machine.execReadFifo n s
  | .decodeChunk buf => Sys2Proof.Machine.execDecodeChunk buf s

end Sys2Proof.Machine
end

