-- ==== Sys2Proof/Machine/Fetch.lean ====
section
/-! DEFINITION. What the next step runs. The block fetches no instructions (20_memory.md R64): the
host, the sole scheduler, lines its operations up, and they and the ticks are totally ordered
(42_manager.md R218, 70_reset_and_hazards.md R274; log 4). -/

namespace Sys2Proof.Machine

/-- The requests after the front of a chunk stream was read: the bytes after the chunk stay in
front. Where nothing was consumed (a tag whose class has no length, R152) the rest of that stream
is dropped, since its next tag cannot be known (60_exceptions.md R249). DESIGN CHOICE, safe
(log 16). -/
def afterChunk (bs rest : List Byte) (more : List Request) : List Request :=
  if rest = [] ∨ bs.length ≤ rest.length then more else .chunk rest :: more

/-- What one request asks for, `s` being the state with the request taken off the list. -/
def serve (r : Request) (s : State) : Fetched :=
  match r with
  | .call i => .run i s
  | .frame bs =>
    match decodeFrame s.cfg bs with
    | .ok i => .run i s
    | .error e => .reject (.undecodableFrame e)
  | .chunk bs =>
    match fetchChunk s.cfg bs with
    | .needMore => .settled (s.returning (.decoded .needMore))
    | .instr i rest => .run i { s with requests := afterChunk bs rest s.requests }

/-- The next step: the first request, and where the host has lined up none, a TICK: the entry point
after construction is the first TICK (70_reset_and_hazards.md R270), and the host's duty is to call
it repeatedly (42_manager.md R225). DESIGN CHOICE, safe (log 4). -/
def fetch (s : State) : Fetched :=
  match s.requests with
  | [] => .run .tick s
  | r :: more => serve r { s with requests := more }

/-- The request that runs a table word (log 14). -/
def tableRequest (c : Cfg) (nbits w : Nat) : Request :=
  match tableStream nbits with
  | .chunk => .chunk (tableBytes c nbits w)
  | _ => .frame (tableBytes c nbits w)

end Sys2Proof.Machine
end

