-- ==== Sys2Proof/Machine/Step.lean ====
section
/-! DEFINITION. One step of the machine. -/

namespace Sys2Proof.Machine

/-- One step: what the host asks for next, and a TICK where it asks for nothing (log 4). -/
def step (s : State) : Host.Outcome State Fault Refusal :=
  match fetch s with
  | .run i s' => exec i s'
  | .settled s' => .next s'
  | .reject r => .refused r

/-- The state in which a table word is what the host asks for next (log 4, 14). -/
def State.withFetchWord (s : State) (nbits w : Nat) : State :=
  { s with requests := tableRequest s.cfg nbits w :: s.requests }

end Sys2Proof.Machine
end

