-- ==== Sys2Proof/Safety.lean ====
section
/-! DEFINITION. What a safe run is, in the terms the statements use: the invariants of the block. -/

namespace Sys2Proof.Machine

/-- Every queued payload can be framed (10_state.md R28, 30_encoding.md R100). -/
abbrev Manager.InboxFramable (m : Manager) : Prop := ∀ p ∈ m.inbox, p.length ≤ 254

/-- `faultCause` is `NONE` in every state except Faulted, and is not there (42_manager.md R215,
60_exceptions.md R246). -/
abbrev Manager.CauseMatches (m : Manager) : Prop := m.faultCause = .none ↔ m.state ≠ .faulted

/-- The stay counter against the timeout (10_state.md R33, 42_manager.md R193): never above it, and
below it in a stay that goes on; a stay's start is issued by its first tick (R32, R192). -/
abbrev Manager.StayCounted (c : Cfg) (m : Manager) : Prop :=
  m.rngTicks ≤ c.autorangeTimeoutTicks ∧
  (m.state = .autoranging → m.rngTicks < c.autorangeTimeoutTicks ∧ (m.rngIssued ↔ m.rngTicks ≠ 0)) ∧
  ((m.state = .idle ∨ m.state = .transmitting ∨ m.state = .receiving) →
    m.rngIssued ∧ m.rngTicks ≠ 0)

/-- Outside Faulted the decode buffer holds at most one incomplete chunk (41_chunk_decoder.md R167,
R243). -/
abbrev Manager.BufferDrained (c : Cfg) (m : Manager) : Prop :=
  m.state ≠ .faulted → decodeChunk c m.rxBuf = .needMore

/-- The decode buffer is within its capacity (10_state.md R29). -/
abbrev Manager.BufferFits (c : Cfg) (m : Manager) : Prop := m.rxBuf.length ≤ c.fifoDepth + 256

/-- The telemetry stream holds every variant except Data (10_state.md R31). -/
abbrev Manager.TelemetryIsNotData (m : Manager) : Prop :=
  ∀ v ∈ m.tlm, ∀ flags payload, v ≠ .data flags payload

/-- A safe state: a well-formed configuration and every invariant above. -/
structure State.Safe (s : State) : Prop where
  cfg : s.cfg.WellFormed
  inbox : s.mgr.InboxFramable
  cause : s.mgr.CauseMatches
  stay : s.mgr.StayCounted s.cfg
  drained : s.mgr.BufferDrained s.cfg
  fits : s.mgr.BufferFits s.cfg
  telemetry : s.mgr.TelemetryIsNotData

/-! ### Terms of the statements -/

/-- The entries a burst stands for: its bytes at consecutive addresses from its first (30_encoding.md
R87, step 3). -/
def runEntries (a : Nat) : List Byte → List (Nat × Byte)
  | [] => []
  | v :: vs => (a, v) :: runEntries (a + 1) vs

/-- The environment's answer to the `k`-th transaction from here on (20_memory.md R55, R57; log 3). -/
def Port.answer (p : Port) (k : Nat) : Draw :=
  match p.env[k]? with
  | some d => d
  | none => { fails := Config.freeFails (p.drawn + k), bytes := [] }

/-- Byte `j` of the response to the `k`-th transaction from here on. -/
def Port.answerByte (p : Port) (k j : Nat) : Byte :=
  match (p.answer k).bytes[j]? with
  | some b => b
  | none => Config.freeByte (p.drawn + k) j

/-- The whole response to the `k`-th transaction from here on, for a transfer of `n` bytes. -/
def Port.answerBytes (p : Port) (k n : Nat) : List Byte := (List.range n).map (p.answerByte k)

/-- The transaction that reads `n` bytes at `a` as the `k`-th from here on, where it completes
(30_encoding.md R85). -/
def Port.readDone (p : Port) (k a n : Nat) : Transaction :=
  .xfer (header a .read ++ List.replicate n 0x00#8) (some (p.answerBytes k (headerLen a + n)))

/-- A transaction that the transport reported as failed (20_memory.md R55). -/
def Transaction.failed : Transaction → Bool
  | .write _ ok => !ok
  | .xfer _ response => response.isNone

/-- What a transaction did at the chip's register interface (40_bus_primitives.md R133 to R136); of a
failed one the effect is unknown (60_exceptions.md R242; log 18). -/
def Transaction.accesses (c : Cfg) : Transaction → List Access
  | .write out true => frameAccesses c out []
  | .xfer out (some response) => frameAccesses c out response
  | .write _ false => [.unknownEffect]
  | .xfer _ none => [.unknownEffect]

/-- The front of a byte list decodes, chunk after chunk, to these values, and leaves `rest`
(41_chunk_decoder.md R167). -/
def decodesInto (c : Cfg) (rest : List Byte) : List Byte → List Chunk → Prop
  | buf, [] => buf = rest
  | buf, v :: vs => ∃ mid, decodeChunk c buf = .chunk v mid ∧ decodesInto c rest mid vs

/-- The same decode result with other bytes after the chunk. -/
def DecodeResult.followedBy (r : DecodeResult) (rest : List Byte) : DecodeResult :=
  match r with
  | .chunk v _ => .chunk v rest
  | .needMore => .needMore
  | .badClass t => .badClass t

end Sys2Proof.Machine
end

