-- ==== Sys2Proof/Certificates/Slice0/Obligations.lean ====
section
/-! DEFINITION. The statements for the provers, by the spec's numbered rules. A premise
`s.cfg.WellFormed` is the well-formedness of `CFG` that 00_scope.md R12 puts on every `CFG`; that no
step leaves it is part of SafeStatesStaySafe. `s.port.answer k` is what the environment answers to
the k-th transaction from here on, whatever it is (20_memory.md R57). -/

open Sys2Proof Sys2Proof.Machine

/-! ### Encoding -/

/-- R80, bit by bit: bit 7 is the write bit, bits 6:0 the address. -/
def Obligations.ShortHeaderIsWriteBitThenAddress : Prop :=
  ∀ a : BitVec 7, a.toNat < 0x70 →
    header a.toNat .write = [(1#1 ++ a : BitVec 8)] ∧ header a.toNat .read = [(0#1 ++ a : BitVec 8)]

/-- R81: high byte first, the address's top nibble under 0xF (write) or 0x7 (read). -/
def Obligations.ExtendedHeaderIsHighByteFirst : Prop :=
  ∀ a : BitVec 12, 0x070 ≤ a.toNat →
    header a.toNat .write = [(0xF#4 ++ a.extractLsb' 8 4 : BitVec 8), a.extractLsb' 0 8] ∧
    header a.toNat .read = [(0x7#4 ++ a.extractLsb' 8 4 : BitVec 8), a.extractLsb' 0 8]

/-- R83: the first byte alone gives the direction and the header's length, by its four ranges. -/
def Obligations.FirstByteTellsTheForm : Prop :=
  (∀ b : Byte, classifyFirstByte b =
    if b.toNat ≤ 0x6F then (.read, 1) else if b.toNat ≤ 0x7F then (.read, 2)
    else if b.toNat ≤ 0xEF then (.write, 1) else (.write, 2)) ∧
  (∀ a d, a ≤ 0xFFF → ∃ b bs, header a d = b :: bs ∧
    classifyFirstByte b = (d, (header a d).length))

/-- Decode and encode agree on the bus stream. A header form's frame that is also a command's or a
FIFO frame's is read as that one (log 15, the model's choice), so such frames are set apart, and so
are two commands that a `CFG` gives one frame. -/
def Obligations.FramesDecodeToTheirInstruction : Prop :=
  ∀ (c : Cfg) (i : Instr) (bs : List Byte), i.stream = .bus → i.wellFormed c = true →
    encode c i = some bs →
    ((∀ p, i ≠ .fifoTxData p) → ∀ p, p.length ≤ 254 → bs ≠ fifoFrame c p) →
    ((commandFrames c).map Prod.fst).Nodup →
    (bs ∈ (commandFrames c).map Prod.fst → (bs, i) ∈ commandFrames c) →
    decodeFrame c bs = .ok i

/-- Every frame the decoder reads is the encoding of the instruction it reads. -/
def Obligations.DecodedFramesEncodeBack : Prop :=
  ∀ (c : Cfg) (bs : List Byte) (i : Instr), decodeFrame c bs = .ok i →
    encode c i = some bs ∧ i.wellFormed c = true ∧ i.stream = .bus

/-- Decode and encode agree on the chunk stream, whatever follows the chunk. A tag whose class has
no length consumes nothing (R152). -/
def Obligations.ChunksDecodeToTheirInstruction : Prop :=
  ∀ (c : Cfg) (i : Instr) (bs more : List Byte), c.WellFormed → i.stream = .chunk →
    i.wellFormed c = true → encode c i = some bs →
    fetchChunk c (bs ++ more) =
      .instr i (match i with
        | .chkBadclass t _ => if configuredLen c t = none then bs ++ more else more
        | _ => more)

/-- Every chunk the decoder reads is the encoding of the form it reads, and is what it consumes. -/
def Obligations.FetchedChunksEncodeBack : Prop :=
  ∀ (c : Cfg) (bs rest : List Byte) (i : Instr), c.WellFormed → fetchChunk c bs = .instr i rest →
    i.stream = .chunk ∧ i.wellFormed c = true ∧
    ∃ ch, encode c i = some ch ∧
      ((∃ t, i = .chkBadclass t [] ∧ configuredLen c t = none ∧ rest = bs ∧ ch <+: bs) ∨
       bs = ch ++ rest)

/-- Words written out from the spec's encodings (R86, R88, R89, R94) decode to their rows. Two of them
are the model's choice: that the frames of FIFO_TX_DATA and CMD_RNG_START, which are BUS_WR_SHORT
frames too, are read as those rows (log 15, DESIGN CHOICE), and that all is under the reference
`CFG` (log 1, DESIGN CHOICE). -/
def Obligations.TableWordsDecode : Prop :=
  decodeFrame Cfg.reference [0x82#8, 0x50#8, 0x10#8] = .ok (.busWrShort 0x02 [0x50, 0x10]) ∧
  decodeFrame Cfg.reference [0x71#8, 0x00#8, 0x00#8] = .ok (.busRdLong 0x100 1) ∧
  decodeFrame Cfg.reference [0xA9#8, 0xE1#8, 0x02#8, 0x03#8, 0xAA#8] = .ok (.fifoTxData [0xAA]) ∧
  decodeFrame Cfg.reference [0xB3#8, 0x18#8] = .ok .cmdRngStart ∧
  fetchChunk Cfg.reference [0x31#8, 0xEC#8] = .instr (.chkRssi 0xEC) [] ∧
  fetchChunk Cfg.reference [0xE1#8, 0x02#8, 0x13#8, 0xAA#8] = .instr (.chkData 0x13 [0xAA]) []

/-- The outbound FIFO frame is itself a Data chunk that carries the payload back, whatever follows
it. -/
def Obligations.FifoFrameIsADataChunk : Prop :=
  ∀ (c : Cfg) (p more : List Byte), c.WellFormed → p.length ≤ 254 →
    fifoFrame c p =
      header c.addrFifodata .write ++ (0xE1#8 :: BitVec.ofNat 8 (p.length + 1) :: c.txFlags :: p) ∧
    decodeChunk c (fifoFrameData c p ++ more) = .chunk (.data c.txFlags p) more

/-! ### The chunk decoder -/

/-- R91 and R99: how many bytes the chunk at the front has, by the ranges of its tag, and so when
the decoder answers NeedMore, BadClass or a chunk. -/
def Obligations.ChunkLengthByTagClass : Prop :=
  ∀ (c : Cfg) (t : Byte) (body : List Byte),
    let answers (n : Nat) : Prop :=
      if (t :: body).length < n then decodeChunk c (t :: body) = .needMore
      else ∃ v, decodeChunk c (t :: body) = .chunk v ((t :: body).drop n)
    let configured (l : Option Nat) : Prop :=
      match l with
      | none => decodeChunk c (t :: body) = .badClass t
      | some n => answers n
    decodeChunk c [] = .needMore ∧
    (t.toNat ≤ 0x1F → answers 1) ∧
    (0x20 ≤ t.toNat → t.toNat ≤ 0x3F → answers 2) ∧
    (0x40 ≤ t.toNat → t.toNat ≤ 0x5F → answers 3) ∧
    (0x60 ≤ t.toNat → t.toNat ≤ 0x7F → answers 4) ∧
    (0x80 ≤ t.toNat → t.toNat ≤ 0x9F → configured c.classLen4) ∧
    (0xA0 ≤ t.toNat → t.toNat ≤ 0xBF → configured c.classLen5) ∧
    (0xC0 ≤ t.toNat → t.toNat ≤ 0xDF → configured c.classLen6) ∧
    (0xE0 ≤ t.toNat →
      match body with
      | [] => decodeChunk c (t :: body) = .needMore
      | b1 :: _ => answers (b1.toNat + 2))

/-- The decode function and the chunk rows agree: DECODE_CHUNK returns what the row of the chunk at
the front returns, with the bytes after that chunk. -/
def Obligations.DecodeChunkAgreesWithTheRows : Prop :=
  ∀ (s : State) (buf : List Byte), s.cfg.WellFormed →
    match fetchChunk s.cfg buf with
    | .needMore => exec (.decodeChunk buf) s = .next { s with ret := .decoded .needMore }
    | .instr i rest =>
      ∃ r, exec i s = .next { s with ret := .decoded r } ∧
        exec (.decodeChunk buf) s = .next { s with ret := .decoded (r.followedBy rest) }

/-- R152: a chunk consumes its `L` bytes and no more, between 1 and 257 of them, and the decoder
reads nothing past them. -/
def Obligations.DecoderConsumesExactlyTheChunk : Prop :=
  ∀ (c : Cfg) (buf rest : List Byte) (v : Chunk), c.WellFormed →
    decodeChunk c buf = .chunk v rest →
    ∃ ch, buf = ch ++ rest ∧ 1 ≤ ch.length ∧ ch.length ≤ 257 ∧ chunkLen c buf = .known ch.length ∧
      ∀ other, decodeChunk c (ch ++ other) = .chunk v other

/-- R171: a chunk decodes the same whatever bytes follow it, and so what is drained does not depend
on how the bytes were split, as long as no bad class occurs before the split. -/
def Obligations.DrainIsSplitIndependent : Prop :=
  ∀ (c : Cfg) (first more : List Byte), c.WellFormed →
    (∀ v rest, decodeChunk c first = .chunk v rest →
      decodeChunk c (first ++ more) = .chunk v (rest ++ more)) ∧
    (∀ m m' : Manager, drain c { m with rxBuf := first } = (m', none) →
      drain c { m' with rxBuf := m'.rxBuf ++ more } = drain c { m with rxBuf := first ++ more })

/-- R167: draining decodes chunk after chunk and emits them in stream order, Data payloads to
`rxData` and every other value to `tlm`, and stops at an incomplete chunk (at most 256 bytes left)
or at a bad class. -/
def Obligations.DrainEmitsInOrder : Prop :=
  ∀ (c : Cfg) (m : Manager), c.WellFormed →
    ∃ chunks : List Chunk,
      decodesInto c (drain c m).1.rxBuf m.rxBuf chunks ∧
      (drain c m).1.rxData = m.rxData ++ chunks.filterMap (fun v => match v with
        | .data _ p => some p
        | _ => none) ∧
      (drain c m).1.tlm = m.tlm ++ chunks.filter (fun v => match v with
        | .data _ _ => false
        | _ => true) ∧
      (drain c m).1 = { m with
        rxBuf := (drain c m).1.rxBuf, rxData := (drain c m).1.rxData, tlm := (drain c m).1.tlm } ∧
      chunks.length ≤ m.rxBuf.length ∧
      ((drain c m).2 = none → decodeChunk c (drain c m).1.rxBuf = .needMore ∧
        (drain c m).1.rxBuf.length ≤ 256) ∧
      (∀ t, (drain c m).2 = some t → decodeChunk c (drain c m).1.rxBuf = .badClass t)

/-- R153 and R155: signed-byte rows. -/
def Obligations.SignedChunkRowsSignExtend : Prop :=
  ∀ (b1 b2 : Byte) (s : State),
    let signed (b : Byte) : Int := if b.toNat < 0x80 then b.toNat else (b.toNat : Int) - 256
    exec (.chkRssi b1) s = .next { s with ret := .decoded (.chunk (.rssi (signed b1)) []) } ∧
    exec (.chkAntrssi2 b1 b2) s =
      .next { s with ret := .decoded (.chunk (.antennaRssiPair (signed b1) (signed b2)) []) }

/-- R154, R156, R157, R158: unsigned big-endian rows. -/
def Obligations.UnsignedChunkRowsAreBigEndian : Prop :=
  ∀ (b1 b2 b3 : Byte) (s : State),
    let n2 := b1.toNat * 256 + b2.toNat
    let n3 := b1.toNat * 65536 + b2.toNat * 256 + b3.toNat
    exec (.chkFreqoffs b1 b2) s =
      .next { s with ret := .decoded (.chunk (.frequencyOffset (BitVec.ofNat 16 n2)) []) } ∧
    n2 < 2 ^ 16 ∧
    exec (.chkTimer b1 b2 b3) s =
      .next { s with ret := .decoded (.chunk (.timer (BitVec.ofNat 24 n3)) []) } ∧
    exec (.chkRffreqoffs b1 b2 b3) s =
      .next { s with ret := .decoded (.chunk (.rfFrequencyOffset (BitVec.ofNat 24 n3)) []) } ∧
    exec (.chkDatarate b1 b2 b3) s =
      .next { s with ret := .decoded (.chunk (.dataRate (BitVec.ofNat 24 n3)) []) } ∧
    n3 < 2 ^ 24

/-- R159 to R166: the raw, Data, Unknown and bad-class rows return their chunk's bytes; a class without
a length gives BadClass. For operands that are no bytes of the row's own form each row returns what
the decoder answers for the encoded bytes (log 19, the model's choice). -/
def Obligations.RawChunkRowsKeepTheirBytes : Prop :=
  ∀ (s : State) (t b1 b2 b3 flags : Byte) (body : List Byte),
    exec (.chkAntrssi3 b1 b2 b3) s =
      .next { s with ret := .decoded (.chunk (.antennaRssiTriple b1 b2 b3) []) } ∧
    (s.cfg.WellFormed → body.length ≤ 254 →
      exec (.chkData flags body) s =
        .next { s with ret := .decoded (.chunk (.data flags body) []) }) ∧
    (∀ i, i = .chkUnknownC0 t ∨ i = .chkUnknownC1 t b1 ∨ i = .chkUnknownC2 t b1 b2 ∨
        i = .chkUnknownC3 t b1 b2 b3 ∨ i = .chkUnknownC7 t body →
      s.cfg.WellFormed → i.wellFormed s.cfg = true →
      ∃ raw, encode s.cfg i = some raw ∧
        exec i s = .next { s with ret := .decoded (.chunk (.unknown raw) []) }) ∧
    (s.cfg.WellFormed → (Instr.chkBadclass t body).wellFormed s.cfg = true →
      exec (.chkBadclass t body) s = .next { s with
        ret := .decoded
          (if configuredLen s.cfg t = none then .badClass t
           else .chunk (.unknown (t :: body)) []) }) ∧
    (∀ i, i = .chkData flags body ∨ i = .chkUnknownC0 t ∨ i = .chkUnknownC1 t b1 ∨
        i = .chkUnknownC2 t b1 b2 ∨ i = .chkUnknownC3 t b1 b2 b3 ∨ i = .chkUnknownC7 t body ∨
        i = .chkBadclass t body →
      ∃ raw, encode s.cfg i = some raw ∧
        exec i s = .next { s with ret := .decoded (decodeChunk s.cfg raw) })

/-! ### The bus rows and the primitives -/

/-- R133, R134: a write form is one `BusWrite` of its frame; where it completes, data byte `k`
reaches register `a + k`, or the FIFO data register (R52); where it fails, TransportError. -/
def Obligations.WriteFramesReachTheirRegisters : Prop :=
  ∀ (s : State) (data : List Byte), data ≠ [] →
    let sends (i : Instr) (a : Nat) (hdr : List Byte) : Prop :=
      a = s.cfg.addrFifodata ∨ a + data.length ≤ 0x1000 →
      ∃ t, exec i s = .next t ∧ t.cfg = s.cfg ∧ t.mgr = s.mgr ∧ t.requests = s.requests ∧
        t.port.trace = s.port.trace ++ [.write (hdr ++ data) (!(s.port.answer 0).fails)] ∧
        ((s.port.answer 0).fails = true →
          t.ret = .raised .transportError ∧ t.port.chip = s.port.chip ++ [.unknownEffect]) ∧
        ((s.port.answer 0).fails = false →
          t.ret = .unit ∧
          t.port.chip = s.port.chip ++ data.zipIdx.map (fun (v, k) =>
            .wrote (if a = s.cfg.addrFifodata then a else a + k) v))
    (∀ a : BitVec 7, a.toNat < 0x70 → sends (.busWrShort a data) a.toNat [(1#1 ++ a : BitVec 8)]) ∧
    (∀ a : BitVec 12, 0x070 ≤ a.toNat → sends (.busWrLong a data) a.toNat
      [(0xF#4 ++ a.extractLsb' 8 4 : BitVec 8), a.extractLsb' 0 8])

/-- R135, R136: a read form is one `BusXfer` of its header and 0x00 fill bytes; where it completes,
it returns the response bytes after the echo bytes. -/
def Obligations.ReadFramesReturnTheBytesAfterTheEcho : Prop :=
  ∀ (s : State) (n : Nat), 1 ≤ n →
    let gets (i : Instr) (a : Nat) (hdr : List Byte) : Prop :=
      a = s.cfg.addrFifodata ∨ a + n ≤ 0x1000 →
      ∃ t, exec i s = .next t ∧ t.cfg = s.cfg ∧ t.mgr = s.mgr ∧ t.requests = s.requests ∧
        ((s.port.answer 0).fails = true →
          t.ret = .raised .transportError ∧ t.port.chip = s.port.chip ++ [.unknownEffect] ∧
          t.port.trace = s.port.trace ++ [.xfer (hdr ++ List.replicate n 0x00#8) none]) ∧
        ((s.port.answer 0).fails = false →
          t.ret = .bytes ((s.port.answerBytes 0 (hdr.length + n)).drop hdr.length) ∧
          t.port.chip = s.port.chip ++
            ((s.port.answerBytes 0 (hdr.length + n)).drop hdr.length).zipIdx.map (fun (v, k) =>
              .got (if a = s.cfg.addrFifodata then a else a + k) v) ∧
          t.port.trace = s.port.trace ++ [.xfer (hdr ++ List.replicate n 0x00#8)
            (some (s.port.answerBytes 0 (hdr.length + n)))])
    (∀ a : BitVec 7, a.toNat < 0x70 → gets (.busRdShort a n) a.toNat [(0#1 ++ a : BitVec 8)]) ∧
    (∀ a : BitVec 12, 0x070 ≤ a.toNat → gets (.busRdLong a n) a.toNat
      [(0x7#4 ++ a.extractLsb' 8 4 : BitVec 8), a.extractLsb' 0 8])

/-- R54: a burst that would pass 0xFFF raises AddressOutOfRange before any transaction, whatever its
header form. That it names the burst's first address is the model's reading (log 9). -/
def Obligations.BurstsPastTheRegisterSpaceAreRaised : Prop :=
  ∀ (s : State) (n : Nat) (data : List Byte), 1 ≤ n → data ≠ [] →
    let raises (i : Instr) (a len : Nat) : Prop :=
      a ≠ s.cfg.addrFifodata → 0x1000 < a + len →
      exec i s = .next { s with ret := .raised (.addressOutOfRange a) }
    (∀ a : BitVec 7, a.toNat < 0x70 →
      raises (.busRdShort a n) a.toNat n ∧ raises (.busWrShort a data) a.toNat data.length) ∧
    (∀ a : BitVec 12, 0x070 ≤ a.toNat →
      raises (.busRdLong a n) a.toNat n ∧ raises (.busWrLong a data) a.toNat data.length)

/-- U7, D37: a form whose address its header cannot carry, or that has no data byte, is refused. -/
def Obligations.FormsThatAreNoFrameAreRefused : Prop :=
  ∀ (s : State) (data : List Byte) (n : Nat),
    (∀ a : BitVec 12, a.toNat < 0x070 →
      exec (.busWrLong a data) s = .refused .headerMismatch ∧
      exec (.busRdLong a n) s = .refused .headerMismatch) ∧
    (∀ a : BitVec 7, 0x70 ≤ a.toNat →
      exec (.busWrShort a data) s = .refused .headerMismatch ∧
      exec (.busRdShort a n) s = .refused .headerMismatch) ∧
    (∀ a : BitVec 7, a.toNat < 0x70 →
      exec (.busWrShort a []) s = .refused .headerOnlyFrame ∧
      exec (.busRdShort a 0) s = .refused .headerOnlyFrame) ∧
    (∀ a : BitVec 12, 0x070 ≤ a.toNat →
      exec (.busWrLong a []) s = .refused .headerOnlyFrame ∧
      exec (.busRdLong a 0) s = .refused .headerOnlyFrame)

/-- R128 to R132: a command row is one write of its register's header and its value. -/
def Obligations.CommandRowsWriteOneRegister : Prop :=
  ∀ s : State, s.cfg.WellFormed →
    ∀ (i : Instr) (a : Nat) (v : Byte),
      (i, a, v) ∈ [(Instr.cmdCommit, s.cfg.addrFifostat, s.cfg.fifoCommit),
        (.cmdPwrStandby, s.cfg.addrPwrmode, s.cfg.pwrStandby),
        (.cmdPwrFulltx, s.cfg.addrPwrmode, s.cfg.pwrFulltx),
        (.cmdPwrFullrx, s.cfg.addrPwrmode, s.cfg.pwrFullrx),
        (.cmdRngStart, s.cfg.addrRng, s.cfg.rngStartValue)] →
      ∃ t, exec i s = .next t ∧ t.cfg = s.cfg ∧ t.mgr = s.mgr ∧ t.requests = s.requests ∧
        t.port.trace =
          s.port.trace ++ [.write (header a .write ++ [v]) (!(s.port.answer 0).fails)] ∧
        t.port.chip = s.port.chip ++
          (if (s.port.answer 0).fails then [.unknownEffect] else [.wrote a v]) ∧
        t.ret = (if (s.port.answer 0).fails then .raised .transportError else .unit)

/-- R122, R123: the bursts of EXECUTE are the batch's maximal runs in ascending order, each one
write; the first that fails ends it, the earlier ones done and no later one attempted. -/
def Obligations.ExecuteSendsOneBurstPerRun : Prop :=
  ∀ batch : List (Nat × Byte), (batch.map Prod.fst).Nodup → (∀ e ∈ batch, e.1 ≤ 0xFFF) →
    ∃ runs : List (Nat × List Byte),
      (runs.flatMap (fun r => runEntries r.1 r.2)).Perm batch ∧
      (∀ r ∈ runs, r.2 ≠ []) ∧
      runs.IsChain (fun r r' => r.1 + r.2.length < r'.1) ∧
      ∀ s : State,
        ((∀ k, k < runs.length → (s.port.answer k).fails = false) →
          ∃ t, exec (.execute batch) s = .next t ∧ t.cfg = s.cfg ∧ t.mgr = s.mgr ∧
            t.requests = s.requests ∧ t.ret = .unit ∧
            t.port.trace =
              s.port.trace ++ runs.map (fun r => .write (header r.1 .write ++ r.2) true)) ∧
        (∀ j, j < runs.length → (∀ k, k < j → (s.port.answer k).fails = false) →
          (s.port.answer j).fails = true →
          ∃ t, exec (.execute batch) s = .next t ∧ t.cfg = s.cfg ∧ t.mgr = s.mgr ∧
            t.requests = s.requests ∧ t.ret = .raised .transportError ∧
            t.port.trace = s.port.trace ++
              (runs.take j).map (fun r => .write (header r.1 .write ++ r.2) true) ++
              ((runs.drop j).take 1).map (fun r => .write (header r.1 .write ++ r.2) false))

/-- What EXECUTE does at the chip, read back from its frames as the chip reads them: each entry of
the batch is written to its register once, in ascending order of address. The batch keeps off the
FIFO data register, where a burst does not advance (R52). -/
def Obligations.ExecuteWritesEachEntryOnceAscending : Prop :=
  ∀ (s : State) (batch : List (Nat × Byte)), (batch.map Prod.fst).Nodup →
    (∀ e ∈ batch, e.1 ≤ 0xFFF ∧ e.1 ≠ s.cfg.addrFifodata) →
    (∀ k, k < batch.length → (s.port.answer k).fails = false) →
    ∃ (t : State) (entries : List (Nat × Byte)), exec (.execute batch) s = .next t ∧ entries.Perm batch ∧
      entries.Pairwise (fun e e' => e.1 < e'.1) ∧
      t.port.chip = s.port.chip ++ entries.map (fun e => .wrote e.1 e.2) ∧ t.ret = .unit

/-- R87, R122: a batch is a map. A list of entries with a key twice is read as the map that holds each
key's last entry (log 19, the model's choice); with distinct keys it is the map itself. -/
def Obligations.ExecuteReadsTheBatchAsAMap : Prop :=
  ∀ batch : List (Nat × Byte), ∃ m : List (Nat × Byte),
    (m.map Prod.fst).Nodup ∧
    (∀ a v, (a, v) ∈ m ↔ batch.reverse.find? (fun e => e.1 == a) = some (a, v)) ∧
    ((batch.map Prod.fst).Nodup → m = batch) ∧
    ∀ s : State, exec (.execute batch) s = exec (.execute m) s ∧
      ∃ t, exec (.execute batch) s = .next t

/-- R122, R120: a batch with a key above 0xFFF raises AddressOutOfRange for such a key, with no
transaction at all. -/
def Obligations.ExecuteValidatesBeforeAnyTransaction : Prop :=
  ∀ (s : State) (batch : List (Nat × Byte)), (∃ e ∈ batch, 0xFFF < e.1) →
    ∃ a, a ∈ batch.map Prod.fst ∧ 0xFFF < a ∧
      exec (.execute batch) s = .next { s with ret := .raised (.addressOutOfRange a) }

/-- R124: READ is one 1-byte burst read; its value is the byte after the header's echo. -/
def Obligations.ReadReturnsTheRegisterByte : Prop :=
  ∀ (s : State) (a : Nat),
    (0xFFF < a → exec (.read a) s = .next { s with ret := .raised (.addressOutOfRange a) }) ∧
    (a ≤ 0xFFF → ∃ t, exec (.read a) s = .next t ∧ t.cfg = s.cfg ∧ t.mgr = s.mgr ∧
      t.requests = s.requests ∧
      ((s.port.answer 0).fails = false →
        t.ret = .byte (s.port.answerByte 0 (headerLen a)) ∧
        t.port.trace = s.port.trace ++ [s.port.readDone 0 a 1]) ∧
      ((s.port.answer 0).fails = true →
        t.ret = .raised .transportError ∧
        t.port.trace = s.port.trace ++ [.xfer (header a .read ++ [0x00#8]) none]))

/-- R125: READ16 is one 2-byte burst read, the first byte the more significant. -/
def Obligations.Read16IsOneBigEndianTransaction : Prop :=
  ∀ (s : State) (a : Nat),
    (0xFFE < a → exec (.read16 a) s = .next { s with ret := .raised (.addressOutOfRange a) }) ∧
    (a ≤ 0xFFE → ∃ t, exec (.read16 a) s = .next t ∧ t.cfg = s.cfg ∧ t.mgr = s.mgr ∧
      t.requests = s.requests ∧
      ((s.port.answer 0).fails = false →
        (∃ v : BitVec 16, t.ret = .word v ∧
          v.toNat = (s.port.answerByte 0 (headerLen a)).toNat * 256 +
            (s.port.answerByte 0 (headerLen a + 1)).toNat) ∧
        t.port.trace = s.port.trace ++ [s.port.readDone 0 a 2]) ∧
      ((s.port.answer 0).fails = true →
        t.ret = .raised .transportError ∧
        t.port.trace = s.port.trace ++ [.xfer (header a .read ++ [0x00#8, 0x00#8]) none]))

/-- R126: the FIFO frame is one write at the FIFO data register; a payload of 255 bytes or more is
refused with PayloadTooLong before any transaction. FIFO_TX_DATA and WRITE_FIFO_DATA agree. -/
def Obligations.FifoWriteFramesThePayload : Prop :=
  ∀ (s : State) (p : List Byte), s.cfg.WellFormed →
    exec (.fifoTxData p) s = exec (.writeFifoData p) s ∧
    (254 < p.length →
      exec (.writeFifoData p) s = .next { s with ret := .raised (.payloadTooLong p.length) }) ∧
    (p.length ≤ 254 → ∃ t, exec (.writeFifoData p) s = .next t ∧ t.cfg = s.cfg ∧ t.mgr = s.mgr ∧
      t.requests = s.requests ∧
      t.port.trace = s.port.trace ++ [.write (header s.cfg.addrFifodata .write ++
        (0xE1#8 :: BitVec.ofNat 8 (p.length + 1) :: s.cfg.txFlags :: p))
        (!(s.port.answer 0).fails)] ∧
      t.ret = (if (s.port.answer 0).fails then .raised .transportError else .unit) ∧
      ((s.port.answer 0).fails = false →
        t.port.chip = s.port.chip ++
          (0xE1#8 :: BitVec.ofNat 8 (p.length + 1) :: s.cfg.txFlags :: p).map
            (fun v => .wrote s.cfg.addrFifodata v)))

/-- R127: READ_FIFO of a count is one burst read at the FIFO data register; of 0, no transaction. -/
def Obligations.ReadFifoReadsCountBytes : Prop :=
  ∀ (s : State) (n : Nat), s.cfg.WellFormed →
    exec (.readFifo 0) s = .next { s with ret := .bytes [] } ∧
    (1 ≤ n → ∃ t, exec (.readFifo n) s = .next t ∧ t.cfg = s.cfg ∧ t.mgr = s.mgr ∧
      t.requests = s.requests ∧
      ((s.port.answer 0).fails = false →
        t.ret = .bytes ((s.port.answerBytes 0 (headerLen s.cfg.addrFifodata + n)).drop
          (headerLen s.cfg.addrFifodata)) ∧
        t.port.trace = s.port.trace ++ [s.port.readDone 0 s.cfg.addrFifodata n]) ∧
      ((s.port.answer 0).fails = true →
        t.ret = .raised .transportError ∧
        t.port.trace = s.port.trace ++
          [.xfer (header s.cfg.addrFifodata .read ++ List.replicate n 0x00#8) none]))

/-- R138: a primitive, a bus row or the decoder called by the host writes no block state, whether it
completes or raises; only the bus and the result change. -/
def Obligations.PrimitivesWriteNoBlockState : Prop :=
  ∀ (i : Instr) (s t : State),
    (i.stream ≠ .host ∨ (∃ b, i = .execute b) ∨ (∃ a, i = .read a) ∨ (∃ a, i = .read16 a) ∨
      (∃ p, i = .writeFifoData p) ∨ (∃ n, i = .readFifo n) ∨ (∃ buf, i = .decodeChunk buf)) →
    exec i s = .next t → t.mgr = s.mgr ∧ t.cfg = s.cfg ∧ t.requests = s.requests

/-- R279: the echo bytes of a response carry nothing: two environments that differ only under the
header give a read headed at `a` the same result. -/
def Obligations.EchoBytesDoNotMatter : Prop :=
  ∀ (i : Instr) (s s' t t' : State) (a n : Nat),
    (i = .read a ∨ i = .read16 a ∨ (i = .readFifo n ∧ a = s.cfg.addrFifodata) ∨
      (∃ b, i = .busRdShort b n ∧ b.toNat = a) ∨ (∃ b, i = .busRdLong b n ∧ b.toNat = a)) →
    s'.cfg = s.cfg → s'.mgr = s.mgr → (s'.port.answer 0).fails = (s.port.answer 0).fails →
    (∀ j, headerLen a ≤ j → s'.port.answerByte 0 j = s.port.answerByte 0 j) →
    exec i s = .next t → exec i s' = .next t' → t'.ret = t.ret

/-! ### The tick -/

/-- R192, R193: an Autoranging tick whose transactions all complete. `k` is how many start writes
precede its two polls. -/
def Obligations.AutorangingTickPollsAndDecides : Prop :=
  ∀ s : State, s.cfg.WellFormed → s.mgr.state = .autoranging →
    let k := if s.mgr.rngIssued then 0 else 2
    let status := s.port.answerByte k (headerLen s.cfg.addrRng)
    let xtal := s.port.answerByte (k + 1) (headerLen s.cfg.addrXtalstatus)
    let polled : Manager := { s.mgr with
      resetRequested := false, rngIssued := true, rngTicks := s.mgr.rngTicks + 1 }
    (∀ j, j < k + 2 → (s.port.answer j).fails = false) →
    ∃ t, exec .tick s = .next t ∧ t.cfg = s.cfg ∧ t.requests = s.requests ∧ t.ret = .unit ∧
      t.port.trace = s.port.trace ++
        (if s.mgr.rngIssued then [] else
          [.write (header s.cfg.addrPwrmode .write ++ [s.cfg.pwrStandby]) true,
           .write (header s.cfg.addrRng .write ++ [s.cfg.rngStartValue]) true]) ++
        [s.port.readDone k s.cfg.addrRng 1, s.port.readDone (k + 1) s.cfg.addrXtalstatus 1] ∧
      t.mgr =
        (if status &&& s.cfg.rngErrMask ≠ 0#8 then
          { polled with state := .faulted, faultCause := .rangingError }
        else if xtal &&& s.cfg.xtalRunMask ≠ 0#8 ∧ status &&& s.cfg.rngBusyMask = 0#8 then
          { polled with state := .idle }
        else if s.cfg.autorangeTimeoutTicks ≤ s.mgr.rngTicks + 1 then
          { polled with state := .faulted, faultCause := .autorangeTimeout }
        else polled)

/-- R248 in Autoranging: transaction `j` of the tick fails. The writes placed before it stand
(`rngIssued` and `rngTicks` once both start writes are done), the later ones do not happen. -/
def Obligations.AutorangingTransportFault : Prop :=
  ∀ (s : State) (j : Nat), s.cfg.WellFormed → s.mgr.state = .autoranging →
    let k := if s.mgr.rngIssued then 0 else 2
    j < k + 2 → (∀ l, l < j → (s.port.answer l).fails = false) → (s.port.answer j).fails = true →
    ∃ t ts, exec .tick s = .next t ∧ t.cfg = s.cfg ∧ t.requests = s.requests ∧
      t.port.trace = s.port.trace ++ ts ∧ ts.length = j + 1 ∧
      t.mgr = { s.mgr with
        resetRequested := false
        state := .faulted
        faultCause := .transport
        rngIssued := s.mgr.rngIssued || decide (2 ≤ j)
        rngTicks := if s.mgr.rngIssued || decide (2 ≤ j) then s.mgr.rngTicks + 1
          else s.mgr.rngTicks }

/-- R195: the Idle tick that selects Transmitting sends the frame, the commit and the power mode, in
this order, and only then removes the inbox's head. -/
def Obligations.IdleEntersTransmitting : Prop :=
  ∀ (s : State) (p : List Byte) (ps : List (List Byte)), s.cfg.WellFormed →
    s.mgr.state = .idle → s.mgr.txEnabled = true → s.mgr.inbox = p :: ps → p.length ≤ 254 →
    let frames : List (List Byte) :=
      [fifoFrame s.cfg p, header s.cfg.addrFifostat .write ++ [s.cfg.fifoCommit],
       header s.cfg.addrPwrmode .write ++ [s.cfg.pwrFulltx]]
    ((∀ j, j < 3 → (s.port.answer j).fails = false) →
      ∃ t, exec .tick s = .next t ∧ t.cfg = s.cfg ∧ t.requests = s.requests ∧
        t.port.trace = s.port.trace ++ frames.map (fun f => .write f true) ∧
        t.mgr = { s.mgr with resetRequested := false, state := .transmitting, inbox := ps }) ∧
    (∀ j, j < 3 → (∀ l, l < j → (s.port.answer l).fails = false) →
      (s.port.answer j).fails = true →
      ∃ t, exec .tick s = .next t ∧ t.cfg = s.cfg ∧ t.requests = s.requests ∧
        t.port.trace = s.port.trace ++ (frames.take j).map (fun f => .write f true) ++
          ((frames.drop j).take 1).map (fun f => .write f false) ∧
        t.mgr = { s.mgr with
          resetRequested := false, state := .faulted, faultCause := .transport })

/-- R196: the Idle tick that selects Receiving writes the power mode and clears `rxBuf`. -/
def Obligations.IdleEntersReceiving : Prop :=
  ∀ s : State, s.cfg.WellFormed → s.mgr.state = .idle →
    (s.mgr.txEnabled = false ∨ s.mgr.inbox = []) → s.mgr.rxEnabled = true →
    ∃ t, exec .tick s = .next t ∧ t.cfg = s.cfg ∧ t.requests = s.requests ∧
      t.port.trace = s.port.trace ++
        [.write (header s.cfg.addrPwrmode .write ++ [s.cfg.pwrFullrx])
          (!(s.port.answer 0).fails)] ∧
      t.mgr = (if (s.port.answer 0).fails then
          { s.mgr with resetRequested := false, state := .faulted, faultCause := .transport }
        else { s.mgr with resetRequested := false, state := .receiving, rxBuf := [] })

/-- R197, R223: an Idle tick that selects neither state does nothing but clear
`reset_requested`, and performs no transaction. -/
def Obligations.IdleTickWithoutIntentIsSilent : Prop :=
  ∀ s : State, s.mgr.state = .idle → (s.mgr.txEnabled = false ∨ s.mgr.inbox = []) →
    s.mgr.rxEnabled = false →
    exec .tick s =
      .next { s with mgr := { s.mgr with resetRequested := false }, ret := .unit }

/-- R219: with both intents and a queued payload the next state is Transmitting, or Faulted with
TRANSPORT, and never Receiving. -/
def Obligations.TransmitHasPriority : Prop :=
  ∀ s t : State, s.mgr.state = .idle → s.mgr.txEnabled = true → s.mgr.rxEnabled = true →
    s.mgr.inbox ≠ [] → exec .tick s = .next t →
    t.mgr.state = .transmitting ∨ (t.mgr.state = .faulted ∧ t.mgr.faultCause = .transport)

/-- R198: a Transmitting tick whose transactions all complete: the fault bit wins over
transmit-complete, and then TXDONE is not read. -/
def Obligations.TransmittingTickPolls : Prop :=
  ∀ s : State, s.cfg.WellFormed → s.mgr.state = .transmitting →
    let fault := s.port.answerByte 0 (headerLen s.cfg.addrFault) &&& s.cfg.faultMask ≠ 0#8
    let done := s.port.answerByte 1 (headerLen s.cfg.addrTxdone) &&& s.cfg.txdoneMask =
      s.cfg.txdoneValue
    let cleared : Manager := { s.mgr with resetRequested := false }
    (s.port.answer 0).fails = false → (¬ fault → (s.port.answer 1).fails = false) →
    (¬ fault → done → (s.port.answer 2).fails = false) →
    ∃ t, exec .tick s = .next t ∧ t.cfg = s.cfg ∧ t.requests = s.requests ∧
      (fault →
        t.mgr = { cleared with state := .faulted, faultCause := .txFault } ∧
        t.port.trace = s.port.trace ++ [s.port.readDone 0 s.cfg.addrFault 1]) ∧
      (¬ fault → done →
        t.mgr = { cleared with state := .idle } ∧
        t.port.trace = s.port.trace ++ [s.port.readDone 0 s.cfg.addrFault 1,
          s.port.readDone 1 s.cfg.addrTxdone 1,
          .write (header s.cfg.addrPwrmode .write ++ [s.cfg.pwrStandby]) true]) ∧
      (¬ fault → ¬ done →
        t.mgr = cleared ∧
        t.port.trace = s.port.trace ++ [s.port.readDone 0 s.cfg.addrFault 1,
          s.port.readDone 1 s.cfg.addrTxdone 1])

/-- R199: the exits of a Receiving tick before the FIFO is read: the fault bit, then `rx_enabled`
cleared, then the FIFO count above the depth (R250). -/
def Obligations.ReceivingTickExits : Prop :=
  ∀ s : State, s.cfg.WellFormed → s.mgr.state = .receiving → (s.port.answer 0).fails = false →
    let fault := s.port.answerByte 0 (headerLen s.cfg.addrFault) &&& s.cfg.faultMask ≠ 0#8
    let count := (s.port.answerByte 1 (headerLen s.cfg.addrFifocount)).toNat * 256 +
      (s.port.answerByte 1 (headerLen s.cfg.addrFifocount + 1)).toNat
    let cleared : Manager := { s.mgr with resetRequested := false }
    (fault → ∃ t, exec .tick s = .next t ∧
      t.mgr = { cleared with state := .faulted, faultCause := .rxFault } ∧
      t.port.trace = s.port.trace ++ [s.port.readDone 0 s.cfg.addrFault 1]) ∧
    (¬ fault → s.mgr.rxEnabled = false → (s.port.answer 1).fails = false →
      ∃ t, exec .tick s = .next t ∧ t.mgr = { cleared with state := .idle } ∧
        t.port.trace = s.port.trace ++ [s.port.readDone 0 s.cfg.addrFault 1,
          .write (header s.cfg.addrPwrmode .write ++ [s.cfg.pwrStandby]) true]) ∧
    (¬ fault → s.mgr.rxEnabled = true → (s.port.answer 1).fails = false →
      s.cfg.fifoDepth < count →
      ∃ t, exec .tick s = .next t ∧
        t.mgr = { cleared with state := .faulted, faultCause := .fifoCount } ∧
        t.port.trace = s.port.trace ++ [s.port.readDone 0 s.cfg.addrFault 1,
          s.port.readDone 1 s.cfg.addrFifocount 2])

/-- R199, R249: a Receiving tick that reads the FIFO: one burst of exactly the count (none for a
count of 0), its data bytes appended to `rxBuf` and drained; a bad class faults, what was decoded
before it stays emitted, and `rxBuf` keeps the rest. -/
def Obligations.ReceivingTickDrains : Prop :=
  ∀ s : State, s.cfg.WellFormed → s.mgr.state = .receiving → s.mgr.rxEnabled = true →
    let h := headerLen s.cfg.addrFifodata
    let n := (s.port.answerByte 1 (headerLen s.cfg.addrFifocount)).toNat * 256 +
      (s.port.answerByte 1 (headerLen s.cfg.addrFifocount + 1)).toNat
    let appended : Manager := { s.mgr with
      resetRequested := false
      rxBuf := s.mgr.rxBuf ++ if n = 0 then [] else (s.port.answerBytes 2 (h + n)).drop h }
    (s.port.answer 0).fails = false → (s.port.answer 1).fails = false →
    (n ≠ 0 → (s.port.answer 2).fails = false) →
    s.port.answerByte 0 (headerLen s.cfg.addrFault) &&& s.cfg.faultMask = 0#8 →
    n ≤ s.cfg.fifoDepth →
    ∃ t, exec .tick s = .next t ∧ t.cfg = s.cfg ∧ t.requests = s.requests ∧
      t.port.trace = s.port.trace ++ [s.port.readDone 0 s.cfg.addrFault 1,
        s.port.readDone 1 s.cfg.addrFifocount 2] ++
        (if n = 0 then [] else [s.port.readDone 2 s.cfg.addrFifodata n]) ∧
      ((drain s.cfg appended).2 = none → t.mgr = (drain s.cfg appended).1) ∧
      (∀ tag, (drain s.cfg appended).2 = some tag →
        t.mgr = { (drain s.cfg appended).1 with
          state := .faulted, faultCause := .decodeBadclass })

/-- R201, R252, R253: a Faulted tick performs no transaction; it does the fault-reset if a reset was
requested, and else changes nothing. -/
def Obligations.FaultedTickWaitsForTheReset : Prop :=
  ∀ s : State, s.mgr.state = .faulted →
    exec .tick s = .next { s with
      ret := .unit
      mgr := if s.mgr.resetRequested then
          { s.mgr with
            resetRequested := false, state := .autoranging, rngIssued := false, rngTicks := 0,
            rxBuf := [], faultCause := .none }
        else s.mgr }

/-- R191, R190: every tick completes, returns nothing, and leaves `reset_requested` clear; outside
Faulted it does the same whether or not a reset was requested. It never writes the two intents, the
configuration or the host's requests. -/
def Obligations.EveryTickClearsTheResetRequest : Prop :=
  ∀ s : State, ∃ t, exec .tick s = .next t ∧ t.mgr.resetRequested = false ∧ t.ret = .unit ∧
    t.mgr.txEnabled = s.mgr.txEnabled ∧ t.mgr.rxEnabled = s.mgr.rxEnabled ∧ t.cfg = s.cfg ∧
    t.requests = s.requests ∧
    (s.mgr.state ≠ .faulted → ∀ b : Bool,
      exec .tick { s with mgr := { s.mgr with resetRequested := b } } = .next t)

/-- R224: the transition relation of a tick. Every pair of states not listed is impossible, and the
listed conditions on the block's own state hold. -/
def Obligations.TickFollowsTheTransitionTable : Prop :=
  ∀ s t : State, s.cfg.WellFormed → exec .tick s = .next t →
    match s.mgr.state, t.mgr.state with
    | .autoranging, .autoranging => t.mgr.rngTicks < s.cfg.autorangeTimeoutTicks
    | .autoranging, .idle => t.mgr.rngIssued = true
    | .autoranging, .faulted =>
      t.mgr.faultCause = .rangingError ∨ t.mgr.faultCause = .transport ∨
      (t.mgr.faultCause = .autorangeTimeout ∧ s.cfg.autorangeTimeoutTicks ≤ t.mgr.rngTicks)
    | .idle, .transmitting =>
      s.mgr.txEnabled = true ∧ ∃ p, s.mgr.inbox = p :: t.mgr.inbox
    | .idle, .receiving =>
      (s.mgr.txEnabled = false ∨ s.mgr.inbox = []) ∧ s.mgr.rxEnabled = true ∧ t.mgr.rxBuf = []
    | .idle, .idle =>
      (s.mgr.txEnabled = false ∨ s.mgr.inbox = []) ∧ s.mgr.rxEnabled = false
    | .idle, .faulted => t.mgr.faultCause = .transport
    | .transmitting, .transmitting => True
    | .transmitting, .idle => True
    | .transmitting, .faulted => t.mgr.faultCause = .txFault ∨ t.mgr.faultCause = .transport
    | .receiving, .receiving => s.mgr.rxEnabled = true
    | .receiving, .idle => s.mgr.rxEnabled = false
    | .receiving, .faulted =>
      t.mgr.faultCause = .rxFault ∨ t.mgr.faultCause = .fifoCount ∨
      t.mgr.faultCause = .decodeBadclass ∨ t.mgr.faultCause = .transport
    | .faulted, .autoranging => s.mgr.resetRequested = true
    | .faulted, .faulted => s.mgr.resetRequested = false
    | _, _ => False

/-- R216: how many transactions a tick performs, by the state it starts in. -/
def Obligations.TickTransactionsAreBounded : Prop :=
  ∀ s t : State, s.cfg.WellFormed → exec .tick s = .next t →
    ∃ ts, t.port.trace = s.port.trace ++ ts ∧
      ts.length ≤ (match s.mgr.state with
        | .faulted => 0
        | .idle => if s.mgr.txEnabled = true ∧ s.mgr.inbox ≠ [] then 3
          else if s.mgr.rxEnabled then 1 else 0
        | .autoranging => if s.mgr.rngIssued then 2 else 4
        | .transmitting => 3
        | .receiving => if s.mgr.rxEnabled then 3 else 2)

/-- R248, R256: in a tick a failed transaction is the last one and faults with TRANSPORT, and a tick
that faults with TRANSPORT ends at a failed transaction. -/
def Obligations.TransportFaultsArePrecise : Prop :=
  ∀ s t : State, s.cfg.WellFormed → s.mgr.InboxFramable → exec .tick s = .next t →
    ∃ ts, t.port.trace = s.port.trace ++ ts ∧
      (∀ x ∈ ts, x.failed = true →
        ts.getLast? = some x ∧ t.mgr.state = .faulted ∧ t.mgr.faultCause = .transport) ∧
      (s.mgr.state ≠ .faulted → t.mgr.state = .faulted → t.mgr.faultCause = .transport →
        ∃ x, ts.getLast? = some x ∧ x.failed = true)

/-- R248 outside Autoranging: a tick that ends in a transport fault leaves everything else of the
block as it was. The inbox's head is not removed, `rxBuf` is neither cleared nor appended to. -/
def Obligations.TransportFaultWritesNothingElse : Prop :=
  ∀ s t : State, s.mgr.state ≠ .autoranging → s.mgr.state ≠ .faulted → exec .tick s = .next t →
    t.mgr.state = .faulted → t.mgr.faultCause = .transport →
    t.mgr = { s.mgr with resetRequested := false, state := .faulted, faultCause := .transport }

/-- R246: Faulted entry keeps the inbox, both intents and what the streams held; only a bad class
has emitted chunks and taken their bytes from `rxBuf`'s content before it. -/
def Obligations.FaultedEntryKeepsTheRest : Prop :=
  ∀ s t : State, s.cfg.WellFormed → s.mgr.state ≠ .faulted → exec .tick s = .next t →
    t.mgr.state = .faulted →
    t.mgr.inbox = s.mgr.inbox ∧ t.mgr.txEnabled = s.mgr.txEnabled ∧
    t.mgr.rxEnabled = s.mgr.rxEnabled ∧ s.mgr.rxData <+: t.mgr.rxData ∧ s.mgr.tlm <+: t.mgr.tlm ∧
    t.mgr.faultCause ≠ .none ∧
    (t.mgr.faultCause ≠ .decodeBadclass →
      t.mgr.rxBuf = s.mgr.rxBuf ∧ t.mgr.rxData = s.mgr.rxData ∧ t.mgr.tlm = s.mgr.tlm)

/-- R220: `tx_enabled` is read in Idle alone, and `rx_enabled` in Idle and Receiving alone; in Idle a
cleared `tx_enabled` prevents the next stay in Transmitting. -/
def Obligations.IntentsAreReadOnlyWhereStated : Prop :=
  ∀ (s t t' : State) (b : Bool),
    (s.mgr.state ≠ .idle → exec .tick s = .next t →
      exec .tick { s with mgr := { s.mgr with txEnabled := b } } = .next t' →
      t' = { t with mgr := { t.mgr with txEnabled := b } }) ∧
    (s.mgr.state ≠ .idle → s.mgr.state ≠ .receiving → exec .tick s = .next t →
      exec .tick { s with mgr := { s.mgr with rxEnabled := b } } = .next t' →
      t' = { t with mgr := { t.mgr with rxEnabled := b } }) ∧
    (s.mgr.state = .idle → s.mgr.txEnabled = false → exec .tick s = .next t →
      t.mgr.state ≠ .transmitting)

/-! ### The host operations -/

/-- R207, R208, R209: each flag operation writes its flag and nothing else of the block. -/
def Obligations.FlagOperationsSetTheirFlag : Prop :=
  ∀ (s : State) (b : Bool),
    exec (.setTx b) s = .next { s with mgr := { s.mgr with txEnabled := b }, ret := .unit } ∧
    exec (.setRx b) s = .next { s with mgr := { s.mgr with rxEnabled := b }, ret := .unit } ∧
    exec (.setReset b) s =
      .next { s with mgr := { s.mgr with resetRequested := b }, ret := .unit }

/-- R210: PUSH appends a payload of at most 254 bytes at the inbox's tail; a longer one raises
PayloadTooLong and leaves the inbox. -/
def Obligations.PushAppendsOrRaises : Prop :=
  ∀ (s : State) (p : List Byte),
    (p.length ≤ 254 → exec (.push p) s =
      .next { s with mgr := { s.mgr with inbox := s.mgr.inbox ++ [p] }, ret := .unit }) ∧
    (255 ≤ p.length → exec (.push p) s =
      .next { s with ret := .raised (.payloadTooLong p.length) })

/-- R213, R214: each take operation removes and returns the oldest entry of its stream, or returns
none from an empty one and changes nothing. -/
def Obligations.TakeOperationsReturnTheOldest : Prop :=
  ∀ s : State,
    (s.mgr.rxData = [] → exec .takeRxdata s = .next { s with ret := .payload none }) ∧
    (∀ p ps, s.mgr.rxData = p :: ps → exec .takeRxdata s =
      .next { s with mgr := { s.mgr with rxData := ps }, ret := .payload (some p) }) ∧
    (s.mgr.tlm = [] → exec .takeTlm s = .next { s with ret := .telemetry none }) ∧
    (∀ v vs, s.mgr.tlm = v :: vs → exec .takeTlm s =
      .next { s with mgr := { s.mgr with tlm := vs }, ret := .telemetry (some v) })

/-- R211, R212, R215 with the codes of R22 and R245: the queries return their value and change
nothing of the block. -/
def Obligations.QueriesReturnTheirCode : Prop :=
  ∀ s : State,
    exec .isFaulted s = .next { s with ret := .flag (decide (s.mgr.state = .faulted)) } ∧
    exec .getState s = .next { s with ret := .code (match s.mgr.state with
      | .autoranging => 0 | .idle => 1 | .transmitting => 2 | .receiving => 3 | .faulted => 4) } ∧
    exec .getFaultCause s = .next { s with ret := .code (match s.mgr.faultCause with
      | .none => 0 | .rangingError => 1 | .autorangeTimeout => 2 | .txFault => 3 | .rxFault => 4
      | .transport => 5 | .decodeBadclass => 6 | .fifoCount => 7) }

/-- R23, R257: only a tick writes the block's own elements; every other operation leaves them, may
only append to the inbox, and may only take from the front of the streams. -/
def Obligations.OnlyTicksWriteBlockElements : Prop :=
  ∀ (i : Instr) (s t : State), i ≠ .tick → exec i s = .next t →
    t.mgr.state = s.mgr.state ∧ t.mgr.rngIssued = s.mgr.rngIssued ∧
    t.mgr.rngTicks = s.mgr.rngTicks ∧ t.mgr.rxBuf = s.mgr.rxBuf ∧
    t.mgr.faultCause = s.mgr.faultCause ∧ s.mgr.inbox <+: t.mgr.inbox ∧
    t.mgr.rxData <:+ s.mgr.rxData ∧ t.mgr.tlm <:+ s.mgr.tlm

/-! ### The machine -/

/-- Every step from a safe state leads to a safe state: the configuration stays well formed, queued
payloads can be framed, the cause matches the state, the stay counter respects the timeout, the
decode buffer holds at most one incomplete chunk and never outgrows its capacity, the telemetry
stream holds no Data chunk. -/
def Obligations.SafeStatesStaySafe : Prop :=
  ∀ s t : State, s.Safe → step s = .next t → t.Safe

/-- The state after reset is safe, and so is construction with any well-formed `CFG`. -/
def Obligations.ConstructionIsSafe : Prop :=
  State.reset.Safe ∧ ∀ c : Cfg, c.WellFormed → (State.construct c).Safe

/-- R41, R270: what construction leaves, element by element; no transaction has taken place, and
the first step is the first TICK (that a step without a request is a TICK: log 4). -/
def Obligations.ConstructionSetsTheResetValues : Prop :=
  ∀ c : Cfg,
    (State.construct c).cfg = c ∧
    (State.construct c).mgr =
      { state := .autoranging, txEnabled := false, rxEnabled := false, resetRequested := false,
        inbox := [], rxBuf := [], rxData := [], tlm := [], rngIssued := false, rngTicks := 0,
        faultCause := .none } ∧
    (State.construct c).port.trace = [] ∧ (State.construct c).port.chip = [] ∧
    step (State.construct c) = exec .tick (State.construct c)

/-- R35, R61, R133 to R136, R242: no step writes the configuration; the bus record only grows, and the
record of accesses at the chip (the model's own, log 6, 18) is read off the transactions, each as
the chip reads its frame. -/
def Obligations.StepsKeepTheConfigurationAndTheRecord : Prop :=
  ∀ s t : State, step s = .next t →
    t.cfg = s.cfg ∧
    ∃ ts, t.port.trace = s.port.trace ++ ts ∧
      t.port.chip = s.port.chip ++ ts.flatMap (fun x => x.accesses s.cfg)

/-- A step runs the decoded instruction: the request in front is taken off the list and its
instruction executed; of a chunk stream, the bytes after the chunk stay in front. Bytes that hold no
complete chunk give NeedMore, bytes that are no frame are refused (the request list is the model's
own: log 4, 8, 16). -/
def Obligations.StepRunsTheDecodedInstruction : Prop :=
  ∀ (s : State) (more : List Request),
    (s.requests = [] → step s = exec .tick s) ∧
    (∀ i, s.requests = .call i :: more → step s = exec i { s with requests := more }) ∧
    (∀ bs i, s.requests = .frame bs :: more → decodeFrame s.cfg bs = .ok i →
      step s = exec i { s with requests := more }) ∧
    (∀ bs e, s.requests = .frame bs :: more → decodeFrame s.cfg bs = .error e →
      step s = .refused (.undecodableFrame e)) ∧
    (∀ bs i rest, s.requests = .chunk bs :: more → fetchChunk s.cfg bs = .instr i rest →
      step s = exec i { s with requests :=
        if rest = [] ∨ bs.length ≤ rest.length then more else .chunk rest :: more }) ∧
    (∀ bs, s.requests = .chunk bs :: more → fetchChunk s.cfg bs = .needMore →
      step s = .next { s with requests := more, ret := .decoded .needMore })

/-- Nothing stops the machine with a fault, and a step is refused only for a request that stands for
no operation: bytes that are no frame, or a call of one of the four frame forms whose header cannot
carry its address or that has no data byte (log 8, 17, the model's choice). -/
def Obligations.StepsStopOnlyOnBadRequests : Prop :=
  ∀ s : State,
    (∃ t, step s = .next t) ∨
    (∃ bs more e, s.requests = .frame bs :: more ∧ decodeFrame s.cfg bs = .error e ∧
      step s = .refused (.undecodableFrame e)) ∨
    (∃ i more, s.requests = .call i :: more ∧ i.wellFormed s.cfg = false ∧
      ((∃ a data, i = .busWrShort a data) ∨ (∃ a data, i = .busWrLong a data) ∨
        (∃ a n, i = .busRdShort a n) ∨ (∃ a n, i = .busRdLong a n)) ∧
      (step s = .refused .headerMismatch ∨ step s = .refused .headerOnlyFrame))
end

