-- ==== Sys2Proof/Laws/State.lean ====
section
/-! SUPPORT. One lemma per field per update of the state's records: no later proof unfolds one. -/

namespace Sys2Proof.Machine

/-! ### `State.returning` -/

section

variable (s : State) (r : Result)

@[simp] theorem State.returning_cfg : (s.returning r).cfg = s.cfg := rfl

@[simp] theorem State.returning_mgr : (s.returning r).mgr = s.mgr := rfl

@[simp] theorem State.returning_port : (s.returning r).port = s.port := rfl

@[simp] theorem State.returning_requests : (s.returning r).requests = s.requests := rfl

@[simp] theorem State.returning_ret : (s.returning r).ret = r := rfl

end

/-! ### `State.withMgr` -/

section

variable (s : State) (m : Manager) (r : Result)

@[simp] theorem State.withMgr_cfg : (s.withMgr m r).cfg = s.cfg := rfl

@[simp] theorem State.withMgr_mgr : (s.withMgr m r).mgr = m := rfl

@[simp] theorem State.withMgr_port : (s.withMgr m r).port = s.port := rfl

@[simp] theorem State.withMgr_requests : (s.withMgr m r).requests = s.requests := rfl

@[simp] theorem State.withMgr_ret : (s.withMgr m r).ret = r := rfl

end

/-! ### `State.decodes` -/

section

variable (s : State) (v : Chunk)

@[simp] theorem State.decodes_cfg : (s.decodes v).cfg = s.cfg := rfl

@[simp] theorem State.decodes_mgr : (s.decodes v).mgr = s.mgr := rfl

@[simp] theorem State.decodes_port : (s.decodes v).port = s.port := rfl

@[simp] theorem State.decodes_requests : (s.decodes v).requests = s.requests := rfl

@[simp] theorem State.decodes_ret : (s.decodes v).ret = .decoded (.chunk v []) := rfl

end

/-! ### `State.decodesBytes` -/

section

variable (s : State) (bs : List Byte)

@[simp] theorem State.decodesBytes_cfg : (s.decodesBytes bs).cfg = s.cfg := rfl

@[simp] theorem State.decodesBytes_mgr : (s.decodesBytes bs).mgr = s.mgr := rfl

@[simp] theorem State.decodesBytes_port : (s.decodesBytes bs).port = s.port := rfl

@[simp] theorem State.decodesBytes_requests : (s.decodesBytes bs).requests = s.requests := rfl

@[simp] theorem State.decodesBytes_ret :
    (s.decodesBytes bs).ret = .decoded (decodeChunk s.cfg bs) := rfl

end

/-! ### `State.hostCall` -/

section

variable {α : Type} (s : State) (r : Prim α) (give : α → Result)

@[simp] theorem State.hostCall_cfg : (s.hostCall r give).cfg = s.cfg := rfl

@[simp] theorem State.hostCall_mgr : (s.hostCall r give).mgr = s.mgr := rfl

@[simp] theorem State.hostCall_port : (s.hostCall r give).port = r.2 := rfl

@[simp] theorem State.hostCall_requests : (s.hostCall r give).requests = s.requests := rfl

end

@[simp] theorem State.hostCall_ret_ok {α : Type} (s : State) (v : α) (p : Port) (give : α → Result) :
    (s.hostCall (.ok v, p) give).ret = give v := rfl

@[simp] theorem State.hostCall_ret_error {α : Type} (s : State) (e : Error) (p : Port)
    (give : α → Result) : (s.hostCall (.error e, p) give).ret = .raised e := rfl

/-! ### `State.construct` -/

section

variable (c : Cfg)

@[simp] theorem State.construct_cfg : (State.construct c).cfg = c := rfl

@[simp] theorem State.construct_mgr : (State.construct c).mgr = Manager.initial := rfl

@[simp] theorem State.construct_port : (State.construct c).port = Port.initial := rfl

@[simp] theorem State.construct_requests : (State.construct c).requests = [] := rfl

@[simp] theorem State.construct_ret : (State.construct c).ret = .unit := rfl

end

/-! ### `State.withFetchWord` -/

section

variable (s : State) (nbits w : Nat)

@[simp] theorem State.withFetchWord_cfg : (s.withFetchWord nbits w).cfg = s.cfg := rfl

@[simp] theorem State.withFetchWord_mgr : (s.withFetchWord nbits w).mgr = s.mgr := rfl

@[simp] theorem State.withFetchWord_port : (s.withFetchWord nbits w).port = s.port := rfl

@[simp] theorem State.withFetchWord_requests : (s.withFetchWord nbits w).requests = tableRequest s.cfg nbits w :: s.requests := rfl

@[simp] theorem State.withFetchWord_ret : (s.withFetchWord nbits w).ret = s.ret := rfl

end

/-! ### `Port.record` -/

section

variable (p : Port) (t : Transaction) (as : List Access)

@[simp] theorem Port.record_env : (p.record t as).env = p.env.tail := rfl

@[simp] theorem Port.record_drawn : (p.record t as).drawn = p.drawn + 1 := rfl

@[simp] theorem Port.record_trace : (p.record t as).trace = p.trace ++ [t] := rfl

@[simp] theorem Port.record_chip : (p.record t as).chip = p.chip ++ as := rfl

end

/-! ### `Manager.enterFaulted` -/

section

variable (m : Manager) (f : FaultCause)

@[simp] theorem Manager.enterFaulted_state : (m.enterFaulted f).state = .faulted := rfl

@[simp] theorem Manager.enterFaulted_txEnabled : (m.enterFaulted f).txEnabled = m.txEnabled := rfl

@[simp] theorem Manager.enterFaulted_rxEnabled : (m.enterFaulted f).rxEnabled = m.rxEnabled := rfl

@[simp] theorem Manager.enterFaulted_resetRequested : (m.enterFaulted f).resetRequested = m.resetRequested := rfl

@[simp] theorem Manager.enterFaulted_inbox : (m.enterFaulted f).inbox = m.inbox := rfl

@[simp] theorem Manager.enterFaulted_rxBuf : (m.enterFaulted f).rxBuf = m.rxBuf := rfl

@[simp] theorem Manager.enterFaulted_rxData : (m.enterFaulted f).rxData = m.rxData := rfl

@[simp] theorem Manager.enterFaulted_tlm : (m.enterFaulted f).tlm = m.tlm := rfl

@[simp] theorem Manager.enterFaulted_rngIssued : (m.enterFaulted f).rngIssued = m.rngIssued := rfl

@[simp] theorem Manager.enterFaulted_rngTicks : (m.enterFaulted f).rngTicks = m.rngTicks := rfl

@[simp] theorem Manager.enterFaulted_faultCause : (m.enterFaulted f).faultCause = f := rfl

end

/-! ### `Manager.faultReset` -/

section

variable (m : Manager)

@[simp] theorem Manager.faultReset_state : (m.faultReset).state = .autoranging := rfl

@[simp] theorem Manager.faultReset_txEnabled : (m.faultReset).txEnabled = m.txEnabled := rfl

@[simp] theorem Manager.faultReset_rxEnabled : (m.faultReset).rxEnabled = m.rxEnabled := rfl

@[simp] theorem Manager.faultReset_resetRequested : (m.faultReset).resetRequested = m.resetRequested := rfl

@[simp] theorem Manager.faultReset_inbox : (m.faultReset).inbox = m.inbox := rfl

@[simp] theorem Manager.faultReset_rxBuf : (m.faultReset).rxBuf = [] := rfl

@[simp] theorem Manager.faultReset_rxData : (m.faultReset).rxData = m.rxData := rfl

@[simp] theorem Manager.faultReset_tlm : (m.faultReset).tlm = m.tlm := rfl

@[simp] theorem Manager.faultReset_rngIssued : (m.faultReset).rngIssued = false := rfl

@[simp] theorem Manager.faultReset_rngTicks : (m.faultReset).rngTicks = 0 := rfl

@[simp] theorem Manager.faultReset_faultCause : (m.faultReset).faultCause = .none := rfl

end

/-! ### `Manager.emitData` -/

section

variable (m : Manager) (p : List Byte)

@[simp] theorem Manager.emitData_state : (m.emitData p).state = m.state := rfl

@[simp] theorem Manager.emitData_txEnabled : (m.emitData p).txEnabled = m.txEnabled := rfl

@[simp] theorem Manager.emitData_rxEnabled : (m.emitData p).rxEnabled = m.rxEnabled := rfl

@[simp] theorem Manager.emitData_resetRequested : (m.emitData p).resetRequested = m.resetRequested := rfl

@[simp] theorem Manager.emitData_inbox : (m.emitData p).inbox = m.inbox := rfl

@[simp] theorem Manager.emitData_rxBuf : (m.emitData p).rxBuf = m.rxBuf := rfl

@[simp] theorem Manager.emitData_rxData : (m.emitData p).rxData = m.rxData ++ [p] := rfl

@[simp] theorem Manager.emitData_tlm : (m.emitData p).tlm = m.tlm := rfl

@[simp] theorem Manager.emitData_rngIssued : (m.emitData p).rngIssued = m.rngIssued := rfl

@[simp] theorem Manager.emitData_rngTicks : (m.emitData p).rngTicks = m.rngTicks := rfl

@[simp] theorem Manager.emitData_faultCause : (m.emitData p).faultCause = m.faultCause := rfl

end

/-! ### `Manager.emitTlm` -/

section

variable (m : Manager) (v : Chunk)

@[simp] theorem Manager.emitTlm_state : (m.emitTlm v).state = m.state := rfl

@[simp] theorem Manager.emitTlm_txEnabled : (m.emitTlm v).txEnabled = m.txEnabled := rfl

@[simp] theorem Manager.emitTlm_rxEnabled : (m.emitTlm v).rxEnabled = m.rxEnabled := rfl

@[simp] theorem Manager.emitTlm_resetRequested : (m.emitTlm v).resetRequested = m.resetRequested := rfl

@[simp] theorem Manager.emitTlm_inbox : (m.emitTlm v).inbox = m.inbox := rfl

@[simp] theorem Manager.emitTlm_rxBuf : (m.emitTlm v).rxBuf = m.rxBuf := rfl

@[simp] theorem Manager.emitTlm_rxData : (m.emitTlm v).rxData = m.rxData := rfl

@[simp] theorem Manager.emitTlm_tlm : (m.emitTlm v).tlm = m.tlm ++ [v] := rfl

@[simp] theorem Manager.emitTlm_rngIssued : (m.emitTlm v).rngIssued = m.rngIssued := rfl

@[simp] theorem Manager.emitTlm_rngTicks : (m.emitTlm v).rngTicks = m.rngTicks := rfl

@[simp] theorem Manager.emitTlm_faultCause : (m.emitTlm v).faultCause = m.faultCause := rfl

end

end Sys2Proof.Machine
end

