-- ==== Sys2Proof/Laws/Transport.lean ====
section
/-! SUPPORT. What the transport and the register primitives over it can do, each said once
(20_memory.md R54, R55; 40_bus_primitives.md R121 to R127). -/

namespace Sys2Proof.Machine

/-! ### Answers and responses -/

@[simp] theorem Port.nextDraw_of_env {p : Port} {d : Draw} {ds : List Draw} (h : p.env = d :: ds) :
    p.nextDraw = d := by simp [Port.nextDraw, h]

@[simp] theorem Port.responseFrom_length (p : Port) (j n : Nat) :
    (p.responseFrom j n).length = n := by
  induction n generalizing j with
  | zero => rfl
  | succ n ih => simp [Port.responseFrom, ih]

@[simp] theorem Port.response_length (p : Port) (n : Nat) : (p.response n).length = n :=
  p.responseFrom_length 0 n

theorem Port.responseFrom_drop (p : Port) (k j n : Nat) :
    (p.responseFrom j n).drop k = p.responseFrom (j + k) (n - k) := by
  induction k generalizing j n with
  | zero => simp
  | succ k ih =>
    cases n with
    | zero => simp [Port.responseFrom]
    | succ n => simp [Port.responseFrom, ih, Nat.add_comm, Nat.add_left_comm]

theorem Port.response_drop (p : Port) (k n : Nat) :
    (p.response n).drop k = p.responseFrom k (n - k) := by
  simp [Port.response, p.responseFrom_drop]

/-! ### Headers -/

theorem header_length (a : Nat) (d : Dir) : (header a d).length = headerLen a := by
  unfold header headerLen
  split <;> rfl

theorem header_ne_nil (a : Nat) (d : Dir) : header a d ≠ [] := by
  unfold header
  split <;> simp

/-! ### One transaction -/

theorem busWrite_ok {c : Cfg} {out : List Byte} {p : Port} (h : p.nextDraw.fails = false) :
    p.busWrite c out = (.ok (), p.record (.write out true) (frameAccesses c out [])) := by
  simp [Port.busWrite, h]

theorem busWrite_fails {c : Cfg} {out : List Byte} {p : Port} (h : p.nextDraw.fails = true) :
    p.busWrite c out = (.error .transportError, p.record (.write out false) [.unknownEffect]) := by
  simp [Port.busWrite, h]

theorem busXfer_ok {c : Cfg} {out : List Byte} {p : Port} (h : p.nextDraw.fails = false) :
    p.busXfer c out = (.ok (p.response out.length),
      p.record (.xfer out (some (p.response out.length)))
        (frameAccesses c out (p.response out.length))) := by
  simp [Port.busXfer, h]

theorem busXfer_fails {c : Cfg} {out : List Byte} {p : Port} (h : p.nextDraw.fails = true) :
    p.busXfer c out = (.error .transportError, p.record (.xfer out none) [.unknownEffect]) := by
  simp [Port.busXfer, h]

/-! ### Register access -/

/-- The bytes of a burst read frame (30_encoding.md R85). -/
abbrev readOut (a n : Nat) : List Byte := header a .read ++ List.replicate n 0x00#8

@[simp] theorem readOut_length (a n : Nat) : (readOut a n).length = headerLen a + n := by
  simp [header_length]

theorem memWrite_out {c : Cfg} {a : Nat} {vs : List Byte} (p : Port)
    (h : inSpace c a vs.length = false) :
    memWrite c a vs p = (.error (.addressOutOfRange a), p) := by
  simp [memWrite, h]

theorem memWrite_in {c : Cfg} {a : Nat} {vs : List Byte} (p : Port)
    (h : inSpace c a vs.length = true) :
    memWrite c a vs p = p.busWrite c (header a .write ++ vs) := by
  simp [memWrite, h]

theorem memRead_out {c : Cfg} {a n : Nat} (p : Port) (h : inSpace c a n = false) :
    memRead c a n p = (.error (.addressOutOfRange a), p) := by
  simp [memRead, h]

theorem memRead_ok {c : Cfg} {a n : Nat} {p : Port} (h : inSpace c a n = true)
    (hf : p.nextDraw.fails = false) :
    memRead c a n p = (.ok (p.responseFrom (headerLen a) n),
      p.record (.xfer (readOut a n) (some (p.response (headerLen a + n))))
        (frameAccesses c (readOut a n) (p.response (headerLen a + n)))) := by
  have hl := readOut_length a n
  simp only [memRead, h, if_true, busXfer_ok hf, hl, p.response_drop, Nat.add_sub_cancel_left]

theorem memRead_fails {c : Cfg} {a n : Nat} {p : Port} (h : inSpace c a n = true)
    (hf : p.nextDraw.fails = true) :
    memRead c a n p =
      (.error .transportError, p.record (.xfer (readOut a n) none) [.unknownEffect]) := by
  simp only [memRead, h, if_true, busXfer_fails hf]

theorem inSpace_one {c : Cfg} {a : Nat} (h : a ≤ 0xFFF) : inSpace c a 1 = true := by
  simp [inSpace]; omega

theorem inSpace_two {c : Cfg} {a : Nat} (h : a ≤ 0xFFE) : inSpace c a 2 = true := by
  simp [inSpace]; omega

theorem inSpace_fifo {c : Cfg} (n : Nat) (h : c.addrFifodata ≤ 0xFFF) :
    inSpace c c.addrFifodata n = true := by
  simp [inSpace, h]

/-! ### The primitives -/

theorem command_eq {c : Cfg} {a : Nat} {v : Byte} (p : Port) (h : a ≤ 0xFFF) :
    command c a v p = p.busWrite c (commandFrame a v) := by
  have hb : ¬ 0xFFF < a := by omega
  simp only [command, execute, executeMap, batchMap, List.any_nil, Bool.false_eq_true, if_false,
    namedBadKey, outOfRangeKeys, sortBatch, insertEntry, runsOf, consRun,
    List.map_cons, List.map_nil, List.filter_cons, List.filter_nil, decide_eq_true_eq, if_neg hb,
    burstWrites]
  rw [memWrite_in p (by simpa using inSpace_one h)]
  simp only [commandFrame, Port.busWrite]
  split <;> rename_i heq <;> exact heq.symm

theorem read_out {c : Cfg} {a : Nat} (p : Port) (h : 0xFFF < a) :
    read c a p = (.error (.addressOutOfRange a), p) := by
  simp [read, h]

theorem read_ok {c : Cfg} {a : Nat} {p : Port} (h : a ≤ 0xFFF) (hf : p.nextDraw.fails = false) :
    read c a p = (.ok (p.responseByte (headerLen a)),
      p.record (.xfer (readOut a 1) (some (p.response (headerLen a + 1))))
        (frameAccesses c (readOut a 1) (p.response (headerLen a + 1)))) := by
  have hb : ¬ 0xFFF < a := by omega
  simp only [read, hb, if_false, memRead_ok (inSpace_one h) hf]
  rfl

theorem read_fails {c : Cfg} {a : Nat} {p : Port} (h : a ≤ 0xFFF) (hf : p.nextDraw.fails = true) :
    read c a p =
      (.error .transportError, p.record (.xfer (readOut a 1) none) [.unknownEffect]) := by
  have hb : ¬ 0xFFF < a := by omega
  simp only [read, hb, if_false, memRead_fails (inSpace_one h) hf]

theorem read16_out {c : Cfg} {a : Nat} (p : Port) (h : 0xFFE < a) :
    read16 c a p = (.error (.addressOutOfRange a), p) := by
  simp [read16, h]

theorem read16_ok {c : Cfg} {a : Nat} {p : Port} (h : a ≤ 0xFFE) (hf : p.nextDraw.fails = false) :
    read16 c a p =
      (.ok (u16 (p.responseByte (headerLen a)) (p.responseByte (headerLen a + 1))),
        p.record (.xfer (readOut a 2) (some (p.response (headerLen a + 2))))
          (frameAccesses c (readOut a 2) (p.response (headerLen a + 2)))) := by
  have hb : ¬ 0xFFE < a := by omega
  simp only [read16, hb, if_false, memRead_ok (inSpace_two h) hf]
  rfl

theorem read16_fails {c : Cfg} {a : Nat} {p : Port} (h : a ≤ 0xFFE) (hf : p.nextDraw.fails = true) :
    read16 c a p =
      (.error .transportError, p.record (.xfer (readOut a 2) none) [.unknownEffect]) := by
  have hb : ¬ 0xFFE < a := by omega
  simp only [read16, hb, if_false, memRead_fails (inSpace_two h) hf]

theorem writeFifoData_long {c : Cfg} {d : List Byte} (p : Port) (h : 254 < d.length) :
    writeFifoData c d p = (.error (.payloadTooLong d.length), p) := by
  simp [writeFifoData, h]

theorem writeFifoData_eq {c : Cfg} {d : List Byte} (p : Port) (h : d.length ≤ 254)
    (ha : c.addrFifodata ≤ 0xFFF) : writeFifoData c d p = p.busWrite c (fifoFrame c d) := by
  have hb : ¬ 254 < d.length := by omega
  simp only [writeFifoData, hb, if_false, memWrite_in p (inSpace_fifo _ ha), fifoFrame]

@[simp] theorem readFifo_zero (c : Cfg) (p : Port) : readFifo c 0 p = (.ok [], p) := rfl

theorem readFifo_pos {c : Cfg} {n : Nat} (p : Port) (h : n ≠ 0) :
    readFifo c n p = memRead c c.addrFifodata n p := by
  simp [readFifo, h]

/-! ### The addresses of a well-formed configuration (00_scope.md R12) -/

section

variable {c : Cfg} (h : c.WellFormed)
include h

theorem wf_pwrmode : c.addrPwrmode ≤ 0xFFF := h.1 _ (by simp [Cfg.addresses])
theorem wf_xtalstatus : c.addrXtalstatus ≤ 0xFFF := h.1 _ (by simp [Cfg.addresses])
theorem wf_rng : c.addrRng ≤ 0xFFF := h.1 _ (by simp [Cfg.addresses])
theorem wf_fifostat : c.addrFifostat ≤ 0xFFF := h.1 _ (by simp [Cfg.addresses])
theorem wf_fifodata : c.addrFifodata ≤ 0xFFF := h.1 _ (by simp [Cfg.addresses])
theorem wf_txdone : c.addrTxdone ≤ 0xFFF := h.1 _ (by simp [Cfg.addresses])
theorem wf_fault : c.addrFault ≤ 0xFFF := h.1 _ (by simp [Cfg.addresses])
theorem wf_fifocount : c.addrFifocount ≤ 0xFFE := by have := h.2.1; omega
theorem wf_timeout : 1 ≤ c.autorangeTimeoutTicks := h.2.2.2.2.2.2

theorem cmdCommit_eq (p : Port) :
    cmdCommit c p = p.busWrite c (commandFrame c.addrFifostat c.fifoCommit) :=
  command_eq p (wf_fifostat h)

theorem cmdPwrStandby_eq (p : Port) :
    cmdPwrStandby c p = p.busWrite c (commandFrame c.addrPwrmode c.pwrStandby) :=
  command_eq p (wf_pwrmode h)

theorem cmdPwrFulltx_eq (p : Port) :
    cmdPwrFulltx c p = p.busWrite c (commandFrame c.addrPwrmode c.pwrFulltx) :=
  command_eq p (wf_pwrmode h)

theorem cmdPwrFullrx_eq (p : Port) :
    cmdPwrFullrx c p = p.busWrite c (commandFrame c.addrPwrmode c.pwrFullrx) :=
  command_eq p (wf_pwrmode h)

theorem cmdRngStart_eq (p : Port) :
    cmdRngStart c p = p.busWrite c (commandFrame c.addrRng c.rngStartValue) :=
  command_eq p (wf_rng h)

end

/-! ### The transport only goes forward -/

/-- A later transport: the trace and the accesses have grown, by at most `n` transactions. -/
structure Port.Extends (p q : Port) (n : Nat) : Prop where
  trace : ∃ ts, q.trace = p.trace ++ ts ∧ ts.length ≤ n
  chip : ∃ as, q.chip = p.chip ++ as

theorem Port.extends_refl (p : Port) : p.Extends p 0 := ⟨⟨[], by simp⟩, [], by simp⟩

theorem Port.Extends.trans {p q r : Port} {n k : Nat} (h : p.Extends q n) (h' : q.Extends r k) :
    p.Extends r (n + k) := by
  obtain ⟨⟨ts, ht, hn⟩, as, ha⟩ := h
  obtain ⟨⟨us, hu, hk⟩, bs, hb⟩ := h'
  exact ⟨⟨ts ++ us, by simp [hu, ht], by simp; omega⟩, as ++ bs, by simp [hb, ha]⟩

theorem Port.Extends.mono {p q : Port} {n k : Nat} (h : p.Extends q n) (hk : n ≤ k) :
    p.Extends q k := by
  obtain ⟨⟨ts, ht, hn⟩, ha⟩ := h
  exact ⟨⟨ts, ht, by omega⟩, ha⟩

theorem Port.record_extends (p : Port) (t : Transaction) (as : List Access) :
    p.Extends (p.record t as) 1 := ⟨⟨[t], by simp⟩, as, by simp⟩

theorem busWrite_extends (c : Cfg) (out : List Byte) (p : Port) :
    p.Extends (p.busWrite c out).2 1 := by
  unfold Port.busWrite
  split <;> exact p.record_extends _ _

theorem busXfer_extends (c : Cfg) (out : List Byte) (p : Port) :
    p.Extends (p.busXfer c out).2 1 := by
  unfold Port.busXfer
  split <;> exact p.record_extends _ _

theorem memWrite_extends (c : Cfg) (a : Nat) (vs : List Byte) (p : Port) :
    p.Extends (memWrite c a vs p).2 1 := by
  unfold memWrite
  split
  · exact busWrite_extends c _ p
  · exact p.extends_refl.mono (by omega)

theorem memRead_extends (c : Cfg) (a n : Nat) (p : Port) : p.Extends (memRead c a n p).2 1 := by
  have h := busXfer_extends c (header a .read ++ List.replicate n 0x00#8) p
  unfold memRead
  split
  · split <;> rename_i heq <;> rw [heq] at h <;> exact h
  · exact p.extends_refl.mono (by omega)

theorem burstWrites_extends (c : Cfg) (runs : List (Nat × List Byte)) (p : Port) :
    p.Extends (burstWrites c runs p).2 runs.length := by
  induction runs generalizing p with
  | nil => exact p.extends_refl
  | cons r more ih =>
    obtain ⟨a, vs⟩ := r
    have h := memWrite_extends c a vs p
    unfold burstWrites
    split <;> rename_i heq <;> rw [heq] at h
    · exact (h.trans (ih _)).mono (by simp; omega)
    · exact h.mono (by simp)

theorem execute_extends (c : Cfg) (batch : List (Nat × Byte)) (p : Port) :
    p.Extends (execute c batch p).2 (runsOf (sortBatch (batchMap batch))).length := by
  unfold execute executeMap
  split
  · exact p.extends_refl.mono (by omega)
  · exact burstWrites_extends c _ p

theorem command_extends (c : Cfg) (a : Nat) (v : Byte) (p : Port) :
    p.Extends (command c a v p).2 1 := execute_extends c [(a, v)] p

theorem read_extends (c : Cfg) (a : Nat) (p : Port) : p.Extends (read c a p).2 1 := by
  have h := memRead_extends c a 1 p
  unfold read
  split
  · exact p.extends_refl.mono (by omega)
  · split <;> rename_i heq <;> rw [heq] at h <;> exact h

theorem read16_extends (c : Cfg) (a : Nat) (p : Port) : p.Extends (read16 c a p).2 1 := by
  have h := memRead_extends c a 2 p
  unfold read16
  split
  · exact p.extends_refl.mono (by omega)
  · split <;> rename_i heq <;> rw [heq] at h <;> exact h

theorem writeFifoData_extends (c : Cfg) (d : List Byte) (p : Port) :
    p.Extends (writeFifoData c d p).2 1 := by
  unfold writeFifoData
  split
  · exact p.extends_refl.mono (by omega)
  · exact memWrite_extends c _ _ p

theorem readFifo_extends (c : Cfg) (n : Nat) (p : Port) : p.Extends (readFifo c n p).2 1 := by
  unfold readFifo
  split
  · exact p.extends_refl.mono (by omega)
  · exact memRead_extends c _ _ p

end Sys2Proof.Machine
end

