-- ==== Sys2Proof/Laws/Answers.lean ====
section
/-! SUPPORT. The environment's answers by number (20_memory.md R55, R57): each transaction takes the
first one and shifts the rest. -/

namespace Sys2Proof.Machine

theorem Port.nextDraw_eq_answer (p : Port) : p.nextDraw = p.answer 0 := by
  unfold Port.nextDraw Port.answer
  cases p.env <;> rfl

theorem Port.responseByte_eq_answerByte (p : Port) (j : Nat) :
    p.responseByte j = p.answerByte 0 j := by
  unfold Port.responseByte
  rw [p.nextDraw_eq_answer]
  rfl

theorem Port.responseFrom_eq_map (p : Port) (j n : Nat) :
    p.responseFrom j n = (List.range n).map (fun k => p.answerByte 0 (j + k)) := by
  induction n generalizing j with
  | zero => rfl
  | succ n ih =>
    rw [Port.responseFrom, ih, List.range_succ_eq_map, List.map_cons, List.map_map,
      p.responseByte_eq_answerByte]
    simp [Function.comp_def, Nat.add_comm, Nat.add_left_comm]

theorem Port.response_eq_answerBytes (p : Port) (n : Nat) : p.response n = p.answerBytes 0 n := by
  simp [Port.response, Port.answerBytes, p.responseFrom_eq_map]

theorem Port.responseFrom_eq_drop (p : Port) (j n : Nat) :
    p.responseFrom j n = (p.answerBytes 0 (j + n)).drop j := by
  rw [← p.response_eq_answerBytes, p.response_drop, Nat.add_sub_cancel_left]

@[simp] theorem Port.answerBytes_length (p : Port) (k n : Nat) :
    (p.answerBytes k n).length = n := by
  simp [Port.answerBytes]

@[simp] theorem Port.record_answer (p : Port) (t : Transaction) (as : List Access) (k : Nat) :
    (p.record t as).answer k = p.answer (k + 1) := by
  simp only [Port.answer, Port.record_env, Port.record_drawn, List.getElem?_tail]
  rw [show p.drawn + 1 + k = p.drawn + (k + 1) by omega]

@[simp] theorem Port.record_answerByte (p : Port) (t : Transaction) (as : List Access)
    (k j : Nat) : (p.record t as).answerByte k j = p.answerByte (k + 1) j := by
  simp only [Port.answerByte, Port.record_answer, Port.record_drawn]
  rw [show p.drawn + 1 + k = p.drawn + (k + 1) by omega]

@[simp] theorem Port.record_answerBytes (p : Port) (t : Transaction) (as : List Access)
    (k n : Nat) : (p.record t as).answerBytes k n = p.answerBytes (k + 1) n := by
  simp only [Port.answerBytes]
  congr 1
  funext j
  exact p.record_answerByte t as k j

@[simp] theorem Port.record_readDone (p : Port) (t : Transaction) (as : List Access)
    (k a n : Nat) : (p.record t as).readDone k a n = p.readDone (k + 1) a n := by
  simp [Port.readDone]

theorem Port.readDone_zero (p : Port) (a n : Nat) :
    .xfer (readOut a n) (some (p.response (headerLen a + n))) = p.readDone 0 a n := by
  simp [Port.readDone, readOut, p.response_eq_answerBytes]

/-! ### The primitives by the answer they draw -/

section

variable {c : Cfg} {p : Port} {a : Nat} {out : List Byte}

theorem busWrite_answered (h : (p.answer 0).fails = false) :
    p.busWrite c out = (.ok (), p.record (.write out true) (frameAccesses c out [])) :=
  busWrite_ok (p.nextDraw_eq_answer ▸ h)

theorem busWrite_failed (h : (p.answer 0).fails = true) :
    p.busWrite c out = (.error .transportError, p.record (.write out false) [.unknownEffect]) :=
  busWrite_fails (p.nextDraw_eq_answer ▸ h)

theorem read_answered (ha : a ≤ 0xFFF) (h : (p.answer 0).fails = false) :
    read c a p = (.ok (p.answerByte 0 (headerLen a)), p.record (p.readDone 0 a 1)
      (frameAccesses c (readOut a 1) (p.answerBytes 0 (headerLen a + 1)))) := by
  rw [read_ok ha (p.nextDraw_eq_answer ▸ h), p.responseByte_eq_answerByte, p.readDone_zero,
    p.response_eq_answerBytes]

theorem read_failed (ha : a ≤ 0xFFF) (h : (p.answer 0).fails = true) :
    read c a p = (.error .transportError, p.record (.xfer (readOut a 1) none) [.unknownEffect]) :=
  read_fails ha (p.nextDraw_eq_answer ▸ h)

theorem read16_answered (ha : a ≤ 0xFFE) (h : (p.answer 0).fails = false) :
    read16 c a p = (.ok (u16 (p.answerByte 0 (headerLen a)) (p.answerByte 0 (headerLen a + 1))),
      p.record (p.readDone 0 a 2)
        (frameAccesses c (readOut a 2) (p.answerBytes 0 (headerLen a + 2)))) := by
  rw [read16_ok ha (p.nextDraw_eq_answer ▸ h), p.responseByte_eq_answerByte,
    p.responseByte_eq_answerByte, p.readDone_zero, p.response_eq_answerBytes]

theorem read16_failed (ha : a ≤ 0xFFE) (h : (p.answer 0).fails = true) :
    read16 c a p = (.error .transportError, p.record (.xfer (readOut a 2) none) [.unknownEffect]) :=
  read16_fails ha (p.nextDraw_eq_answer ▸ h)

end

end Sys2Proof.Machine
end

