-- ==== Sys2Proof/Laws/Batch.lean ====
section
/-! SUPPORT. Write batches: sorting keeps the entries, the runs cover the sorted batch and are
maximal (30_encoding.md R87), and the bursts of an in-range batch are in range. -/

namespace Sys2Proof.Machine

/-! ### Sorting -/

theorem insertEntry_perm (e : Nat × Byte) (l : List (Nat × Byte)) :
    (insertEntry e l).Perm (e :: l) := by
  induction l with
  | nil => exact .refl _
  | cons f rest ih =>
    unfold insertEntry
    split
    · exact .refl _
    · exact (ih.cons f).trans (.swap e f rest)

theorem sortBatch_perm (l : List (Nat × Byte)) : (sortBatch l).Perm l := by
  induction l with
  | nil => exact .refl _
  | cons e rest ih => exact (insertEntry_perm e _).trans (ih.cons e)

@[simp] theorem mem_sortBatch {e : Nat × Byte} {l : List (Nat × Byte)} :
    e ∈ sortBatch l ↔ e ∈ l := (sortBatch_perm l).mem_iff

theorem insertEntry_sorted {e : Nat × Byte} {l : List (Nat × Byte)}
    (h : l.Pairwise (fun x y => x.1 ≤ y.1)) :
    (insertEntry e l).Pairwise (fun x y => x.1 ≤ y.1) := by
  induction l with
  | nil => simp [insertEntry]
  | cons f rest ih =>
    obtain ⟨hf, hr⟩ := List.pairwise_cons.1 h
    unfold insertEntry
    split
    · rename_i hle
      refine List.pairwise_cons.2 ⟨fun x hx => ?_, h⟩
      rcases List.mem_cons.1 hx with rfl | hx
      · exact hle
      · exact hle.trans (hf x hx)
    · rename_i hle
      refine List.pairwise_cons.2 ⟨fun x hx => ?_, ih hr⟩
      rcases List.mem_cons.1 ((insertEntry_perm e rest).mem_iff.1 hx) with rfl | hx
      · omega
      · exact hf x hx

theorem sortBatch_sorted (l : List (Nat × Byte)) :
    (sortBatch l).Pairwise (fun x y => x.1 ≤ y.1) := by
  induction l with
  | nil => simp [sortBatch]
  | cons e rest ih => exact insertEntry_sorted ih

/-! ### Runs -/

theorem consRun_entries (e : Nat × Byte) (rs : List (Nat × List Byte)) :
    (consRun e rs).flatMap (fun r => runEntries r.1 r.2) =
      e :: rs.flatMap (fun r => runEntries r.1 r.2) := by
  obtain ⟨a, v⟩ := e
  cases rs with
  | nil => simp [consRun, runEntries]
  | cons r more =>
    obtain ⟨b, vs⟩ := r
    simp only [consRun]
    split
    · rename_i hb; subst hb; simp [runEntries]
    · simp [runEntries]

theorem runsOf_entries (l : List (Nat × Byte)) :
    (runsOf l).flatMap (fun r => runEntries r.1 r.2) = l := by
  induction l with
  | nil => rfl
  | cons e rest ih => rw [runsOf, consRun_entries, ih]

theorem runsOf_ne_nil {l : List (Nat × Byte)} : ∀ r ∈ runsOf l, r.2 ≠ [] := by
  induction l with
  | nil => simp [runsOf]
  | cons e rest ih =>
    rw [runsOf]
    cases hrs : runsOf rest with
    | nil => simp [consRun]
    | cons r more =>
      obtain ⟨b, vs⟩ := r
      rw [hrs] at ih
      simp only [consRun]
      split <;> simp only [List.mem_cons, forall_eq_or_imp] at ih ⊢
      · exact ⟨by simp, ih.2⟩
      · exact ⟨by simp, ih.1, ih.2⟩

/-- Two neighbouring runs never touch: each is maximal. -/
theorem runsOf_maximal (l : List (Nat × Byte)) :
    (runsOf l).IsChain (fun r r' => r'.1 ≠ r.1 + r.2.length) := by
  induction l with
  | nil => simp [runsOf]
  | cons e rest ih =>
    rw [runsOf]
    cases hrs : runsOf rest with
    | nil => simp [consRun]
    | cons r more =>
      obtain ⟨b, vs⟩ := r
      rw [hrs] at ih
      simp only [consRun]
      split
      · rename_i hb; subst hb
        cases more with
        | nil => simp
        | cons r' more' =>
          rw [List.isChain_cons_cons] at ih ⊢
          refine ⟨?_, ih.2⟩
          have := ih.1
          simp only [List.length_cons] at this ⊢
          omega
      · rename_i hb
        rw [List.isChain_cons_cons]
        exact ⟨by simpa using hb, ih⟩

theorem mem_runEntries_last {a : Nat} {vs : List Byte} (h : vs ≠ []) :
    ∃ v, (a + (vs.length - 1), v) ∈ runEntries a vs := by
  induction vs generalizing a with
  | nil => exact absurd rfl h
  | cons v vs ih =>
    cases vs with
    | nil => exact ⟨v, by simp [runEntries]⟩
    | cons w ws =>
      obtain ⟨x, hx⟩ := ih (a := a + 1) (by simp)
      refine ⟨x, ?_⟩
      rw [runEntries]
      refine List.mem_cons_of_mem _ ?_
      have he : a + ((v :: w :: ws).length - 1) = a + 1 + ((w :: ws).length - 1) := by
        simp; omega
      rw [he]; exact hx

/-- A run of an in-range batch ends within the register space. -/
theorem runsOf_inSpace {c : Cfg} {l : List (Nat × Byte)} (h : ∀ e ∈ l, e.1 ≤ 0xFFF) :
    ∀ r ∈ runsOf l, inSpace c r.1 r.2.length = true := by
  intro r hr
  have hne := runsOf_ne_nil r hr
  obtain ⟨v, hv⟩ := mem_runEntries_last (a := r.1) hne
  have hmem : (r.1 + (r.2.length - 1), v) ∈ l := by
    rw [← runsOf_entries l]
    exact List.mem_flatMap.2 ⟨r, hr, hv⟩
  have hle := h _ hmem
  have hpos : 0 < r.2.length := List.length_pos_iff.2 hne
  simp only [inSpace, decide_eq_true_eq]
  simp only at hle
  omega

/-! ### The validation phase -/

theorem outOfRangeKeys_eq_nil {batch : List (Nat × Byte)} :
    outOfRangeKeys batch = [] ↔ ∀ e ∈ batch, e.1 ≤ 0xFFF := by
  simp only [outOfRangeKeys, List.filter_eq_nil_iff, List.mem_map, decide_eq_true_eq]
  constructor
  · intro h e he
    have := h e.1 ⟨e, mem_sortBatch.2 he, rfl⟩
    omega
  · rintro h a ⟨e, he, rfl⟩
    have := h e (mem_sortBatch.1 he)
    omega

theorem namedBadKey_eq_none {batch : List (Nat × Byte)} :
    namedBadKey batch = none ↔ ∀ e ∈ batch, e.1 ≤ 0xFFF := by
  rw [← outOfRangeKeys_eq_nil]
  unfold namedBadKey
  split <;> simp_all

theorem namedBadKey_mem {batch : List (Nat × Byte)} {a : Nat} (h : namedBadKey batch = some a) :
    a ∈ outOfRangeKeys batch := by
  unfold namedBadKey at h
  split at h
  · simp at h
  · rename_i heq
    rw [heq]; simpa using h.symm
  · rename_i x y more heq
    rw [heq]
    have hlt : Config.freePick (x :: y :: more) % (more.length + 2) < (x :: y :: more).length := by
      simpa using Nat.mod_lt _ (Nat.succ_pos (more.length + 1))
    rw [List.getD_eq_getElem _ _ hlt] at h
    rw [← Option.some.inj h]
    exact List.getElem_mem hlt

theorem executeMap_out {c : Cfg} {batch : List (Nat × Byte)} {a : Nat} (p : Port)
    (h : namedBadKey batch = some a) : executeMap c batch p = (.error (.addressOutOfRange a), p) := by
  simp [executeMap, h]

theorem executeMap_in {c : Cfg} {batch : List (Nat × Byte)} (p : Port)
    (h : ∀ e ∈ batch, e.1 ≤ 0xFFF) :
    executeMap c batch p = burstWrites c (runsOf (sortBatch batch)) p := by
  simp [executeMap, namedBadKey_eq_none.2 h]

/-! ### The map a list of entries stands for -/

/-- What the map holds: each key's last entry. -/
theorem mem_batchMap {batch : List (Nat × Byte)} {e : Nat × Byte} :
    e ∈ batchMap batch ↔ batch.reverse.find? (fun f => f.1 == e.1) = some e := by
  induction batch with
  | nil => simp [batchMap]
  | cons f rest ih =>
    rw [List.reverse_cons, List.find?_append]
    cases hfind : rest.reverse.find? (fun g => g.1 == e.1) with
    | some g =>
      have hg := List.find?_some hfind
      have hgm := List.mem_reverse.1 (List.mem_of_find?_eq_some hfind)
      simp only [beq_iff_eq] at hg
      rw [hfind] at ih
      simp only [Option.some_or, batchMap]
      split
      · exact ih
      · rename_i hany
        rw [List.mem_cons, ih]
        refine or_iff_right ?_
        rintro rfl
        exact hany (List.any_eq_true.2 ⟨g, hgm, by simp [hg]⟩)
    | none =>
      rw [hfind] at ih
      have hout : e ∉ batchMap rest := fun h => Option.some_ne_none _ (ih.1 h).symm
      simp only [Option.none_or, List.find?_singleton, batchMap]
      rw [List.find?_eq_none] at hfind
      split
      · rename_i hany
        obtain ⟨g, hg, hgf⟩ := List.any_eq_true.1 hany
        simp only [beq_iff_eq] at hgf
        have hne : f.1 ≠ e.1 := by
          intro hfe
          exact hfind g (List.mem_reverse.2 hg) (by simp [hgf, hfe])
        simp [hout, hne]
      · simp only [List.mem_cons, hout, or_false]
        constructor
        · rintro rfl; simp
        · intro h
          split at h
          · exact (Option.some.inj h).symm
          · exact absurd h (by simp)

theorem batchMap_subset {batch : List (Nat × Byte)} {e : Nat × Byte} (h : e ∈ batchMap batch) :
    e ∈ batch :=
  List.mem_reverse.1 (List.mem_of_find?_eq_some (mem_batchMap.1 h))

/-- No key is lost. -/
theorem batchMap_key {batch : List (Nat × Byte)} {e : Nat × Byte} (h : e ∈ batch) :
    ∃ f ∈ batchMap batch, f.1 = e.1 := by
  cases hfind : batch.reverse.find? (fun f => f.1 == e.1) with
  | none => exact absurd (by simp) (List.find?_eq_none.1 hfind e (List.mem_reverse.2 h))
  | some g =>
    have hg := List.find?_some hfind
    simp only [beq_iff_eq] at hg
    exact ⟨g, mem_batchMap.2 (by rw [hg]; exact hfind), hg⟩

theorem batchMap_nodup (batch : List (Nat × Byte)) : ((batchMap batch).map Prod.fst).Nodup := by
  induction batch with
  | nil => simp [batchMap]
  | cons f rest ih =>
    unfold batchMap
    split
    · exact ih
    · rename_i hany
      refine List.nodup_cons.2 ⟨fun h => ?_, ih⟩
      obtain ⟨g, hg, hgf⟩ := List.mem_map.1 h
      exact hany (List.any_eq_true.2 ⟨g, batchMap_subset hg, by simp [hgf]⟩)

/-- A list with distinct keys is the map itself. -/
theorem batchMap_of_nodup {batch : List (Nat × Byte)} (h : (batch.map Prod.fst).Nodup) :
    batchMap batch = batch := by
  induction batch with
  | nil => rfl
  | cons f rest ih =>
    obtain ⟨hf, hr⟩ := List.nodup_cons.1 h
    unfold batchMap
    rw [if_neg, ih hr]
    intro hany
    obtain ⟨g, hg, hgf⟩ := List.any_eq_true.1 hany
    simp only [beq_iff_eq] at hgf
    exact hf (List.mem_map.2 ⟨g, hg, hgf⟩)

theorem execute_batchMap (c : Cfg) (batch : List (Nat × Byte)) (p : Port) :
    execute c (batchMap batch) p = execute c batch p := by
  unfold execute
  rw [batchMap_of_nodup (batchMap_nodup batch)]

theorem execute_of_nodup {c : Cfg} {batch : List (Nat × Byte)} (p : Port)
    (h : (batch.map Prod.fst).Nodup) : execute c batch p = executeMap c batch p := by
  unfold execute
  rw [batchMap_of_nodup h]

end Sys2Proof.Machine
end

