-- ==== Sys2Proof/Laws/Chunks.lean ====
section
/-! SUPPORT. What the chunk decoder and the drain loop can do, each said once (41_chunk_decoder.md
R151, R152, R167). -/

namespace Sys2Proof.Machine

/-! ### Chunk lengths -/

theorem tagClass_lt (t : Byte) : tagClass t < 8 := by
  have h := t.isLt
  simp only [tagClass, BitVec.toNat_ushiftRight, Nat.shiftRight_eq_div_pow]
  omega

theorem tagClass_eq_div (t : Byte) : tagClass t = t.toNat / 32 := by
  simp [tagClass, Nat.shiftRight_eq_div_pow]

section

variable {c : Cfg} {t : Byte} {body : List Byte}

theorem chunkLen_class0 (h : tagClass t = 0) : chunkLen c (t :: body) = .known 1 := by
  simp [chunkLen, h]

theorem chunkLen_class1 (h : tagClass t = 1) : chunkLen c (t :: body) = .known 2 := by
  simp [chunkLen, h]

theorem chunkLen_class2 (h : tagClass t = 2) : chunkLen c (t :: body) = .known 3 := by
  simp [chunkLen, h]

theorem chunkLen_class3 (h : tagClass t = 3) : chunkLen c (t :: body) = .known 4 := by
  simp [chunkLen, h]

theorem chunkLen_class7 (b1 : Byte) (h : tagClass t = 7) :
    chunkLen c (t :: b1 :: body) = .known (b1.toNat + 2) := by
  simp [chunkLen, h]

end

theorem configuredLen_bounds {c : Cfg} (hc : c.WellFormed) {t : Byte} {n : Nat}
    (h : configuredLen c t = some n) : 1 ≤ n ∧ n ≤ 257 := by
  obtain ⟨-, -, -, -, -, ⟨h4, h5, h6⟩, -⟩ := hc
  unfold configuredLen at h
  split at h
  · simpa [h, Cfg.classLenOk] using h4
  · simpa [h, Cfg.classLenOk] using h5
  · simpa [h, Cfg.classLenOk] using h6
  · simp at h

/-- A known length is that of the front of the list, whatever follows. -/
theorem chunkLen_append {c : Cfg} {buf : List Byte} (more : List Byte)
    (h : chunkLen c buf ≠ .needMore) : chunkLen c (buf ++ more) = chunkLen c buf := by
  cases buf with
  | nil => simp [chunkLen] at h
  | cons t body =>
    cases body with
    | cons b1 tail => rfl
    | nil =>
      simp only [chunkLen, List.cons_append, List.nil_append] at h ⊢
      split <;> simp_all

theorem chunkLen_bounds {c : Cfg} (hc : c.WellFormed) {buf : List Byte} {n : Nat}
    (h : chunkLen c buf = .known n) : 1 ≤ n ∧ n ≤ 257 := by
  unfold chunkLen at h
  split at h
  · simp at h
  · rename_i t body
    split at h
    · simp at h; omega
    · simp at h; omega
    · simp at h; omega
    · simp at h; omega
    · split at h
      · simp at h
      · rename_i b1 _
        have hb := b1.isLt
        simp at h; omega
    · split at h
      · simp at h
      · rename_i heq
        simp only [ChunkLen.known.injEq] at h
        subst h
        exact configuredLen_bounds hc heq

theorem chunkLen_needMore {c : Cfg} {buf : List Byte} (h : chunkLen c buf = .needMore) :
    buf.length ≤ 1 := by
  unfold chunkLen at h
  split at h
  · simp
  · split at h <;> try simp at h
    · split at h
      · simp
      · simp at h
    · split at h <;> simp at h

/-! ### `decode_chunk` -/

theorem decodeChunk_eq_chunk {c : Cfg} {buf rest : List Byte} {v : Chunk}
    (h : decodeChunk c buf = .chunk v rest) :
    ∃ n, chunkLen c buf = .known n ∧ n ≤ buf.length ∧ v = variant c (buf.take n) ∧
      rest = buf.drop n := by
  unfold decodeChunk at h
  split at h
  · simp at h
  · simp at h
  · rename_i n heq
    split at h
    · simp at h
    · rename_i hlen
      simp only [DecodeResult.chunk.injEq] at h
      exact ⟨n, heq, by omega, h.1.symm, h.2.symm⟩

theorem decodeChunk_known {c : Cfg} {buf : List Byte} {n : Nat} (h : chunkLen c buf = .known n)
    (hn : n ≤ buf.length) : decodeChunk c buf = .chunk (variant c (buf.take n)) (buf.drop n) := by
  have : ¬ buf.length < n := by omega
  simp [decodeChunk, h, this]

theorem decodeChunk_eq_badClass {c : Cfg} {buf : List Byte} {t : Byte}
    (h : decodeChunk c buf = .badClass t) : chunkLen c buf = .noLength ∧ t = byteAt buf 0 := by
  unfold decodeChunk at h
  split at h
  · simp at h
  · rename_i heq
    simp only [DecodeResult.badClass.injEq] at h
    exact ⟨heq, h.symm⟩
  · split at h <;> simp at h

/-- An incomplete chunk is one byte short of its length at most (10_state.md R29). -/
theorem decodeChunk_needMore_length {c : Cfg} (hc : c.WellFormed) {buf : List Byte}
    (h : decodeChunk c buf = .needMore) : buf.length ≤ 256 := by
  unfold decodeChunk at h
  split at h
  · rename_i heq
    have := chunkLen_needMore heq
    omega
  · simp at h
  · rename_i n heq
    split at h
    · have := chunkLen_bounds hc heq
      omega
    · simp at h

theorem decodeChunk_rest_length {c : Cfg} (hc : c.WellFormed) {buf rest : List Byte} {v : Chunk}
    (h : decodeChunk c buf = .chunk v rest) : rest.length < buf.length := by
  obtain ⟨n, hn, hle, -, rfl⟩ := decodeChunk_eq_chunk h
  have := chunkLen_bounds hc hn
  simp only [List.length_drop]
  omega

/-! ### Emitting a chunk -/

section

variable (m : Manager) (v : Chunk)

@[simp] theorem Manager.emit_state : (m.emit v).state = m.state := by cases v <;> rfl
@[simp] theorem Manager.emit_txEnabled : (m.emit v).txEnabled = m.txEnabled := by cases v <;> rfl
@[simp] theorem Manager.emit_rxEnabled : (m.emit v).rxEnabled = m.rxEnabled := by cases v <;> rfl
@[simp] theorem Manager.emit_resetRequested : (m.emit v).resetRequested = m.resetRequested := by
  cases v <;> rfl
@[simp] theorem Manager.emit_inbox : (m.emit v).inbox = m.inbox := by cases v <;> rfl
@[simp] theorem Manager.emit_rxBuf : (m.emit v).rxBuf = m.rxBuf := by cases v <;> rfl
@[simp] theorem Manager.emit_rngIssued : (m.emit v).rngIssued = m.rngIssued := by cases v <;> rfl
@[simp] theorem Manager.emit_rngTicks : (m.emit v).rngTicks = m.rngTicks := by cases v <;> rfl
@[simp] theorem Manager.emit_faultCause : (m.emit v).faultCause = m.faultCause := by
  cases v <;> rfl

theorem Manager.emit_data (flags : Byte) (p : List Byte) :
    m.emit (.data flags p) = m.emitData p := rfl

theorem Manager.emit_other (h : ∀ flags p, v ≠ .data flags p) : m.emit v = m.emitTlm v := by
  cases v <;> first | rfl | exact absurd rfl (h _ _)

end

/-! ### The drain loop -/

/-- What draining can do to the block's state: it moves bytes from `rxBuf` to the two streams. -/
structure Drained (m m' : Manager) : Prop where
  state : m'.state = m.state
  txEnabled : m'.txEnabled = m.txEnabled
  rxEnabled : m'.rxEnabled = m.rxEnabled
  resetRequested : m'.resetRequested = m.resetRequested
  inbox : m'.inbox = m.inbox
  rngIssued : m'.rngIssued = m.rngIssued
  rngTicks : m'.rngTicks = m.rngTicks
  faultCause : m'.faultCause = m.faultCause
  rxData : ∃ ps, m'.rxData = m.rxData ++ ps
  tlm : ∃ vs, m'.tlm = m.tlm ++ vs ∧ ∀ v ∈ vs, ∀ flags p, v ≠ .data flags p
  rxBuf : ∃ taken, m.rxBuf = taken ++ m'.rxBuf

theorem Drained.refl (m : Manager) : Drained m m :=
  ⟨rfl, rfl, rfl, rfl, rfl, rfl, rfl, rfl, ⟨[], by simp⟩, ⟨[], by simp⟩, [], by simp⟩

theorem Drained.emit {m : Manager} {rest taken : List Byte} (v : Chunk)
    (h : m.rxBuf = taken ++ rest) : Drained m (Manager.emit { m with rxBuf := rest } v) := by
  refine ⟨by simp, by simp, by simp, by simp, by simp, by simp, by simp, by simp, ?_, ?_,
    ⟨taken, by simpa using h⟩⟩
  · cases v
    case data f p => exact ⟨[p], rfl⟩
    all_goals exact ⟨[], by simp [Manager.emit, Manager.emitTlm]⟩
  · cases v
    case data f p => exact ⟨[], by simp [Manager.emit, Manager.emitData]⟩
    all_goals exact ⟨[_], rfl, by simp⟩

theorem Drained.trans {m m' m'' : Manager} (h : Drained m m') (h' : Drained m' m'') :
    Drained m m'' := by
  obtain ⟨ps, hps⟩ := h.rxData
  obtain ⟨qs, hqs⟩ := h'.rxData
  obtain ⟨vs, hvs, hv⟩ := h.tlm
  obtain ⟨ws, hws, hw⟩ := h'.tlm
  obtain ⟨b, hb⟩ := h.rxBuf
  obtain ⟨b', hb'⟩ := h'.rxBuf
  refine ⟨h'.state.trans h.state, h'.txEnabled.trans h.txEnabled, h'.rxEnabled.trans h.rxEnabled,
    h'.resetRequested.trans h.resetRequested, h'.inbox.trans h.inbox,
    h'.rngIssued.trans h.rngIssued, h'.rngTicks.trans h.rngTicks,
    h'.faultCause.trans h.faultCause, ⟨ps ++ qs, by simp [hqs, hps]⟩, ⟨vs ++ ws, by simp [hws, hvs],
    ?_⟩, b ++ b', by simp [hb, hb']⟩
  intro v hmem
  rcases List.mem_append.1 hmem with hmem | hmem
  · exact hv v hmem
  · exact hw v hmem

theorem drainLoop_drained (c : Cfg) (n : Nat) (m : Manager) : Drained m (drainLoop c n m).1 := by
  induction n generalizing m with
  | zero => exact .refl m
  | succ n ih =>
    unfold drainLoop
    split
    · exact .refl m
    · exact .refl m
    · rename_i v rest heq
      obtain ⟨k, -, -, -, rfl⟩ := decodeChunk_eq_chunk heq
      exact (Drained.emit v (taken := m.rxBuf.take k) (by simp)).trans (ih _)

/-- Where the loop has iterations enough, it stops at an incomplete chunk or at a bad class, which
it leaves at the front of the buffer. -/
theorem drainLoop_stops {c : Cfg} (hc : c.WellFormed) {n : Nat} {m : Manager}
    (h : m.rxBuf.length ≤ n) :
    match (drainLoop c n m).2 with
    | none => decodeChunk c (drainLoop c n m).1.rxBuf = .needMore
    | some t => decodeChunk c (drainLoop c n m).1.rxBuf = .badClass t := by
  induction n generalizing m with
  | zero =>
    have hnil : m.rxBuf = [] := List.length_eq_zero_iff.1 (by omega)
    simp [drainLoop, hnil, decodeChunk, chunkLen]
  | succ n ih =>
    cases heq : decodeChunk c m.rxBuf with
    | needMore => simp [drainLoop, heq]
    | badClass t => simp [drainLoop, heq]
    | chunk v rest =>
      have := decodeChunk_rest_length hc heq
      simp only [drainLoop, heq]
      exact ih (by simp; omega)

/-- More iterations than bytes change nothing. -/
theorem drainLoop_enough {c : Cfg} (hc : c.WellFormed) {n k : Nat} {m : Manager}
    (hn : m.rxBuf.length ≤ n) (hk : m.rxBuf.length ≤ k) : drainLoop c n m = drainLoop c k m := by
  induction n generalizing m k with
  | zero =>
    have hnil : m.rxBuf = [] := List.length_eq_zero_iff.1 (by omega)
    cases k <;> simp [drainLoop, hnil, decodeChunk, chunkLen]
  | succ n ih =>
    cases k with
    | zero =>
      have hnil : m.rxBuf = [] := List.length_eq_zero_iff.1 (by omega)
      simp [drainLoop, hnil, decodeChunk, chunkLen]
    | succ k =>
      cases heq : decodeChunk c m.rxBuf with
      | needMore => simp [drainLoop, heq]
      | badClass t => simp [drainLoop, heq]
      | chunk v rest =>
        have := decodeChunk_rest_length hc heq
        simp only [drainLoop, heq]
        exact ih (by simp; omega) (by simp; omega)

/-- One turn of the drain loop (R167). -/
theorem drain_chunk {c : Cfg} (hc : c.WellFormed) {m : Manager} {v : Chunk} {rest : List Byte}
    (h : decodeChunk c m.rxBuf = .chunk v rest) :
    drain c m = drain c (Manager.emit { m with rxBuf := rest } v) := by
  have hlt := decodeChunk_rest_length hc h
  unfold drain
  obtain ⟨k, hk⟩ : ∃ k, m.rxBuf.length = k + 1 := ⟨m.rxBuf.length - 1, by omega⟩
  rw [hk]
  simp only [drainLoop, h]
  exact drainLoop_enough hc (by simp; omega) (by simp)

theorem drain_needMore {c : Cfg} {m : Manager} (h : decodeChunk c m.rxBuf = .needMore) :
    drain c m = (m, none) := by
  unfold drain
  cases m.rxBuf.length <;> simp [drainLoop, h]

theorem drain_badClass {c : Cfg} {m : Manager} {t : Byte}
    (h : decodeChunk c m.rxBuf = .badClass t) : drain c m = (m, some t) := by
  unfold drain
  cases hb : m.rxBuf with
  | nil => simp [hb, decodeChunk, chunkLen] at h
  | cons b bs => rw [hb] at h; simp [drainLoop, hb, h]

/-- Draining stops at an incomplete chunk or at a bad class (R167). -/
theorem drain_stops {c : Cfg} (hc : c.WellFormed) (m : Manager) :
    match (drain c m).2 with
    | none => decodeChunk c (drain c m).1.rxBuf = .needMore
    | some t => decodeChunk c (drain c m).1.rxBuf = .badClass t :=
  drainLoop_stops hc (le_refl m.rxBuf.length)

theorem drain_drained (c : Cfg) (m : Manager) : Drained m (drain c m).1 :=
  drainLoop_drained c _ m

end Sys2Proof.Machine
end

