-- ==== Sys2Proof/Laws/Manager.lean ====
section
/-! SUPPORT. What a tick of each state can leave in the block's state, said once each
(42_manager.md R192 to R201, 60_exceptions.md R246, R248). -/

namespace Sys2Proof.Machine

/-! ### Going on or taking the transport fault -/

section

variable {α : Type} {m : Manager} {k : α → Port → Manager × Port}

@[simp] theorem orFault_ok (v : α) (p : Port) : orFault (.ok v, p) m k = k v p := rfl

@[simp] theorem orFault_error (e : Error) (p : Port) :
    orFault (.error e, p) m k = (m.enterFaulted .transport, p) := rfl

theorem orFault_cases (r : Prim α) :
    (∃ v, r.1 = .ok v ∧ orFault r m k = k v r.2) ∨
    (∃ e, r.1 = .error e ∧ orFault r m k = (m.enterFaulted .transport, r.2)) := by
  obtain ⟨x, p⟩ := r
  cases x with
  | ok v => exact .inl ⟨v, rfl, rfl⟩
  | error e => exact .inr ⟨e, rfl, rfl⟩

theorem orFault_extends {r : Prim α} {p : Port} {n j : Nat} (h : p.Extends r.2 n)
    (hk : ∀ v (q : Port), q.Extends (k v q).2 j) : p.Extends (orFault r m k).2 (n + j) := by
  rcases orFault_cases (m := m) (k := k) r with ⟨v, -, e⟩ | ⟨_, -, e⟩ <;> rw [e]
  · exact h.trans (hk v r.2)
  · exact h.mono (by omega)

end

/-! ### One lemma for each tick -/

theorem autorangingPoll_cases (c : Cfg) (m : Manager) (p : Port) :
    (autorangingPoll c m p).1 = m.enterFaulted .transport ∨
    (autorangingPoll c m p).1 = m.enterFaulted .rangingError ∨
    (autorangingPoll c m p).1 = { m with state := .idle } ∨
    (c.autorangeTimeoutTicks ≤ m.rngTicks ∧
      (autorangingPoll c m p).1 = m.enterFaulted .autorangeTimeout) ∨
    (m.rngTicks < c.autorangeTimeoutTicks ∧ (autorangingPoll c m p).1 = m) := by
  unfold autorangingPoll
  rcases orFault_cases (read c c.addrRng p) with ⟨s, -, e⟩ | ⟨_, -, e⟩ <;> rw [e]
  · rcases orFault_cases (read c c.addrXtalstatus (read c c.addrRng p).2) with
      ⟨x, -, e'⟩ | ⟨_, -, e'⟩ <;> rw [e']
    · split
      · exact .inr (.inl rfl)
      · split
        · exact .inr (.inr (.inl rfl))
        · split
          · exact .inr (.inr (.inr (.inl ⟨by assumption, rfl⟩)))
          · exact .inr (.inr (.inr (.inr ⟨by omega, rfl⟩)))
    · exact .inl rfl
  · exact .inl rfl

theorem tickAutoranging_cases (c : Cfg) (m : Manager) (p : Port) :
    (m.rngIssued = false ∧ (tickAutoranging c m p).1 = m.enterFaulted .transport) ∨
    ∃ q, (tickAutoranging c m p).1 =
      (autorangingPoll c { m with rngIssued := true, rngTicks := m.rngTicks + 1 } q).1 := by
  unfold tickAutoranging
  split
  · rename_i h
    refine .inr ⟨p, ?_⟩
    rw [← h]
  · rename_i h
    have hf : m.rngIssued = false := by simpa using h
    rcases orFault_cases (cmdPwrStandby c p) with ⟨v, -, e⟩ | ⟨_, -, e⟩ <;> rw [e]
    · rcases orFault_cases (cmdRngStart c (cmdPwrStandby c p).2) with
        ⟨w, -, e'⟩ | ⟨_, -, e'⟩ <;> rw [e']
      · exact .inr ⟨_, rfl⟩
      · exact .inl ⟨hf, rfl⟩
    · exact .inl ⟨hf, rfl⟩

theorem enterTransmitting_cases (c : Cfg) (d : List Byte) (m : Manager) (p : Port) :
    (enterTransmitting c d m p).1 = m.enterFaulted .transport ∨
    (enterTransmitting c d m p).1 = { m with inbox := m.inbox.tail, state := .transmitting } := by
  unfold enterTransmitting
  rcases orFault_cases (writeFifoData c d p) with ⟨_, -, e⟩ | ⟨_, -, e⟩ <;> rw [e]
  · rcases orFault_cases (cmdCommit c (writeFifoData c d p).2) with ⟨_, -, e'⟩ | ⟨_, -, e'⟩ <;>
      rw [e']
    · rcases orFault_cases (cmdPwrFulltx c (cmdCommit c (writeFifoData c d p).2).2) with
        ⟨_, -, e''⟩ | ⟨_, -, e''⟩ <;> rw [e'']
      · exact .inr rfl
      · exact .inl rfl
    · exact .inl rfl
  · exact .inl rfl

theorem enterReceiving_cases (c : Cfg) (m : Manager) (p : Port) :
    (enterReceiving c m p).1 = m.enterFaulted .transport ∨
    (enterReceiving c m p).1 = { m with rxBuf := [], state := .receiving } := by
  unfold enterReceiving
  rcases orFault_cases (cmdPwrFullrx c p) with ⟨_, -, e⟩ | ⟨_, -, e⟩ <;> rw [e]
  · exact .inr rfl
  · exact .inl rfl

/-- An Idle tick enters Transmitting with an intent and a payload, else Receiving with an intent,
and else does nothing (R194, R197). -/
theorem tickIdle_cases (c : Cfg) (m : Manager) (p : Port) :
    (∃ d ds, m.txEnabled = true ∧ m.inbox = d :: ds ∧
      tickIdle c m p = enterTransmitting c d m p) ∨
    ((m.txEnabled = false ∨ m.inbox = []) ∧ m.rxEnabled = true ∧
      tickIdle c m p = enterReceiving c m p) ∨
    ((m.txEnabled = false ∨ m.inbox = []) ∧ m.rxEnabled = false ∧ tickIdle c m p = (m, p)) := by
  unfold tickIdle
  cases htx : m.txEnabled with
  | false =>
    cases hrx : m.rxEnabled with
    | true => exact .inr (.inl ⟨.inl rfl, rfl, rfl⟩)
    | false => exact .inr (.inr ⟨.inl rfl, rfl, rfl⟩)
  | true =>
    cases hin : m.inbox with
    | cons d ds => exact .inl ⟨d, ds, rfl, rfl, rfl⟩
    | nil =>
      cases hrx : m.rxEnabled with
      | true => exact .inr (.inl ⟨.inr rfl, rfl, rfl⟩)
      | false => exact .inr (.inr ⟨.inr rfl, rfl, rfl⟩)

theorem tickTransmitting_cases (c : Cfg) (m : Manager) (p : Port) :
    (tickTransmitting c m p).1 = m.enterFaulted .transport ∨
    (tickTransmitting c m p).1 = m.enterFaulted .txFault ∨
    (tickTransmitting c m p).1 = { m with state := .idle } ∨
    (tickTransmitting c m p).1 = m := by
  unfold tickTransmitting
  rcases orFault_cases (read c c.addrFault p) with ⟨f, -, e⟩ | ⟨_, -, e⟩ <;> rw [e]
  · split
    · exact .inr (.inl rfl)
    · rcases orFault_cases (read c c.addrTxdone (read c c.addrFault p).2) with
        ⟨d, -, e'⟩ | ⟨_, -, e'⟩ <;> rw [e']
      · split
        · rcases orFault_cases
            (cmdPwrStandby c (read c c.addrTxdone (read c c.addrFault p).2).2) with
            ⟨_, -, e''⟩ | ⟨_, -, e''⟩ <;> rw [e'']
          · exact .inr (.inr (.inl rfl))
          · exact .inl rfl
        · exact .inr (.inr (.inr rfl))
      · exact .inl rfl
  · exact .inl rfl

theorem memRead_length {c : Cfg} {a n : Nat} {p : Port} {vs : List Byte}
    (h : (memRead c a n p).1 = .ok vs) : vs.length = n := by
  cases hs : inSpace c a n with
  | false => simp [memRead_out p hs] at h
  | true =>
    cases hf : p.nextDraw.fails with
    | true => simp [memRead_fails hs hf] at h
    | false =>
      rw [memRead_ok hs hf] at h
      simp only [Except.ok.injEq] at h
      simp [← h]

theorem readFifo_length {c : Cfg} {n : Nat} {p : Port} {vs : List Byte}
    (h : (readFifo c n p).1 = .ok vs) : vs.length = n := by
  by_cases hn : n = 0
  · subst hn; simpa using h.symm
  · rw [readFifo_pos p hn] at h; exact memRead_length h

theorem tickReceiving_cases (c : Cfg) (m : Manager) (p : Port) :
    (tickReceiving c m p).1 = m.enterFaulted .transport ∨
    (tickReceiving c m p).1 = m.enterFaulted .rxFault ∨
    (m.rxEnabled = false ∧ (tickReceiving c m p).1 = { m with state := .idle }) ∨
    (m.rxEnabled = true ∧ (tickReceiving c m p).1 = m.enterFaulted .fifoCount) ∨
    (m.rxEnabled = true ∧ ∃ bs : List Byte, bs.length ≤ c.fifoDepth ∧
      (tickReceiving c m p).1 = receiveBytes c m bs) := by
  unfold tickReceiving
  rcases orFault_cases (read c c.addrFault p) with ⟨f, -, e⟩ | ⟨_, -, e⟩ <;> rw [e]
  · split
    · exact .inr (.inl rfl)
    · split
      · rename_i hrx
        rcases orFault_cases (cmdPwrStandby c (read c c.addrFault p).2) with
          ⟨_, -, e'⟩ | ⟨_, -, e'⟩ <;> rw [e']
        · exact .inr (.inr (.inl ⟨by simpa using hrx, rfl⟩))
        · exact .inl rfl
      · rename_i hrx
        have hrx' : m.rxEnabled = true := by simpa using hrx
        rcases orFault_cases (read16 c c.addrFifocount (read c c.addrFault p).2) with
          ⟨n, -, e'⟩ | ⟨_, -, e'⟩ <;> rw [e']
        · split
          · exact .inr (.inr (.inr (.inl ⟨hrx', rfl⟩)))
          · rename_i hd
            rcases orFault_cases (readFifo c n.toNat
                (read16 c c.addrFifocount (read c c.addrFault p).2).2) with
              ⟨bs, hbs, e''⟩ | ⟨_, -, e''⟩ <;> rw [e'']
            · have := readFifo_length hbs
              exact .inr (.inr (.inr (.inr ⟨hrx', bs, by omega, rfl⟩)))
            · exact .inl rfl
        · exact .inl rfl
  · exact .inl rfl

/-- Draining after an append: the buffer is left with an incomplete chunk, or the block is Faulted
with the bad tag at the buffer's front (R199, 60_exceptions.md R249). -/
theorem receiveBytes_cases {c : Cfg} (hc : c.WellFormed) (m : Manager) (bs : List Byte) :
    ∃ m', Drained { m with rxBuf := m.rxBuf ++ bs } m' ∧
      ((decodeChunk c m'.rxBuf = .needMore ∧ receiveBytes c m bs = m') ∨
       (∃ t, decodeChunk c m'.rxBuf = .badClass t ∧
          receiveBytes c m bs = m'.enterFaulted .decodeBadclass)) := by
  have hd := drain_drained c { m with rxBuf := m.rxBuf ++ bs }
  have hs := drain_stops hc { m with rxBuf := m.rxBuf ++ bs }
  refine ⟨_, hd, ?_⟩
  cases hr : drain c { m with rxBuf := m.rxBuf ++ bs } with
  | mk m' bad =>
    rw [hr] at hs
    cases bad with
    | none => exact .inl ⟨hs, by simp [receiveBytes, hr]⟩
    | some t => exact .inr ⟨t, hs, by simp [receiveBytes, hr]⟩

/-! ### `dispatch()` by the state it starts in -/

section

variable {c : Cfg} {m : Manager} {p : Port}

theorem dispatch_autoranging (h : m.state = .autoranging) :
    dispatch c m p = tickAutoranging c { m with resetRequested := false } p := by
  cases m; subst h; rfl

theorem dispatch_idle (h : m.state = .idle) :
    dispatch c m p = tickIdle c { m with resetRequested := false } p := by
  cases m; subst h; rfl

theorem dispatch_transmitting (h : m.state = .transmitting) :
    dispatch c m p = tickTransmitting c { m with resetRequested := false } p := by
  cases m; subst h; rfl

theorem dispatch_receiving (h : m.state = .receiving) :
    dispatch c m p = tickReceiving c { m with resetRequested := false } p := by
  cases m; subst h; rfl

theorem dispatch_faulted (h : m.state = .faulted) :
    dispatch c m p = tickFaulted m.resetRequested { m with resetRequested := false } p := by
  cases m; subst h; rfl

end

theorem tickFaulted_true (m : Manager) (p : Port) : tickFaulted true m p = (m.faultReset, p) := rfl

theorem tickFaulted_false (m : Manager) (p : Port) : tickFaulted false m p = (m, p) := rfl

end Sys2Proof.Machine
end

