-- ==== Sys2Proof/Laws/PerInstr.lean ====
section
/-! SUPPORT. One lemma for each instruction: how long its encoding is. A bus transaction shifts out a
header and at least one byte (30_encoding.md R84 to R89), a chunk has 1 to 257 bytes (41_chunk_decoder.md
R152), and a host operation has no encoding (30_encoding.md R102). -/

namespace Sys2Proof.Laws.EncodingSize

open Sys2Proof.Machine

/-- The encoding of a well-formed instruction has a length its stream admits. -/
def Statement (i : Instr) : Prop :=
  ∀ (c : Cfg) (bs : List Byte), c.WellFormed → i.wellFormed c = true → encode c i = some bs →
    match i.stream with
    | .bus => 2 ≤ bs.length
    | .chunk => 1 ≤ bs.length ∧ bs.length ≤ 257
    | .host => False

theorem header_pos (a : Nat) (d : Dir) : 1 ≤ (header a d).length := by
  unfold header
  split <;> simp

theorem busWrShort (a : BitVec 7) (data : List Byte) : Statement (.busWrShort a data) := by
  intro c bs hc hw he
  have := header_pos a.toNat .write
  obtain rfl := Option.some.inj he
  show 2 ≤ _
  simp only [Instr.wellFormed, Bool.and_eq_true, decide_eq_true_eq] at hw
  have hd := List.length_pos_iff.2 hw.2
  simp only [List.length_append]
  omega

theorem busWrLong (a : BitVec 12) (data : List Byte) : Statement (.busWrLong a data) := by
  intro c bs hc hw he
  have := header_pos a.toNat .write
  obtain rfl := Option.some.inj he
  show 2 ≤ _
  simp only [Instr.wellFormed, Bool.and_eq_true, decide_eq_true_eq] at hw
  have hd := List.length_pos_iff.2 hw.2
  simp only [List.length_append]
  omega

theorem busRdShort (a : BitVec 7) (n : Nat) : Statement (.busRdShort a n) := by
  intro c bs hc hw he
  have := header_pos a.toNat .read
  obtain rfl := Option.some.inj he
  show 2 ≤ _
  simp only [Instr.wellFormed, Bool.and_eq_true, decide_eq_true_eq] at hw
  simp only [List.length_append, List.length_replicate]
  omega

theorem busRdLong (a : BitVec 12) (n : Nat) : Statement (.busRdLong a n) := by
  intro c bs hc hw he
  have := header_pos a.toNat .read
  obtain rfl := Option.some.inj he
  show 2 ≤ _
  simp only [Instr.wellFormed, Bool.and_eq_true, decide_eq_true_eq] at hw
  simp only [List.length_append, List.length_replicate]
  omega

theorem fifoTxData (payload : List Byte) : Statement (.fifoTxData payload) := by
  intro c bs hc hw he
  obtain rfl := Option.some.inj he
  show 2 ≤ _
  simp only [fifoFrame, fifoFrameData, List.length_append, List.length_cons]
  omega

theorem cmdCommit : Statement (.cmdCommit) := by
  intro c bs hc hw he
  obtain rfl := Option.some.inj he
  show 2 ≤ _
  have := header_pos c.addrFifostat .write
  simp only [commandFrame, List.length_append, List.length_singleton]
  omega

theorem cmdPwrStandby : Statement (.cmdPwrStandby) := by
  intro c bs hc hw he
  obtain rfl := Option.some.inj he
  show 2 ≤ _
  have := header_pos c.addrPwrmode .write
  simp only [commandFrame, List.length_append, List.length_singleton]
  omega

theorem cmdPwrFulltx : Statement (.cmdPwrFulltx) := by
  intro c bs hc hw he
  obtain rfl := Option.some.inj he
  show 2 ≤ _
  have := header_pos c.addrPwrmode .write
  simp only [commandFrame, List.length_append, List.length_singleton]
  omega

theorem cmdPwrFullrx : Statement (.cmdPwrFullrx) := by
  intro c bs hc hw he
  obtain rfl := Option.some.inj he
  show 2 ≤ _
  have := header_pos c.addrPwrmode .write
  simp only [commandFrame, List.length_append, List.length_singleton]
  omega

theorem cmdRngStart : Statement (.cmdRngStart) := by
  intro c bs hc hw he
  obtain rfl := Option.some.inj he
  show 2 ≤ _
  have := header_pos c.addrRng .write
  simp only [commandFrame, List.length_append, List.length_singleton]
  omega

theorem chkRssi (b1 : Byte) : Statement (.chkRssi b1) := by
  intro c bs hc hw he
  obtain rfl := Option.some.inj he
  show 1 ≤ _ ∧ _ ≤ 257
  simp

theorem chkFreqoffs (b1 b2 : Byte) : Statement (.chkFreqoffs b1 b2) := by
  intro c bs hc hw he
  obtain rfl := Option.some.inj he
  show 1 ≤ _ ∧ _ ≤ 257
  simp

theorem chkAntrssi2 (b1 b2 : Byte) : Statement (.chkAntrssi2 b1 b2) := by
  intro c bs hc hw he
  obtain rfl := Option.some.inj he
  show 1 ≤ _ ∧ _ ≤ 257
  simp

theorem chkTimer (b1 b2 b3 : Byte) : Statement (.chkTimer b1 b2 b3) := by
  intro c bs hc hw he
  obtain rfl := Option.some.inj he
  show 1 ≤ _ ∧ _ ≤ 257
  simp

theorem chkRffreqoffs (b1 b2 b3 : Byte) : Statement (.chkRffreqoffs b1 b2 b3) := by
  intro c bs hc hw he
  obtain rfl := Option.some.inj he
  show 1 ≤ _ ∧ _ ≤ 257
  simp

theorem chkDatarate (b1 b2 b3 : Byte) : Statement (.chkDatarate b1 b2 b3) := by
  intro c bs hc hw he
  obtain rfl := Option.some.inj he
  show 1 ≤ _ ∧ _ ≤ 257
  simp

theorem chkAntrssi3 (b1 b2 b3 : Byte) : Statement (.chkAntrssi3 b1 b2 b3) := by
  intro c bs hc hw he
  obtain rfl := Option.some.inj he
  show 1 ≤ _ ∧ _ ≤ 257
  simp

theorem chkData (flags : Byte) (payload : List Byte) : Statement (.chkData flags payload) := by
  intro c bs hc hw he
  simp only [Instr.wellFormed, decide_eq_true_eq] at hw
  obtain rfl := Option.some.inj he
  show 1 ≤ _ ∧ _ ≤ 257
  simp only [List.length_cons]
  omega

theorem chkUnknownC0 (t : Byte) : Statement (.chkUnknownC0 t) := by
  intro c bs hc hw he
  obtain rfl := Option.some.inj he
  show 1 ≤ _ ∧ _ ≤ 257
  simp

theorem chkUnknownC1 (t b1 : Byte) : Statement (.chkUnknownC1 t b1) := by
  intro c bs hc hw he
  obtain rfl := Option.some.inj he
  show 1 ≤ _ ∧ _ ≤ 257
  simp

theorem chkUnknownC2 (t b1 b2 : Byte) : Statement (.chkUnknownC2 t b1 b2) := by
  intro c bs hc hw he
  obtain rfl := Option.some.inj he
  show 1 ≤ _ ∧ _ ≤ 257
  simp

theorem chkUnknownC3 (t b1 b2 b3 : Byte) : Statement (.chkUnknownC3 t b1 b2 b3) := by
  intro c bs hc hw he
  obtain rfl := Option.some.inj he
  show 1 ≤ _ ∧ _ ≤ 257
  simp

theorem chkUnknownC7 (t : Byte) (body : List Byte) : Statement (.chkUnknownC7 t body) := by
  intro c bs hc hw he
  simp only [Instr.wellFormed, decide_eq_true_eq] at hw
  obtain rfl := Option.some.inj he
  show 1 ≤ _ ∧ _ ≤ 257
  simp only [List.length_cons]
  omega

theorem chkBadclass (t : Byte) (body : List Byte) : Statement (.chkBadclass t body) := by
  intro c bs hc hw he
  simp only [Instr.wellFormed, Bool.and_eq_true, decide_eq_true_eq] at hw
  obtain rfl := Option.some.inj he
  show 1 ≤ _ ∧ _ ≤ 257
  simp only [List.length_cons]
  cases hl : configuredLen c t with
  | none => simp [hl] at hw; simp [hw]
  | some n =>
    have hn := (configuredLen_bounds hc hl).2
    simp [hl] at hw
    omega

theorem tick : Statement (.tick) := by
  intro c bs _ _ he
  exact nomatch (show (none : Option (List Byte)) = some bs from he)

theorem setTx (b : Bool) : Statement (.setTx b) := by
  intro c bs _ _ he
  exact nomatch (show (none : Option (List Byte)) = some bs from he)

theorem setRx (b : Bool) : Statement (.setRx b) := by
  intro c bs _ _ he
  exact nomatch (show (none : Option (List Byte)) = some bs from he)

theorem setReset (b : Bool) : Statement (.setReset b) := by
  intro c bs _ _ he
  exact nomatch (show (none : Option (List Byte)) = some bs from he)

theorem push (p : List Byte) : Statement (.push p) := by
  intro c bs _ _ he
  exact nomatch (show (none : Option (List Byte)) = some bs from he)

theorem isFaulted : Statement (.isFaulted) := by
  intro c bs _ _ he
  exact nomatch (show (none : Option (List Byte)) = some bs from he)

theorem getState : Statement (.getState) := by
  intro c bs _ _ he
  exact nomatch (show (none : Option (List Byte)) = some bs from he)

theorem takeRxdata : Statement (.takeRxdata) := by
  intro c bs _ _ he
  exact nomatch (show (none : Option (List Byte)) = some bs from he)

theorem takeTlm : Statement (.takeTlm) := by
  intro c bs _ _ he
  exact nomatch (show (none : Option (List Byte)) = some bs from he)

theorem getFaultCause : Statement (.getFaultCause) := by
  intro c bs _ _ he
  exact nomatch (show (none : Option (List Byte)) = some bs from he)

theorem execute (batch : List (Nat × Byte)) : Statement (.execute batch) := by
  intro c bs _ _ he
  exact nomatch (show (none : Option (List Byte)) = some bs from he)

theorem read (a : Nat) : Statement (.read a) := by
  intro c bs _ _ he
  exact nomatch (show (none : Option (List Byte)) = some bs from he)

theorem read16 (a : Nat) : Statement (.read16 a) := by
  intro c bs _ _ he
  exact nomatch (show (none : Option (List Byte)) = some bs from he)

theorem writeFifoData (p : List Byte) : Statement (.writeFifoData p) := by
  intro c bs _ _ he
  exact nomatch (show (none : Option (List Byte)) = some bs from he)

theorem readFifo (n : Nat) : Statement (.readFifo n) := by
  intro c bs _ _ he
  exact nomatch (show (none : Option (List Byte)) = some bs from he)

theorem decodeChunk (buf : List Byte) : Statement (.decodeChunk buf) := by
  intro c bs _ _ he
  exact nomatch (show (none : Option (List Byte)) = some bs from he)

end Sys2Proof.Laws.EncodingSize
end

