-- ==== Sys2Proof/Tests/Slice0.lean ====
section
/-! SUPPORT. Tests: the words of the spec's encodings, the vectors of 95_test_vectors.md, an ill-formed
term for each check of WellFormed, and, for every statement with hypotheses, a state and operands
that meet them (`witness_…`). -/

namespace Sys2Proof.Tests

open Sys2Proof.Machine

/-- The `CFG` of the vectors (95_test_vectors.md, conventions): the reference with T = 3. -/
def vectorCfg : Cfg := { Cfg.reference with autorangeTimeoutTicks := 3 }

/-- A `CFG` in which class 4 has a length (95_test_vectors.md V5). -/
def lengthCfg : Cfg := { vectorCfg with classLen4 := some 2 }

/-- A transaction that completes with these response bytes; byte 0 is the echo. -/
def answered (bytes : List Byte) : Draw := { fails := false, bytes := 0xEE#8 :: bytes }

/-- A transaction that fails. -/
def failed : Draw := { fails := true, bytes := [] }

/-- A block with this state and these answers to come. -/
def block (m : Manager) (env : List Draw) : State :=
  { State.construct vectorCfg with mgr := m, port := { Port.initial with env := env } }

/-- The reset state with these answers to come. -/
def fresh (env : List Draw) : State := block Manager.initial env

/-- The block's elements in a state of its five, the others as at reset. -/
def inState (s : MgrState) : Manager := { Manager.initial with state := s }

/-- The next state, where there is one. -/
def nextOf : Host.Outcome State Fault Refusal → Option State
  | .next t => some t
  | _ => none

/-- What an instruction returns. -/
def returned (i : Instr) (s : State) : Option Result := (nextOf (exec i s)).map (·.ret)

/-- What an instruction adds to an empty bus trace. -/
def traced (i : Instr) (s : State) : Option (List Transaction) :=
  (nextOf (exec i s)).map (·.port.trace)

/-- The block's elements after an instruction. -/
def left (i : Instr) (s : State) : Option Manager := (nextOf (exec i s)).map (·.mgr)

/-! ### Well-formedness: an ill-formed term for each check -/

theorem test_wf_wr_short_high : Instr.wellFormed vectorCfg (.busWrShort 0x70 [0x01]) = false := by
  decide
theorem test_wf_wr_short_empty : Instr.wellFormed vectorCfg (.busWrShort 0x02 []) = false := by
  decide
theorem test_wf_wr_long_low : Instr.wellFormed vectorCfg (.busWrLong 0x06F [0x01]) = false := by
  decide
theorem test_wf_wr_long_empty : Instr.wellFormed vectorCfg (.busWrLong 0x100 []) = false := by
  decide
theorem test_wf_rd_short_high : Instr.wellFormed vectorCfg (.busRdShort 0x70 1) = false := by decide
theorem test_wf_rd_short_empty : Instr.wellFormed vectorCfg (.busRdShort 0x02 0) = false := by decide
theorem test_wf_rd_long_low : Instr.wellFormed vectorCfg (.busRdLong 0x06F 1) = false := by decide
theorem test_wf_rd_long_empty : Instr.wellFormed vectorCfg (.busRdLong 0x100 0) = false := by decide
theorem test_wf_fifo_long :
    Instr.wellFormed vectorCfg (.fifoTxData (List.replicate 255 0x00#8)) = false := by
  simp only [Instr.wellFormed, List.length_replicate]; decide
theorem test_wf_data_long :
    Instr.wellFormed vectorCfg (.chkData 0x03 (List.replicate 255 0x00#8)) = false := by
  simp only [Instr.wellFormed, List.length_replicate]; decide
theorem test_wf_unknown0_class : Instr.wellFormed vectorCfg (.chkUnknownC0 0x20) = false := by decide
theorem test_wf_unknown1_class : Instr.wellFormed vectorCfg (.chkUnknownC1 0x00 0x00) = false := by
  decide
theorem test_wf_unknown1_rssi : Instr.wellFormed vectorCfg (.chkUnknownC1 0x31 0x00) = false := by
  decide
theorem test_wf_unknown2_class :
    Instr.wellFormed vectorCfg (.chkUnknownC2 0x60 0x00 0x00) = false := by decide
theorem test_wf_unknown2_tags :
    Instr.wellFormed vectorCfg (.chkUnknownC2 0x52 0x00 0x00) = false ∧
    Instr.wellFormed vectorCfg (.chkUnknownC2 0x55 0x00 0x00) = false := by decide
theorem test_wf_unknown3_class :
    Instr.wellFormed vectorCfg (.chkUnknownC3 0x40 0x00 0x00 0x00) = false := by decide
theorem test_wf_unknown3_tags : ∀ t ∈ [0x70#8, 0x73#8, 0x74#8, 0x75#8],
    Instr.wellFormed vectorCfg (.chkUnknownC3 t 0x00 0x00 0x00) = false := by decide
theorem test_wf_unknown7_class : Instr.wellFormed vectorCfg (.chkUnknownC7 0xDF []) = false := by
  decide
theorem test_wf_unknown7_data : Instr.wellFormed vectorCfg (.chkUnknownC7 0xE1 [0x00]) = false := by
  decide
theorem test_wf_unknown7_long :
    Instr.wellFormed vectorCfg (.chkUnknownC7 0xE0 (List.replicate 256 0x00#8)) = false := by
  simp only [Instr.wellFormed, List.length_replicate]; decide
theorem test_wf_badclass_class : Instr.wellFormed vectorCfg (.chkBadclass 0xE0 []) = false := by
  decide
theorem test_wf_badclass_no_length :
    Instr.wellFormed vectorCfg (.chkBadclass 0x80 [0x11]) = false := by decide
theorem test_wf_badclass_length : Instr.wellFormed lengthCfg (.chkBadclass 0x80 []) = false := by
  decide
theorem test_wf_batch_twice :
    Instr.wellFormed vectorCfg (.execute [(0x002, 0x01), (0x002, 0x02)]) = false := by decide

theorem test_cfg_wf : vectorCfg.WellFormed ∧ lengthCfg.WellFormed := by decide
theorem test_cfg_address : ¬ ({ vectorCfg with addrRng := 0x1000 } : Cfg).WellFormed := by decide
theorem test_cfg_count : ¬ ({ vectorCfg with addrFifocount := 0xFFF } : Cfg).WellFormed := by decide
theorem test_cfg_distinct : ¬ ({ vectorCfg with tagTimer := 0x74 } : Cfg).WellFormed := by decide
theorem test_cfg_class2 : ¬ ({ vectorCfg with tagFreqoffs := 0x32 } : Cfg).WellFormed := by decide
theorem test_cfg_class3 : ¬ ({ vectorCfg with tagAntrssi3 := 0x5A } : Cfg).WellFormed := by decide
theorem test_cfg_length : ¬ ({ vectorCfg with classLen6 := some 258 } : Cfg).WellFormed := by decide
theorem test_cfg_timeout : ¬ ({ vectorCfg with autorangeTimeoutTicks := 0 } : Cfg).WellFormed := by
  decide

/-! ### Encodings: a word written out for each row with a wire encoding -/

-- 30_encoding.md R86, R87; 95_test_vectors.md S1, V1, V2.
theorem test_decode_wr_short :
    decodeFrame vectorCfg [0b10000010#8, 0x50#8, 0x10#8] = .ok (.busWrShort 0x02 [0x50, 0x10]) := by
  decide
theorem test_decode_wr_long :
    decodeFrame vectorCfg [0b11110001#8, 0b00100011#8, 0x7F#8] = .ok (.busWrLong 0x123 [0x7F]) := by
  decide
theorem test_decode_rd_short :
    decodeFrame vectorCfg [0b01101111#8, 0x00#8, 0x00#8] = .ok (.busRdShort 0x6F 2) := by decide
theorem test_decode_rd_long :
    decodeFrame vectorCfg [0b01111010#8, 0b10111100#8, 0x00#8] = .ok (.busRdLong 0xABC 1) := by decide
-- 95_test_vectors.md V4 and the command table.
theorem test_decode_fifo :
    decodeFrame vectorCfg [0xA9#8, 0xE1#8, 0x04#8, 0x03#8, 0x01#8, 0x02#8, 0x03#8] =
      .ok (.fifoTxData [0x01, 0x02, 0x03]) := by decide
theorem test_decode_commit : decodeFrame vectorCfg [0xA8#8, 0x04#8] = .ok .cmdCommit := by decide
theorem test_decode_standby : decodeFrame vectorCfg [0x82#8, 0x05#8] = .ok .cmdPwrStandby := by decide
theorem test_decode_fulltx : decodeFrame vectorCfg [0x82#8, 0x0D#8] = .ok .cmdPwrFulltx := by decide
theorem test_decode_fullrx : decodeFrame vectorCfg [0x82#8, 0x09#8] = .ok .cmdPwrFullrx := by decide
theorem test_decode_rng_start : decodeFrame vectorCfg [0xB3#8, 0x18#8] = .ok .cmdRngStart := by decide
-- 93_implementation_defined.md U7: a long form naming a short address is refused.
theorem test_decode_long_low :
    decodeFrame vectorCfg [0xF0#8, 0x6F#8, 0x00#8] = .error .longFormShortAddress := by decide
theorem test_decode_header_only : decodeFrame vectorCfg [0x82#8] = .error .headerOnlyFrame := by decide
theorem test_decode_fill :
    decodeFrame vectorCfg [0x33#8, 0x01#8] = .error .fillNotZero := by decide
-- 41_chunk_decoder.md R153 to R166, the examples of each rule.
theorem test_decode_rssi : fetchChunk vectorCfg [0x31#8, 0xEC#8] = .instr (.chkRssi 0xEC) [] := by
  decide
theorem test_decode_freqoffs :
    fetchChunk vectorCfg [0x52#8, 0x12#8, 0x34#8] = .instr (.chkFreqoffs 0x12 0x34) [] := by decide
theorem test_decode_antrssi2 :
    fetchChunk vectorCfg [0x55#8, 0xF6#8, 0x0A#8] = .instr (.chkAntrssi2 0xF6 0x0A) [] := by decide
theorem test_decode_timer :
    fetchChunk vectorCfg [0x70#8, 0x01#8, 0x02#8, 0x03#8] =
      .instr (.chkTimer 0x01 0x02 0x03) [] := by decide
theorem test_decode_rffreqoffs :
    fetchChunk vectorCfg [0x73#8, 0x00#8, 0x10#8, 0x00#8] =
      .instr (.chkRffreqoffs 0x00 0x10 0x00) [] := by decide
theorem test_decode_datarate :
    fetchChunk vectorCfg [0x74#8, 0x00#8, 0x25#8, 0x80#8, 0x00#8] =
      .instr (.chkDatarate 0x00 0x25 0x80) [0x00] := by decide
theorem test_decode_antrssi3 :
    fetchChunk vectorCfg [0x75#8, 0x10#8, 0x20#8, 0x30#8] =
      .instr (.chkAntrssi3 0x10 0x20 0x30) [] := by decide
theorem test_decode_data :
    fetchChunk vectorCfg [0xE1#8, 0x02#8, 0x13#8, 0xAA#8] = .instr (.chkData 0x13 [0xAA]) [] := by
  decide
theorem test_decode_unknown0 :
    fetchChunk vectorCfg [0x00#8, 0x31#8, 0x05#8] = .instr (.chkUnknownC0 0x00) [0x31, 0x05] := by
  decide
theorem test_decode_unknown1 :
    fetchChunk vectorCfg [0x3C#8, 0x07#8] = .instr (.chkUnknownC1 0x3C 0x07) [] := by decide
theorem test_decode_unknown2 :
    fetchChunk vectorCfg [0x40#8, 0x01#8, 0x02#8] = .instr (.chkUnknownC2 0x40 0x01 0x02) [] := by
  decide
theorem test_decode_unknown3 :
    fetchChunk vectorCfg [0x62#8, 0xAA#8, 0xBB#8, 0xCC#8] =
      .instr (.chkUnknownC3 0x62 0xAA 0xBB 0xCC) [] := by decide
theorem test_decode_unknown7 :
    fetchChunk vectorCfg [0xFD#8, 0x02#8, 0x01#8, 0x02#8, 0x31#8] =
      .instr (.chkUnknownC7 0xFD [0x01, 0x02]) [0x31] := by decide
theorem test_decode_unknown7_e1 :
    fetchChunk vectorCfg [0xE1#8, 0x00#8] = .instr (.chkUnknownC7 0xE1 []) [] := by decide
theorem test_decode_badclass :
    fetchChunk vectorCfg [0x9A#8, 0x00#8] = .instr (.chkBadclass 0x9A []) [0x9A, 0x00] := by decide
theorem test_decode_badclass_length :
    fetchChunk lengthCfg [0x80#8, 0x11#8, 0x31#8] = .instr (.chkBadclass 0x80 [0x11]) [0x31] := by
  decide

-- 95_test_vectors.md V1, the write and read headers at the ends of the two ranges.
theorem test_headers :
    header 0x06F .write = [0xEF#8] ∧ header 0x070 .write = [0xF0#8, 0x70#8] ∧
    header 0xFFF .write = [0xFF#8, 0xFF#8] ∧ header 0x070 .read = [0x70#8, 0x70#8] ∧
    header 0x0FF .read = [0x70#8, 0xFF#8] ∧ header 0xFFF .read = [0x7F#8, 0xFF#8] := by decide

/-! ### Vectors -/

-- 95_test_vectors.md V5.
theorem test_rssi : returned (.chkRssi 0x80) (fresh []) =
    some (.decoded (.chunk (.rssi (-128)) [])) := by decide
theorem test_freqoffs : returned (.chkFreqoffs 0xFF 0xFF) (fresh []) =
    some (.decoded (.chunk (.frequencyOffset 65535#16) [])) := by decide
theorem test_antrssi2 : returned (.chkAntrssi2 0xF6 0x0A) (fresh []) =
    some (.decoded (.chunk (.antennaRssiPair (-10) 10) [])) := by decide
theorem test_timer : returned (.chkTimer 0x01 0x02 0x03) (fresh []) =
    some (.decoded (.chunk (.timer 66051#24) [])) := by decide
theorem test_rffreqoffs : returned (.chkRffreqoffs 0xFF 0xFF 0xFE) (fresh []) =
    some (.decoded (.chunk (.rfFrequencyOffset 16777214#24) [])) := by decide
theorem test_datarate : returned (.chkDatarate 0x00 0x25 0x80) (fresh []) =
    some (.decoded (.chunk (.dataRate 9600#24) [])) := by decide
theorem test_unknown7 : returned (.chkUnknownC7 0xFD [0x01, 0x02]) (fresh []) =
    some (.decoded (.chunk (.unknown [0xFD, 0x02, 0x01, 0x02]) [])) := by decide
theorem test_badclass : returned (.chkBadclass 0x9A []) (fresh []) =
    some (.decoded (.badClass 0x9A)) := by decide
-- 30_encoding.md R94: an exact tag takes precedence over its class.
theorem test_unknown1_exact : returned (.chkUnknownC1 0x31 0x05) (fresh []) =
    some (.decoded (.chunk (.rssi 5) [])) := by decide
theorem test_decode_chunk : returned (.decodeChunk [0x31, 0xFF, 0x31]) (fresh []) =
    some (.decoded (.chunk (.rssi (-1)) [0x31])) := by decide
theorem test_decode_chunk_short : returned (.decodeChunk [0x74, 0x01]) (fresh []) =
    some (.decoded .needMore) := by decide

-- 95_test_vectors.md V2.
theorem test_execute :
    traced (.execute [(0x010, 0x01), (0x002, 0x50), (0x003, 0x10)])
        (fresh [answered [], answered []]) =
      some [.write [0x82, 0x50, 0x10] true, .write [0x90, 0x01] true] := by decide
theorem test_execute_boundary :
    traced (.execute [(0x06F, 0x01), (0x070, 0x02)]) (fresh [answered []]) =
      some [.write [0xEF, 0x01, 0x02] true] := by decide
-- 40_bus_primitives.md R122: a batch is a map; each of its keys is written once.
theorem test_execute_map :
    traced (.execute [(0x002, 0x01), (0x003, 0x10), (0x002, 0x50)]) (fresh [answered []]) =
      some [.write [0x82, 0x50, 0x10] true] := by decide
-- 95_test_vectors.md V3.
theorem test_read : returned (.read 0x01D) (fresh [answered [0x01]]) = some (.byte 0x01) := by decide
theorem test_read_fails :
    returned (.read 0x033) (fresh [failed]) = some (.raised .transportError) := by decide
theorem test_read16 :
    returned (.read16 0x02A) (fresh [answered [0x01, 0x02]]) = some (.word 0x0102) := by decide
theorem test_read16_high : returned (.read16 0xFFF) (fresh []) =
    some (.raised (.addressOutOfRange 0xFFF)) := by decide
-- 95_test_vectors.md V4.
theorem test_write_fifo : traced (.writeFifoData [0xAA]) (fresh [answered []]) =
    some [.write [0xA9, 0xE1, 0x02, 0x03, 0xAA] true] := by decide
theorem test_read_fifo : returned (.readFifo 2) (fresh [answered [0x31, 0xEC]]) =
    some (.bytes [0x31, 0xEC]) := by decide
-- 40_bus_primitives.md R134, R136, the rules' examples.
theorem test_wr_long :
    (nextOf (exec (.busWrLong 0x100 [0x7F]) (fresh [answered []]))).map (·.port.chip) =
      some [.wrote 0x100 0x7F] := by decide
theorem test_rd_long : returned (.busRdLong 0x100 1) (fresh [answered [0xEE, 0x5A]]) =
    some (.bytes [0x5A]) := by decide

-- 95_test_vectors.md V7: M1 and M30.
theorem test_tick_m1 :
    left .tick (fresh [answered [], answered [], answered [0x00], answered [0x01]]) =
      some { Manager.initial with state := .idle, rngIssued := true, rngTicks := 1 } := by decide
theorem test_tick_m30 :
    left .tick (block { inState .receiving with rxEnabled := true }
        [answered [0x00], answered [0x00, 0x04], answered [0x31, 0x05, 0x9A, 0x01]]) =
      some { inState .faulted with
        rxEnabled := true, faultCause := .decodeBadclass, tlm := [.rssi 5],
        rxBuf := [0x9A, 0x01] } := by decide
-- 95_test_vectors.md V8.
theorem test_take_rxdata :
    returned .takeRxdata (block { inState .idle with rxData := [[0xAA], [0xBB]] } []) =
      some (.payload (some [0xAA])) := by decide
theorem test_get_state : returned .getState (block (inState .faulted) []) = some (.code 4) := by decide

/-! ### Table words and the steps that run them -/

theorem test_table_rng_start : decodeTableWord 16 0xB318 = some .cmdRngStart := by decide
theorem test_table_fifo : decodeTableWord 16 0xA9E1 = some (.fifoTxData []) := by decide
theorem test_table_timer : decodeTableWord 8 0x70 = some (.chkTimer 0 0 0) := by decide
theorem test_step_word : step (State.reset.withFetchWord 8 0x31) = exec (.chkRssi 0x00) State.reset :=
  rfl

/-! ### Witnesses of the hypotheses -/

theorem witness_ShortHeaderIsWriteBitThenAddress : (0x6F#7).toNat < 0x70 := by decide
theorem witness_ExtendedHeaderIsHighByteFirst :
    0x070 ≤ (0x070#12).toNat ∧ 0x070 ≤ (0xFFF#12).toNat := by decide
theorem witness_FirstByteTellsTheForm :
    0xFFF ≤ 0xFFF ∧ classifyFirstByte 0x6F = (.read, 1) ∧ classifyFirstByte 0x70 = (.read, 2) ∧
    classifyFirstByte 0x80 = (.write, 1) ∧ classifyFirstByte 0xF0 = (.write, 2) := by decide

theorem commands_distinct : ((commandFrames vectorCfg).map Prod.fst).Nodup := by decide

theorem witness_FramesDecodeToTheirInstruction :
    let i : Instr := .busWrLong 0x070 [0x7F]
    let bs : List Byte := [0xF0, 0x70, 0x7F]
    i.stream = .bus ∧ i.wellFormed vectorCfg = true ∧ encode vectorCfg i = some bs ∧
    ((∀ p, i ≠ .fifoTxData p) → ∀ p, p.length ≤ 254 → bs ≠ fifoFrame vectorCfg p) ∧
    ((commandFrames vectorCfg).map Prod.fst).Nodup ∧
    (bs ∈ (commandFrames vectorCfg).map Prod.fst → (bs, i) ∈ commandFrames vectorCfg) := by
  refine ⟨rfl, by decide, by decide, fun _ p _ h => ?_, commands_distinct, by decide⟩
  have hhead : (fifoFrame vectorCfg p).head? = some 0xA9#8 := rfl
  rw [← h] at hhead
  exact absurd hhead (by decide)
theorem witness_FramesDecodeToTheirInstruction_command :
    let i : Instr := .cmdPwrFullrx
    let bs : List Byte := [0x82, 0x09]
    i.stream = .bus ∧ i.wellFormed vectorCfg = true ∧ encode vectorCfg i = some bs ∧
    ((∀ p, i ≠ .fifoTxData p) → ∀ p, p.length ≤ 254 → bs ≠ fifoFrame vectorCfg p) ∧
    ((commandFrames vectorCfg).map Prod.fst).Nodup ∧
    (bs ∈ (commandFrames vectorCfg).map Prod.fst → (bs, i) ∈ commandFrames vectorCfg) := by
  refine ⟨rfl, by decide, by decide, fun _ p _ h => ?_, commands_distinct, by decide⟩
  have hhead : (fifoFrame vectorCfg p).head? = some 0xA9#8 := rfl
  rw [← h] at hhead
  exact absurd hhead (by decide)
theorem witness_DecodedFramesEncodeBack :
    decodeFrame vectorCfg [0xA8, 0x04] = .ok .cmdCommit ∧
    decodeFrame vectorCfg [0xA8, 0x05] = .ok (.busWrShort 0x28 [0x05]) := by decide
theorem witness_ChunksDecodeToTheirInstruction :
    vectorCfg.WellFormed ∧ Instr.stream (.chkData 0x13 [0xAA]) = .chunk ∧
    Instr.wellFormed vectorCfg (.chkData 0x13 [0xAA]) = true ∧
    encode vectorCfg (.chkData 0x13 [0xAA]) = some [0xE1, 0x02, 0x13, 0xAA] := by decide
theorem witness_ChunksDecodeToTheirInstruction_badclass :
    Instr.wellFormed vectorCfg (.chkBadclass 0x80 []) = true ∧
    configuredLen vectorCfg 0x80 = none ∧
    encode vectorCfg (.chkBadclass 0x80 []) = some [0x80] ∧
    Instr.wellFormed lengthCfg (.chkBadclass 0x80 [0x11]) = true ∧
    encode lengthCfg (.chkBadclass 0x80 [0x11]) = some [0x80, 0x11] := by decide
theorem witness_FetchedChunksEncodeBack :
    vectorCfg.WellFormed ∧
    fetchChunk vectorCfg [0x31, 0xEC, 0x74] = .instr (.chkRssi 0xEC) [0x74] ∧
    fetchChunk vectorCfg [0xDF, 0x00] = .instr (.chkBadclass 0xDF []) [0xDF, 0x00] := by decide
theorem witness_FifoFrameIsADataChunk :
    vectorCfg.WellFormed ∧ (List.replicate 254 0x55#8).length ≤ 254 :=
  ⟨by decide, by rw [List.length_replicate]⟩
-- The two ends of each range of 30_encoding.md R91.
theorem witness_ChunkLengthByTagClass :
    (0x1F#8).toNat ≤ 0x1F ∧ decodeChunk vectorCfg [0x1F] = .chunk (.unknown [0x1F]) [] ∧
    decodeChunk vectorCfg [0x20] = .needMore ∧
    decodeChunk vectorCfg [0x3F, 0x00] = .chunk (.unknown [0x3F, 0x00]) [] ∧
    decodeChunk vectorCfg [0x40, 0x00] = .needMore ∧
    decodeChunk vectorCfg [0x5F, 0x00, 0x00] = .chunk (.unknown [0x5F, 0x00, 0x00]) [] ∧
    decodeChunk vectorCfg [0x60, 0x00, 0x00] = .needMore ∧
    decodeChunk vectorCfg [0x7F, 0x01, 0x02] = .needMore ∧
    decodeChunk vectorCfg [0x80] = .badClass 0x80 ∧
    decodeChunk lengthCfg [0x9F] = .needMore ∧
    decodeChunk lengthCfg [0xA0] = .badClass 0xA0 ∧ decodeChunk vectorCfg [0xBF] = .badClass 0xBF ∧
    decodeChunk vectorCfg [0xC0] = .badClass 0xC0 ∧ decodeChunk vectorCfg [0xDF] = .badClass 0xDF ∧
    decodeChunk vectorCfg [0xE0] = .needMore ∧
    decodeChunk vectorCfg [0xFF, 0x00] = .chunk (.unknown [0xFF, 0x00]) [] := by decide
theorem witness_DecodeChunkAgreesWithTheRows : (fresh []).cfg.WellFormed := by decide
theorem witness_DecoderConsumesExactlyTheChunk :
    vectorCfg.WellFormed ∧
    decodeChunk vectorCfg [0xE1, 0x00, 0x31] = .chunk (.unknown [0xE1, 0x00]) [0x31] := by decide
theorem witness_DrainIsSplitIndependent :
    vectorCfg.WellFormed ∧ decodeChunk vectorCfg [0x00, 0xE1] = .chunk (.unknown [0x00]) [0xE1] ∧
    drain vectorCfg { Manager.initial with rxBuf := [0x00, 0xE1] } =
      ({ Manager.initial with rxBuf := [0xE1], tlm := [.unknown [0x00]] }, none) := by decide
theorem witness_DrainEmitsInOrder : vectorCfg.WellFormed := by decide

theorem witness_RawChunkRowsKeepTheirBytes :
    (fresh []).cfg.WellFormed ∧ ([0xAA] : List Byte).length ≤ 254 ∧
    Instr.wellFormed (fresh []).cfg (.chkUnknownC0 0x1F) = true ∧
    Instr.wellFormed (fresh []).cfg (.chkUnknownC1 0x20 0x00) = true ∧
    Instr.wellFormed (fresh []).cfg (.chkUnknownC2 0x5F 0x00 0x00) = true ∧
    Instr.wellFormed (fresh []).cfg (.chkUnknownC3 0x60 0x00 0x00 0x00) = true ∧
    Instr.wellFormed (fresh []).cfg (.chkUnknownC7 0xE1 []) = true ∧
    Instr.wellFormed (fresh []).cfg (.chkBadclass 0x80 []) = true := by decide
theorem witness_WriteFramesReachTheirRegisters :
    ([0x50, 0x10] : List Byte) ≠ [] ∧ (0x6F#7).toNat < 0x70 ∧ 0x070 ≤ (0xFFE#12).toNat ∧
    (0xFFE#12).toNat + ([0x50, 0x10] : List Byte).length ≤ 0x1000 ∧
    (0x29#7).toNat = (fresh []).cfg.addrFifodata := by decide
theorem witness_ReadFramesReturnTheBytesAfterTheEcho :
    1 ≤ 2 ∧ (0x00#7).toNat < 0x70 ∧ 0x070 ≤ (0xFFE#12).toNat ∧ (0xFFE#12).toNat + 2 ≤ 0x1000 ∧
    (0x29#7).toNat = (fresh []).cfg.addrFifodata ∧
    ((fresh [answered [0x01, 0x02]]).port.answer 0).fails = false ∧
    ((fresh [failed]).port.answer 0).fails = true := by decide
theorem witness_BurstsPastTheRegisterSpaceAreRaised :
    1 ≤ 2 ∧ ([0x50, 0x10] : List Byte) ≠ [] ∧ 0x070 ≤ (0xFFF#12).toNat ∧
    (0xFFF#12).toNat ≠ (fresh []).cfg.addrFifodata ∧ 0x1000 < (0xFFF#12).toNat + 2 ∧
    0x1000 < (0xFFF#12).toNat + ([0x50, 0x10] : List Byte).length := by decide
theorem witness_BurstsPastTheRegisterSpaceAreRaised_short :
    1 ≤ 0xF92 ∧ List.replicate 0xF92 0x00#8 ≠ [] ∧ (0x6F#7).toNat < 0x70 ∧
    (0x6F#7).toNat ≠ (fresh []).cfg.addrFifodata ∧ 0x1000 < (0x6F#7).toNat + 0xF92 ∧
    0x1000 < (0x6F#7).toNat + (List.replicate 0xF92 0x00#8).length := by
  refine ⟨by decide, ?_, by decide, by decide, by decide, ?_⟩
  · rw [Ne, List.replicate_eq_nil_iff]; decide
  · rw [List.length_replicate]; decide
theorem witness_FormsThatAreNoFrameAreRefused :
    (0x06F#12).toNat < 0x070 ∧ 0x70 ≤ (0x70#7).toNat ∧ (0x6F#7).toNat < 0x70 ∧
    0x070 ≤ (0x070#12).toNat := by decide
theorem witness_CommandRowsWriteOneRegister :
    (fresh []).cfg.WellFormed ∧ Instr.cmdCommit = .cmdCommit := by decide
theorem witness_ExecuteSendsOneBurstPerRun :
    let batch : List (Nat × Byte) := [(0xFFF, 0x01), (0x002, 0x50), (0x003, 0x10)]
    (batch.map Prod.fst).Nodup ∧ (∀ e ∈ batch, e.1 ≤ 0xFFF) ∧
    (∀ k, k < 2 → ((fresh [answered [], answered []]).port.answer k).fails = false) ∧
    (∀ k, k < 1 → ((fresh [answered [], failed]).port.answer k).fails = false) ∧
    ((fresh [answered [], failed]).port.answer 1).fails = true ∧
    ((fresh [failed]).port.answer 0).fails = true := by decide
theorem witness_ExecuteWritesEachEntryOnceAscending :
    let batch : List (Nat × Byte) := [(0xFFF, 0x01), (0x002, 0x50)]
    let s := fresh [answered [], answered []]
    (batch.map Prod.fst).Nodup ∧ (∀ e ∈ batch, e.1 ≤ 0xFFF ∧ e.1 ≠ s.cfg.addrFifodata) ∧
    (∀ k, k < batch.length → (s.port.answer k).fails = false) := by decide
theorem witness_ExecuteReadsTheBatchAsAMap :
    (([(0xFFF, 0x01), (0x002, 0x50)] : List (Nat × Byte)).map Prod.fst).Nodup := by decide
theorem witness_ExecuteValidatesBeforeAnyTransaction :
    ∃ e ∈ ([(0x070, 0x01), (0x1000, 0x02)] : List (Nat × Byte)), 0xFFF < e.1 := by decide
theorem witness_ReadReturnsTheRegisterByte :
    0xFFF < 0x1000 ∧ ((fresh [answered [0x01]]).port.answer 0).fails = false ∧
    ((fresh [failed]).port.answer 0).fails = true ∧
    returned (.read 0xFFF) (fresh [answered [0xEE, 0x07]]) = some (.byte 0x07) := by decide
theorem witness_Read16IsOneBigEndianTransaction :
    0xFFE < 0xFFF ∧ ((fresh [answered [0x01]]).port.answer 0).fails = false ∧
    ((fresh [failed]).port.answer 0).fails = true ∧
    returned (.read16 0xFFE) (fresh [answered [0xEE, 0x00, 0x07]]) = some (.word 0x0007) := by decide
theorem witness_FifoWriteFramesThePayload :
    (fresh []).cfg.WellFormed ∧ 254 < (List.replicate 255 0x55#8).length ∧
    (List.replicate 254 0x55#8).length ≤ 254 ∧
    ((fresh [answered []]).port.answer 0).fails = false :=
  ⟨by decide, by rw [List.length_replicate]; decide, by rw [List.length_replicate], by decide⟩
theorem witness_ReadFifoReadsCountBytes :
    (fresh []).cfg.WellFormed ∧ 1 ≤ 1 ∧ ((fresh [answered [0x31]]).port.answer 0).fails = false ∧
    ((fresh [failed]).port.answer 0).fails = true := by decide
theorem witness_PrimitivesWriteNoBlockState :
    Instr.stream (.chkRssi 0x00) ≠ .host ∧ (∃ a, Instr.read 0x1D = .read a) ∧
    ∃ t, exec (.read 0x1D) (fresh [failed]) = .next t :=
  ⟨by decide, ⟨_, rfl⟩, _, rfl⟩
theorem witness_EchoBytesDoNotMatter :
    let s := fresh [{ fails := false, bytes := [0xEE, 0x01] }]
    let s' := fresh [{ fails := false, bytes := [0x33, 0x01] }]
    Instr.read 0x33 = .read 0x33 ∧ s'.cfg = s.cfg ∧ s'.mgr = s.mgr ∧
    (s'.port.answer 0).fails = (s.port.answer 0).fails ∧
    (∀ j, headerLen 0x33 ≤ j → s'.port.answerByte 0 j = s.port.answerByte 0 j) ∧
    (∃ t, exec (.read 0x33) s = .next t) ∧ ∃ t', exec (.read 0x33) s' = .next t' := by
  refine ⟨rfl, rfl, rfl, rfl, fun j hj => ?_, ⟨_, rfl⟩, _, rfl⟩
  match j, hj with
  | 0, hj => exact absurd hj (by decide)
  | 1, _ => rfl
  | _ + 2, _ => rfl

theorem witness_AutorangingTickPollsAndDecides :
    let s := fresh [answered [], answered [], answered [0x00], answered [0x01]]
    let s' := block { inState .autoranging with rngIssued := true, rngTicks := 2 }
      [answered [0x10], answered [0x01]]
    s.cfg.WellFormed ∧ s.mgr.state = .autoranging ∧ s.mgr.rngIssued = false ∧
    (∀ j, j < 2 + 2 → (s.port.answer j).fails = false) ∧
    s'.mgr.state = .autoranging ∧ s'.mgr.rngIssued = true ∧
    (∀ j, j < 0 + 2 → (s'.port.answer j).fails = false) := by decide
theorem witness_AutorangingTransportFault :
    let s := fresh [failed]
    let s' := fresh [answered [], answered [], answered [0x00], failed]
    let s'' := block { inState .autoranging with rngIssued := true, rngTicks := 1 }
      [answered [0x00], failed]
    s.cfg.WellFormed ∧ s.mgr.state = .autoranging ∧ s.mgr.rngIssued = false ∧
    (s.port.answer 0).fails = true ∧
    (∀ l, l < 3 → (s'.port.answer l).fails = false) ∧ (s'.port.answer 3).fails = true ∧
    s''.mgr.rngIssued = true ∧ (∀ l, l < 1 → (s''.port.answer l).fails = false) ∧
    (s''.port.answer 1).fails = true := by decide
theorem witness_IdleEntersTransmitting :
    let m : Manager := { inState .idle with txEnabled := true, inbox := [[0xAA], [0xBB]] }
    let s := block m [answered [], answered [], answered []]
    let s' := block m [answered [], answered [], failed]
    s.cfg.WellFormed ∧ s.mgr.state = .idle ∧ s.mgr.txEnabled = true ∧
    s.mgr.inbox = [0xAA] :: [[0xBB]] ∧ ([0xAA] : List Byte).length ≤ 254 ∧
    (∀ j, j < 3 → (s.port.answer j).fails = false) ∧
    (∀ l, l < 2 → (s'.port.answer l).fails = false) ∧ (s'.port.answer 2).fails = true ∧
    ((block m [failed]).port.answer 0).fails = true := by decide
theorem witness_IdleEntersReceiving :
    let m : Manager := { inState .idle with txEnabled := true, rxEnabled := true }
    let s := block m [answered []]
    s.cfg.WellFormed ∧ s.mgr.state = .idle ∧ (s.mgr.txEnabled = false ∨ s.mgr.inbox = []) ∧
    s.mgr.rxEnabled = true ∧ (s.port.answer 0).fails = false ∧
    ((block m [failed]).port.answer 0).fails = true := by decide
theorem witness_IdleTickWithoutIntentIsSilent :
    let m : Manager := { inState .idle with inbox := [[0x01]] }
    m.state = .idle ∧ (m.txEnabled = false ∨ m.inbox = []) ∧ m.rxEnabled = false := by decide
theorem witness_TransmitHasPriority :
    let s := block { inState .idle with txEnabled := true, rxEnabled := true, inbox := [[0xAA]] }
      [answered [], answered [], answered []]
    s.mgr.state = .idle ∧ s.mgr.txEnabled = true ∧ s.mgr.rxEnabled = true ∧ s.mgr.inbox ≠ [] ∧
    ∃ t, exec .tick s = .next t := ⟨rfl, rfl, rfl, by decide, _, rfl⟩
-- The states and draws of vectors M18, M19 and M20.
theorem witness_TransmittingTickPolls :
    let s := block (inState .transmitting) [answered [0x00], answered [0x01]]
    let s' := block (inState .transmitting) [answered [0x00], answered [0xF0], answered []]
    let s'' := block (inState .transmitting) [answered [0x20]]
    s.cfg.WellFormed ∧ s.mgr.state = .transmitting ∧
    (∀ j, j < 2 → (s.port.answer j).fails = false) ∧
    s.port.answerByte 0 (headerLen s.cfg.addrFault) &&& s.cfg.faultMask = 0#8 ∧
    s.port.answerByte 1 (headerLen s.cfg.addrTxdone) &&& s.cfg.txdoneMask ≠ s.cfg.txdoneValue ∧
    (∀ j, j < 3 → (s'.port.answer j).fails = false) ∧
    s'.port.answerByte 1 (headerLen s.cfg.addrTxdone) &&& s.cfg.txdoneMask = s.cfg.txdoneValue ∧
    (s''.port.answer 0).fails = false ∧
    s''.port.answerByte 0 (headerLen s.cfg.addrFault) &&& s.cfg.faultMask ≠ 0#8 := by decide
-- The states and draws of vectors M27 and M28, and of a Receiving tick that leaves.
theorem witness_ReceivingTickExits :
    let s := block (inState .receiving) [answered [0x20]]
    let s' := block (inState .receiving) [answered [0x00], answered []]
    let s'' := block { inState .receiving with rxEnabled := true }
      [answered [0x00], answered [0x01, 0x01]]
    s.cfg.WellFormed ∧ s.mgr.state = .receiving ∧ (s.port.answer 0).fails = false ∧
    s.port.answerByte 0 (headerLen s.cfg.addrFault) &&& s.cfg.faultMask ≠ 0#8 ∧
    s'.mgr.rxEnabled = false ∧ (∀ j, j < 2 → (s'.port.answer j).fails = false) ∧
    s'.port.answerByte 0 (headerLen s.cfg.addrFault) &&& s.cfg.faultMask = 0#8 ∧
    s''.mgr.rxEnabled = true ∧ (∀ j, j < 2 → (s''.port.answer j).fails = false) ∧
    s.cfg.fifoDepth < (s''.port.answerByte 1 (headerLen s.cfg.addrFifocount)).toNat * 256 +
      (s''.port.answerByte 1 (headerLen s.cfg.addrFifocount + 1)).toNat := by decide
-- A count of 0 (vector M32), and a count of 4 that ends at a bad class (vector M30).
theorem witness_ReceivingTickDrains :
    let m : Manager := { inState .receiving with rxEnabled := true }
    let s := block m [answered [0x00], answered [0x00, 0x00]]
    let s' := block m
      [answered [0x00], answered [0x00, 0x04], answered [0x31, 0x05, 0x9A, 0x01]]
    s.cfg.WellFormed ∧ s.mgr.state = .receiving ∧ s.mgr.rxEnabled = true ∧
    (∀ j, j < 2 → (s.port.answer j).fails = false) ∧
    s.port.answerByte 0 (headerLen s.cfg.addrFault) &&& s.cfg.faultMask = 0#8 ∧
    (s.port.answerByte 1 (headerLen s.cfg.addrFifocount)).toNat * 256 +
      (s.port.answerByte 1 (headerLen s.cfg.addrFifocount + 1)).toNat ≤ s.cfg.fifoDepth ∧
    (∀ j, j < 3 → (s'.port.answer j).fails = false) ∧
    (drain s.cfg { m with rxBuf := [0x31, 0x05, 0x9A, 0x01] }).2 = some 0x9A ∧
    (drain s.cfg m).2 = none := by decide
theorem witness_FaultedTickWaitsForTheReset : (inState .faulted).state = .faulted := by decide
theorem witness_EveryTickClearsTheResetRequest :
    (inState .idle).state ≠ .faulted := by decide
theorem witness_TickFollowsTheTransitionTable :
    ∃ t, (fresh [failed]).cfg.WellFormed ∧ exec .tick (fresh [failed]) = .next t :=
  ⟨_, by decide, rfl⟩
theorem witness_TickTransactionsAreBounded :
    ∃ t, (fresh [failed]).cfg.WellFormed ∧ exec .tick (fresh [failed]) = .next t :=
  ⟨_, by decide, rfl⟩
theorem witness_TransportFaultsArePrecise :
    ∃ t, (fresh [failed]).cfg.WellFormed ∧ (fresh [failed]).mgr.InboxFramable ∧
      exec .tick (fresh [failed]) = .next t ∧ t.mgr.state = .faulted ∧
      t.mgr.faultCause = .transport :=
  ⟨_, by decide, by decide, rfl, by decide, by decide⟩
-- Vector M16.
theorem witness_TransportFaultWritesNothingElse :
    let s := block { inState .idle with rxEnabled := true, rxBuf := [0x74] } [failed]
    ∃ t, s.mgr.state ≠ .autoranging ∧ s.mgr.state ≠ .faulted ∧ exec .tick s = .next t ∧
      t.mgr.state = .faulted ∧ t.mgr.faultCause = .transport :=
  ⟨_, by decide, by decide, rfl, by decide, by decide⟩
-- Vector M20.
theorem witness_FaultedEntryKeepsTheRest :
    let s := block (inState .transmitting) [answered [0x20]]
    ∃ t, s.cfg.WellFormed ∧ s.mgr.state ≠ .faulted ∧ exec .tick s = .next t ∧
      t.mgr.state = .faulted ∧ t.mgr.faultCause ≠ .decodeBadclass :=
  ⟨_, by decide, by decide, rfl, by decide, by decide⟩
theorem witness_IntentsAreReadOnlyWhereStated :
    let s := block (inState .transmitting) [answered [0x20]]
    s.mgr.state ≠ .idle ∧ s.mgr.state ≠ .receiving ∧ (∃ t, exec .tick s = .next t) ∧
    (∃ t', exec .tick { s with mgr := { s.mgr with txEnabled := true } } = .next t') ∧
    (∃ t', exec .tick { s with mgr := { s.mgr with rxEnabled := true } } = .next t') ∧
    (inState .idle).state = .idle ∧ (inState .idle).txEnabled = false :=
  ⟨by decide, by decide, ⟨_, rfl⟩, ⟨_, rfl⟩, ⟨_, rfl⟩, rfl, rfl⟩

theorem witness_PushAppendsOrRaises :
    (List.replicate 254 0x00#8).length ≤ 254 ∧ 255 ≤ (List.replicate 255 0x00#8).length :=
  ⟨by rw [List.length_replicate], by rw [List.length_replicate]⟩
theorem witness_TakeOperationsReturnTheOldest :
    (inState .idle).rxData = [] ∧ (inState .idle).tlm = [] ∧
    ({ inState .idle with rxData := [[0xAA], [0xBB]] } : Manager).rxData = [0xAA] :: [[0xBB]] ∧
    ({ inState .idle with tlm := [.rssi (-20)] } : Manager).tlm = .rssi (-20) :: [] := by decide
theorem witness_OnlyTicksWriteBlockElements :
    Instr.push [0xAA] ≠ .tick ∧ ∃ t, exec (.push [0xAA]) (fresh []) = .next t :=
  ⟨by decide, _, rfl⟩

/-- A safe state in the middle of a Receiving stay, with a partial chunk in the buffer. -/
theorem witness_SafeStatesStaySafe :
    let s := block { inState .receiving with
      rxEnabled := true, rngIssued := true, rngTicks := 1, rxBuf := [0x74], inbox := [[0xAA]] }
      [failed]
    s.Safe ∧ ∃ t, step s = .next t := by
  refine ⟨⟨by decide, by decide, by decide, ?_, fun _ => by decide, by decide, ?_⟩, _, rfl⟩
  · exact ⟨by decide, fun h => absurd h (by decide), fun _ => ⟨rfl, by decide⟩⟩
  · intro v hv
    exact absurd hv (List.not_mem_nil)
theorem witness_ConstructionIsSafe : vectorCfg.WellFormed := by decide
theorem witness_StepsKeepTheConfigurationAndTheRecord :
    ∃ t, step (fresh [failed]) = .next t := ⟨_, rfl⟩
theorem witness_StepRunsTheDecodedInstruction :
    (fresh []).requests = [] ∧
    ({ fresh [] with requests := [.call (.setTx true)] } : State).requests =
      .call (.setTx true) :: [] ∧
    decodeFrame vectorCfg [0xB3, 0x18] = .ok .cmdRngStart ∧
    decodeFrame vectorCfg [0xF0, 0x6F, 0x00] = .error .longFormShortAddress ∧
    fetchChunk vectorCfg [0x31, 0xEC, 0x74] = .instr (.chkRssi 0xEC) [0x74] ∧
    fetchChunk vectorCfg [0x80] = .instr (.chkBadclass 0x80 []) [0x80] ∧
    fetchChunk vectorCfg [0x74, 0x01] = .needMore := by decide

end Sys2Proof.Tests
end

section
/-! PROOFS. What an operation other than a tick does to the block's state: a bus or chunk row leaves
it whole, and a host operation writes one intent or moves one queue (10_state.md R23, R257). -/

namespace Sys2Proof.Machine

/-! ### The rows of the two streams leave the block's state (40_bus_primitives.md R138) -/

section
variable {s t : State} {data : List Byte} {n : Nat}

theorem emitWrite_mgr {a : Nat} (h : emitWrite a data s = .next t) : t.mgr = s.mgr := by
  unfold emitWrite at h
  split at h <;> cases h
  rfl

theorem emitRead_mgr {a : Nat} (h : emitRead a n s = .next t) : t.mgr = s.mgr := by
  unfold emitRead at h
  split at h <;> cases h
  rfl

theorem execBusWrShort_mgr {a : BitVec 7} (h : execBusWrShort a data s = .next t) :
    t.mgr = s.mgr := by
  unfold execBusWrShort at h
  split at h
  · exact emitWrite_mgr h
  · cases h

theorem execBusWrLong_mgr {a : BitVec 12} (h : execBusWrLong a data s = .next t) :
    t.mgr = s.mgr := by
  unfold execBusWrLong at h
  split at h
  · cases h
  · exact emitWrite_mgr h

theorem execBusRdShort_mgr {a : BitVec 7} (h : execBusRdShort a n s = .next t) :
    t.mgr = s.mgr := by
  unfold execBusRdShort at h
  split at h
  · exact emitRead_mgr h
  · cases h

theorem execBusRdLong_mgr {a : BitVec 12} (h : execBusRdLong a n s = .next t) :
    t.mgr = s.mgr := by
  unfold execBusRdLong at h
  split at h
  · cases h
  · exact emitRead_mgr h

end

/-- The four header forms may be refused; every other row of the two streams answers a state that
differs in the port and the result only. -/
theorem exec_mgr_of_stream_ne_host {i : Instr} {s t : State} (hi : i.stream ≠ .host)
    (h : exec i s = .next t) : t.mgr = s.mgr := by
  cases i with
  | busWrShort a data => exact execBusWrShort_mgr h
  | busWrLong a data => exact execBusWrLong_mgr h
  | busRdShort a n => exact execBusRdShort_mgr h
  | busRdLong a n => exact execBusRdLong_mgr h
  | fifoTxData _ | cmdCommit | cmdPwrStandby | cmdPwrFulltx | cmdPwrFullrx | cmdRngStart
  | chkRssi _ | chkFreqoffs _ _ | chkAntrssi2 _ _ | chkTimer _ _ _ | chkRffreqoffs _ _ _
  | chkDatarate _ _ _ | chkAntrssi3 _ _ _ | chkData _ _ | chkUnknownC0 _ | chkUnknownC1 _ _
  | chkUnknownC2 _ _ _ | chkUnknownC3 _ _ _ _ | chkUnknownC7 _ _ | chkBadclass _ _ =>
    cases h
    rfl
  | tick | setTx _ | setRx _ | setReset _ | push _ | isFaulted | getState | takeRxdata | takeTlm
  | getFaultCause | execute _ | read _ | read16 _ | writeFifoData _ | readFifo _
  | decodeChunk _ => exact absurd rfl hi

/-! ### What an operation other than a tick does to the block's state -/

/-- PUSH appends a payload that can be framed and raises an error for any other (42_manager.md
R210). -/
theorem execPush_mgr {p : List Byte} {s t : State} (h : execPush p s = .next t) :
    t.mgr = s.mgr ∨ t.mgr = { s.mgr with inbox := s.mgr.inbox ++ [p] } := by
  cases h
  split
  · exact .inl rfl
  · exact .inr rfl

/-- Everything an operation other than a tick can do to the block's state: nothing, or the one write
of its own row (42_manager.md R207 to R210, R213, R214). -/
theorem exec_mgr_cases_of_ne_tick {i : Instr} {s t : State} (hi : i ≠ .tick)
    (h : exec i s = .next t) :
    t.mgr = s.mgr ∨
    (∃ b, i = .setTx b ∧ t.mgr = { s.mgr with txEnabled := b }) ∨
    (∃ b, i = .setRx b ∧ t.mgr = { s.mgr with rxEnabled := b }) ∨
    (∃ b, i = .setReset b ∧ t.mgr = { s.mgr with resetRequested := b }) ∨
    (∃ p, i = .push p ∧ t.mgr = { s.mgr with inbox := s.mgr.inbox ++ [p] }) ∨
    (i = .takeRxdata ∧ t.mgr = { s.mgr with rxData := s.mgr.rxData.tail }) ∨
    (i = .takeTlm ∧ t.mgr = { s.mgr with tlm := s.mgr.tlm.tail }) := by
  by_cases hstream : i.stream = .host
  · cases i with
    | tick => exact absurd rfl hi
    | setTx b => cases h; exact .inr (.inl ⟨b, rfl, rfl⟩)
    | setRx b => cases h; exact .inr (.inr (.inl ⟨b, rfl, rfl⟩))
    | setReset b => cases h; exact .inr (.inr (.inr (.inl ⟨b, rfl, rfl⟩)))
    | push p =>
      obtain hm | hm := execPush_mgr h
      · exact .inl hm
      · exact .inr (.inr (.inr (.inr (.inl ⟨p, rfl, hm⟩))))
    | takeRxdata => cases h; exact .inr (.inr (.inr (.inr (.inr (.inl ⟨rfl, rfl⟩)))))
    | takeTlm => cases h; exact .inr (.inr (.inr (.inr (.inr (.inr ⟨rfl, rfl⟩)))))
    | isFaulted | getState | getFaultCause | execute _ | read _ | read16 _ | writeFifoData _
    | readFifo _ | decodeChunk _ =>
      cases h
      exact .inl rfl
    | _ => cases hstream
  · exact .inl (exec_mgr_of_stream_ne_host hstream h)

/-- Settles O54: none of the writes an operation other than a tick can do reaches one of the block's
own elements, and the three queue writes append to the inbox or take a stream's first entry. -/
theorem onlyTicksWriteBlockElements : Obligations.OnlyTicksWriteBlockElements := by
  intro i s t hi h
  obtain hm | ⟨_, -, hm⟩ | ⟨_, -, hm⟩ | ⟨_, -, hm⟩ | ⟨_, -, hm⟩ | ⟨-, hm⟩ | ⟨-, hm⟩ :=
      exec_mgr_cases_of_ne_tick hi h
  all_goals simp [hm, List.tail_suffix]

end Sys2Proof.Machine
end

section
/-! PROOFS. Address headers and chunk lengths as numbers, the outbound FIFO frame read back, and the
bursts of a batch one by one (30_encoding.md R80 to R83, R87, R88, R91, R99). -/

namespace Sys2Proof.Machine

/-! ### Address headers as numbers (R80, R81) -/

section
variable {a : Nat}

theorem header_write_short (h : a < 0x70) : header a .write = [BitVec.ofNat 8 (0x80 + a)] := by
  have hor : 0x80 + a = 0x80 ||| a := Nat.two_pow_add_eq_or_of_lt (i := 7) (by omega) 1
  simp [header, h, hor, BitVec.ofNat_or]

theorem header_read_short (h : a < 0x70) : header a .read = [BitVec.ofNat 8 a] := by
  simp [header, h]

theorem header_write_long (h : 0x70 ≤ a) (hmax : a ≤ 0xFFF) :
    header a .write = [BitVec.ofNat 8 (0xF0 + a / 256), BitVec.ofNat 8 (a % 256)] := by
  have hor : 0xF0 + a / 256 = 0xF0 ||| a / 256 :=
    Nat.two_pow_add_eq_or_of_lt (i := 4) (by omega) 15
  have hlow : a &&& 0xFF = a % 256 := Nat.and_two_pow_sub_one_eq_mod a 8
  simp [header, Nat.not_lt.2 h, hor, hlow, BitVec.ofNat_or, Nat.shiftRight_eq_div_pow]

theorem header_read_long (h : 0x70 ≤ a) (hmax : a ≤ 0xFFF) :
    header a .read = [BitVec.ofNat 8 (0x70 + a / 256), BitVec.ofNat 8 (a % 256)] := by
  have hor : 0x70 + a / 256 = 0x70 ||| a / 256 :=
    Nat.two_pow_add_eq_or_of_lt (i := 4) (by omega) 7
  have hlow : a &&& 0xFF = a % 256 := Nat.and_two_pow_sub_one_eq_mod a 8
  simp [header, Nat.not_lt.2 h, hor, hlow, BitVec.ofNat_or, Nat.shiftRight_eq_div_pow]

end

/-- The byte with `hi` over `lo` as a number. -/
theorem append_eq_ofNat {m n : Nat} (hi : BitVec m) (lo : BitVec n) :
    hi ++ lo = BitVec.ofNat (m + n) (2 ^ n * hi.toNat + lo.toNat) := by
  apply BitVec.eq_of_toNat_eq
  have hlt := (hi ++ lo).isLt
  rw [BitVec.toNat_append, Nat.shiftLeft_eq, Nat.mul_comm,
    ← Nat.two_pow_add_eq_or_of_lt lo.isLt] at hlt ⊢
  rw [BitVec.toNat_ofNat, Nat.mod_eq_of_lt hlt]

/-- Settles O1: the write bit over the 7-bit address is 0x80 plus the address, and the read bit over
it the address alone. -/
theorem shortHeaderIsWriteBitThenAddress : Obligations.ShortHeaderIsWriteBitThenAddress := by
  intro a ha
  rw [header_write_short ha, header_read_short ha, append_eq_ofNat, append_eq_ofNat]
  simp

/-- Settles O2: the address's top nibble is `a / 256` and its low byte `a % 256`. -/
theorem extendedHeaderIsHighByteFirst : Obligations.ExtendedHeaderIsHighByteFirst := by
  intro a ha
  have hmax : a.toNat ≤ 0xFFF := by have := a.isLt; omega
  have hhigh : (a.extractLsb' 8 4).toNat = a.toNat / 256 := by
    rw [BitVec.extractLsb'_toNat, Nat.shiftRight_eq_div_pow]
    omega
  have hlow : a.extractLsb' 0 8 = BitVec.ofNat 8 (a.toNat % 256) := by
    apply BitVec.eq_of_toNat_eq
    simp
  rw [header_write_long ha hmax, header_read_long ha hmax, append_eq_ofNat, append_eq_ofNat, hhigh,
    hlow]
  simp

/-! ### What the first byte tells (R83) -/

section
variable {b : Byte}

theorem classifyFirstByte_read_short (h : b.toNat ≤ 0x6F) :
    classifyFirstByte b = (.read, 1) := by
  rw [classifyFirstByte, if_pos (by omega)]

theorem classifyFirstByte_read_long (h : 0x70 ≤ b.toNat) (h' : b.toNat ≤ 0x7F) :
    classifyFirstByte b = (.read, 2) := by
  rw [classifyFirstByte, if_neg (by omega), if_pos (by omega)]

theorem classifyFirstByte_write_short (h : 0x80 ≤ b.toNat) (h' : b.toNat ≤ 0xEF) :
    classifyFirstByte b = (.write, 1) := by
  rw [classifyFirstByte, if_neg (by omega), if_neg (by omega), if_pos (by omega)]

theorem classifyFirstByte_write_long (h : 0xF0 ≤ b.toNat) : classifyFirstByte b = (.write, 2) := by
  rw [classifyFirstByte, if_neg (by omega), if_neg (by omega), if_neg (by omega)]

end

/-- The four header forms begin in the four ranges of R83. -/
theorem classifyFirstByte_header {a : Nat} (d : Dir) (h : a ≤ 0xFFF) :
    ∃ b bs, header a d = b :: bs ∧ classifyFirstByte b = (d, (header a d).length) := by
  obtain hs | hl := Nat.lt_or_ge a 0x70
  · cases d with
    | write =>
      rw [header_write_short hs]
      exact ⟨_, _, rfl, classifyFirstByte_write_short (by simp; omega) (by simp; omega)⟩
    | read =>
      rw [header_read_short hs]
      exact ⟨_, _, rfl, classifyFirstByte_read_short (by simp; omega)⟩
  · cases d with
    | write =>
      rw [header_write_long hl h]
      exact ⟨_, _, rfl, classifyFirstByte_write_long (by simp; omega)⟩
    | read =>
      rw [header_read_long hl h]
      exact ⟨_, _, rfl, classifyFirstByte_read_long (by simp; omega) (by simp; omega)⟩

/-- Settles O3: a byte is in one of four ranges, and a header's first byte is in that of its form. -/
theorem firstByteTellsTheForm : Obligations.FirstByteTellsTheForm := by
  refine ⟨fun b => ?_, fun a d h => classifyFirstByte_header d h⟩
  split_ifs
  · exact classifyFirstByte_read_short (by omega)
  · exact classifyFirstByte_read_long (by omega) (by omega)
  · exact classifyFirstByte_write_short (by omega) (by omega)
  · exact classifyFirstByte_write_long (by omega)

/-! ### The outbound FIFO frame read back (R88) -/

/-- No configured tag is the Data tag (00_scope.md R12). -/
theorem dataTag_notMem_tags {c : Cfg} (h : c.WellFormed) : 0xE1#8 ∉ c.tags := by
  obtain ⟨-, -, hnodup, -⟩ := h
  exact fun hmem => (List.nodup_append.1 hnodup).2.2 _ hmem 0xE1#8 (by simp) rfl

/-- A chunk under the Data tag that counts its flags byte is a Data chunk (R92). -/
theorem variant_dataTag {c : Cfg} (h : c.WellFormed) {len : Byte} (flags : Byte) (p : List Byte)
    (hlen : 1 ≤ len.toNat) : variant c (0xE1#8 :: len :: flags :: p) = .data flags p := by
  have htags := dataTag_notMem_tags h
  simp only [Cfg.tags, List.mem_cons, List.not_mem_nil, or_false, not_or] at htags
  obtain ⟨h1, h2, h3, h4, h5⟩ := htags
  simp [variant, byteAt, h1, h2, h3, h4, h5, hlen]

/-- The frame's data bytes are one chunk: its length byte counts the flags byte and the payload. -/
theorem chunkLen_fifoFrameData (c : Cfg) {p : List Byte} (more : List Byte) (hp : p.length ≤ 254) :
    chunkLen c (fifoFrameData c p ++ more) = .known (fifoFrameData c p).length := by
  have hlen : (BitVec.ofNat 8 (p.length + 1)).toNat = p.length + 1 := by simp; omega
  have hclass : tagClass 0xE1#8 = 7 := by decide
  simp only [fifoFrameData, List.cons_append, chunkLen_class7 _ hclass, hlen, List.length_cons]

/-- Settles O9: the decoder takes the frame's data bytes, no fewer and no more, as a Data chunk. -/
theorem fifoFrameIsADataChunk : Obligations.FifoFrameIsADataChunk := by
  intro c p more hc hp
  refine ⟨rfl, ?_⟩
  rw [decodeChunk_known (chunkLen_fifoFrameData c more hp) (by simp), List.take_left,
    List.drop_left, fifoFrameData, variant_dataTag hc]
  simp
  omega

/-! ### Chunk lengths and the decoder's answer (R91, R99) -/

/-- The decoder's answer for bytes whose first chunk has `n` bytes (R99). -/
def AnswersAt (c : Cfg) (buf : List Byte) (n : Nat) : Prop :=
  if buf.length < n then decodeChunk c buf = .needMore
  else ∃ v, decodeChunk c buf = .chunk v (buf.drop n)

/-- The decoder's answer for a tag whose class has the configured length `l` (R91, R152). -/
def AnswersAtConfigured (c : Cfg) (t : Byte) (body : List Byte) : Option Nat → Prop
  | none => decodeChunk c (t :: body) = .badClass t
  | some n => AnswersAt c (t :: body) n

theorem answersAt_of_chunkLen {c : Cfg} {buf : List Byte} {n : Nat}
    (h : chunkLen c buf = .known n) : AnswersAt c buf n := by
  unfold AnswersAt
  split
  · next hlt => simp [decodeChunk, h, hlt]
  · next hge => exact ⟨_, decodeChunk_known h (Nat.not_lt.1 hge)⟩

section
variable {c : Cfg} {t : Byte} {body : List Byte}

theorem chunkLen_configured_some {n : Nat} (h : configuredLen c t = some n) :
    chunkLen c (t :: body) = .known n := by
  have hclass : tagClass t = 4 ∨ tagClass t = 5 ∨ tagClass t = 6 := by
    unfold configuredLen at h
    split at h <;> simp_all
  obtain h' | h' | h' := hclass <;> simp [chunkLen, h, h']

theorem chunkLen_configured_none (hlo : 4 ≤ tagClass t) (hhi : tagClass t ≤ 6)
    (h : configuredLen c t = none) : chunkLen c (t :: body) = .noLength := by
  obtain h' | h' | h' : tagClass t = 4 ∨ tagClass t = 5 ∨ tagClass t = 6 := by omega
  all_goals simp [chunkLen, h, h']

/-- A tag of class 4, 5 or 6 is answered by its configured length. -/
theorem answersAtConfigured {l : Option Nat} (hlo : 0x80 ≤ t.toNat) (hhi : t.toNat ≤ 0xDF)
    (h : configuredLen c t = l) : AnswersAtConfigured c t body l := by
  have hclass := tagClass_eq_div t
  cases l with
  | none =>
    have hlen : chunkLen c (t :: body) = .noLength :=
      chunkLen_configured_none (by omega) (by omega) h
    simp [AnswersAtConfigured, decodeChunk, hlen, byteAt]
  | some n => exact answersAt_of_chunkLen (chunkLen_configured_some h)

theorem configuredLen_class4 (h : tagClass t = 4) : configuredLen c t = c.classLen4 := by
  simp [configuredLen, h]

theorem configuredLen_class5 (h : tagClass t = 5) : configuredLen c t = c.classLen5 := by
  simp [configuredLen, h]

theorem configuredLen_class6 (h : tagClass t = 6) : configuredLen c t = c.classLen6 := by
  simp [configuredLen, h]

/-- The tags of a class are the 32 that share bits 7:5 (R90). -/
theorem tagClass_eq_of_range (k : Nat) (hlo : 32 * k ≤ t.toNat) (hhi : t.toNat ≤ 32 * k + 31) :
    tagClass t = k := by
  rw [tagClass_eq_div]
  omega

end

/-- Settles O10: each range of tags is one class, whose length decides the decoder's answer. -/
theorem chunkLengthByTagClass : Obligations.ChunkLengthByTagClass := by
  intro c t body answers configured
  refine ⟨rfl, fun hhi => ?_, fun hlo hhi => ?_, fun hlo hhi => ?_, fun hlo hhi => ?_,
    fun hlo hhi => ?_, fun hlo hhi => ?_, fun hlo hhi => ?_, fun hlo => ?_⟩
  · exact answersAt_of_chunkLen (chunkLen_class0 (tagClass_eq_of_range 0 (by omega) hhi))
  · exact answersAt_of_chunkLen (chunkLen_class1 (tagClass_eq_of_range 1 hlo hhi))
  · exact answersAt_of_chunkLen (chunkLen_class2 (tagClass_eq_of_range 2 hlo hhi))
  · exact answersAt_of_chunkLen (chunkLen_class3 (tagClass_eq_of_range 3 hlo hhi))
  · exact answersAtConfigured (by omega) (by omega)
      (configuredLen_class4 (tagClass_eq_of_range 4 hlo hhi))
  · exact answersAtConfigured (by omega) (by omega)
      (configuredLen_class5 (tagClass_eq_of_range 5 hlo hhi))
  · exact answersAtConfigured (by omega) (by omega)
      (configuredLen_class6 (tagClass_eq_of_range 6 hlo hhi))
  · have hclass := tagClass_eq_of_range 7 hlo (by have := t.isLt; omega)
    cases body with
    | nil => simp [decodeChunk, chunkLen, hclass]
    | cons b1 more => exact answersAt_of_chunkLen (chunkLen_class7 b1 hclass)

/-! ### The runs of a batch (R87) -/

/-- Distinct keys are in strictly ascending order once sorted. -/
theorem sortBatch_ascending {l : List (Nat × Byte)} (h : (l.map Prod.fst).Nodup) :
    (sortBatch l).Pairwise (fun e e' => e.1 < e'.1) := by
  have hnodup : ((sortBatch l).map Prod.fst).Nodup :=
    ((sortBatch_perm l).map Prod.fst).nodup_iff.2 h
  have hne : (sortBatch l).Pairwise (fun e e' => e.1 ≠ e'.1) := List.pairwise_map.1 hnodup
  exact (sortBatch_sorted l).imp₂ (fun _ _ hle hne => Nat.lt_of_le_of_ne hle hne) hne

theorem mem_runEntries_first {a : Nat} {vs : List Byte} (h : vs ≠ []) :
    ∃ v, (a, v) ∈ runEntries a vs := by
  cases vs with
  | nil => exact absurd rfl h
  | cons v vs => exact ⟨v, by simp [runEntries]⟩

/-- Each run of an ascending list ends before the next begins, and `runsOf_maximal` makes the gap
one address at least. -/
theorem runsOf_gapped {l : List (Nat × Byte)} (h : l.Pairwise (fun e e' => e.1 < e'.1)) :
    (runsOf l).IsChain (fun r r' => r.1 + r.2.length < r'.1) := by
  rw [← runsOf_entries l] at h
  have hbefore := (List.pairwise_flatMap.1 h).2
  have hmaximal := runsOf_maximal l
  rw [List.isChain_iff_getElem] at hmaximal ⊢
  intro i hi
  have hne : (runsOf l)[i].2 ≠ [] := runsOf_ne_nil _ (List.getElem_mem _)
  obtain ⟨v, hv⟩ := mem_runEntries_last hne
  obtain ⟨w, hw⟩ := mem_runEntries_first (runsOf_ne_nil (runsOf l)[i + 1] (List.getElem_mem _))
  have hlt := List.pairwise_iff_getElem.1 hbefore i (i + 1) (by omega) hi (by omega) _ hv _ hw
  have hgap := hmaximal i hi
  have hpos := List.length_pos_iff.2 hne
  simp only at hlt
  omega

/-! ### The bursts one by one (40_bus_primitives.md R122) -/

/-- The one write of a run (R84, R87), completed or failed. -/
abbrev burst (ok : Bool) (r : Nat × List Byte) : Transaction := .write (header r.1 .write ++ r.2) ok

/-- The transport after a run's completed write. -/
abbrev Port.afterBurst (c : Cfg) (r : Nat × List Byte) (p : Port) : Port :=
  p.record (burst true r) (frameAccesses c (header r.1 .write ++ r.2) [])

section
variable {c : Cfg} {p : Port} {r : Nat × List Byte} {runs : List (Nat × List Byte)}

theorem burstWrites_cons_answered (hin : inSpace c r.1 r.2.length = true)
    (h : (p.answer 0).fails = false) :
    burstWrites c (r :: runs) p = burstWrites c runs (p.afterBurst c r) := by
  rw [burstWrites, memWrite_in p hin, busWrite_answered h]

theorem burstWrites_cons_failed (hin : inSpace c r.1 r.2.length = true)
    (h : (p.answer 0).fails = true) :
    burstWrites c (r :: runs) p =
      (.error .transportError, p.record (burst false r) [.unknownEffect]) := by
  rw [burstWrites, memWrite_in p hin, busWrite_failed h]

/-- Where no burst fails, each run is one write. -/
theorem burstWrites_answered (hin : ∀ r ∈ runs, inSpace c r.1 r.2.length = true)
    (h : ∀ k, k < runs.length → (p.answer k).fails = false) :
    ∃ q, burstWrites c runs p = (.ok (), q) ∧ q.trace = p.trace ++ runs.map (burst true) := by
  induction runs generalizing p with
  | nil => exact ⟨p, rfl, by simp⟩
  | cons r more ih =>
    obtain ⟨hr, hmore⟩ := List.forall_mem_cons.1 hin
    rw [burstWrites_cons_answered hr (h 0 (by simp))]
    obtain ⟨q, hq, htrace⟩ := ih (p := p.afterBurst c r) hmore fun k hk => by
      rw [Port.record_answer]
      exact h (k + 1) (by simpa using hk)
    exact ⟨q, hq, by simp [htrace]⟩

/-- Where burst `j` is the first to fail, the earlier ones are done and no later one is tried. -/
theorem burstWrites_failed {j : Nat} (hin : ∀ r ∈ runs, inSpace c r.1 r.2.length = true)
    (hj : j < runs.length) (h : ∀ k, k < j → (p.answer k).fails = false)
    (hfails : (p.answer j).fails = true) :
    ∃ q, burstWrites c runs p = (.error .transportError, q) ∧
      q.trace = p.trace ++ (runs.take j).map (burst true) ++
        ((runs.drop j).take 1).map (burst false) := by
  induction runs generalizing p j with
  | nil => exact absurd hj (Nat.not_lt_zero j)
  | cons r more ih =>
    obtain ⟨hr, hmore⟩ := List.forall_mem_cons.1 hin
    cases j with
    | zero => exact ⟨_, burstWrites_cons_failed hr hfails, by simp⟩
    | succ j =>
      rw [burstWrites_cons_answered hr (h 0 (by omega))]
      obtain ⟨q, hq, htrace⟩ := ih (p := p.afterBurst c r) hmore (by simpa using hj)
        (fun k hk => by
          rw [Port.record_answer]
          exact h (k + 1) (by omega))
        (by rwa [Port.record_answer])
      exact ⟨q, hq, by simp [htrace]⟩

end

/-- EXECUTE of an in-range map is the bursts of its sorted entries' runs. -/
theorem exec_execute_in {batch : List (Nat × Byte)} (s : State) (h : (batch.map Prod.fst).Nodup)
    (hin : ∀ e ∈ batch, e.1 ≤ 0xFFF) :
    exec (.execute batch) s =
      .next (s.hostCall (burstWrites s.cfg (runsOf (sortBatch batch)) s.port) fun _ => .unit) := by
  rw [← executeMap_in s.port hin, ← execute_of_nodup s.port h]
  rfl

/-- Settles O23: the runs are those of the sorted batch. -/
theorem executeSendsOneBurstPerRun : Obligations.ExecuteSendsOneBurstPerRun := by
  intro batch hnodup hrange
  have hspace : ∀ c : Cfg, ∀ r ∈ runsOf (sortBatch batch), inSpace c r.1 r.2.length = true :=
    fun c => runsOf_inSpace fun e he => hrange e (mem_sortBatch.1 he)
  refine ⟨runsOf (sortBatch batch), ?_, runsOf_ne_nil, runsOf_gapped (sortBatch_ascending hnodup),
    fun s => ⟨fun hok => ?_, fun j hj hok hfails => ?_⟩⟩
  · rw [runsOf_entries]
    exact sortBatch_perm batch
  · obtain ⟨q, hq, htrace⟩ := burstWrites_answered (hspace s.cfg) hok
    exact ⟨_, exec_execute_in s hnodup hrange, rfl, rfl, rfl, by rw [hq]; rfl, by
      rw [hq]; exact htrace⟩
  · obtain ⟨q, hq, htrace⟩ := burstWrites_failed (hspace s.cfg) hj hok hfails
    exact ⟨_, exec_execute_in s hnodup hrange, rfl, rfl, rfl, by rw [hq]; rfl, by
      rw [hq]; exact htrace⟩

end Sys2Proof.Machine
end

section
/-! PROOFS. The bus primitives: a write frame read back as the chip reads it, what a single write or
read hands to the host, and that a primitive changes the port and the result alone
(40_bus_primitives.md R124 to R138). -/

namespace Sys2Proof.Machine

/-! ### A write frame as the chip reads it (R83, R84, R133, R134) -/

section
variable {a : Nat} {data : List Byte}

theorem decodeHeader_write_short (h : a < 0x70) (hdata : data ≠ []) :
    decodeHeader (header a .write ++ data) = .ok (.busWrShort (BitVec.ofNat 7 a) data) := by
  have hfirst : (BitVec.ofNat 8 (0x80 + a)).toNat = 0x80 + a := by simp; omega
  have haddr : (BitVec.ofNat 8 (0x80 + a)).truncate 7 = BitVec.ofNat 7 a := by
    apply BitVec.eq_of_toNat_eq
    simp
  rw [header_write_short h, List.singleton_append, decodeHeader, hfirst, if_neg (by omega),
    if_neg (by omega), if_pos (by omega), haddr, writeFrame, if_neg hdata]

theorem longAddress_header :
    longAddress (BitVec.ofNat 8 (0xF0 + a / 256)) (BitVec.ofNat 8 (a % 256)) =
      BitVec.ofNat 12 a := by
  rw [longAddress, append_eq_ofNat]
  apply BitVec.eq_of_toNat_eq
  simp
  omega

theorem decodeHeader_write_long (h : 0x70 ≤ a) (hmax : a ≤ 0xFFF) (hdata : data ≠ []) :
    decodeHeader (header a .write ++ data) = .ok (.busWrLong (BitVec.ofNat 12 a) data) := by
  have hfirst : (BitVec.ofNat 8 (0xF0 + a / 256)).toNat = 0xF0 + a / 256 := by simp; omega
  have haddr : (BitVec.ofNat 12 a).toNat = a := by simp; omega
  rw [header_write_long h hmax, List.cons_append, List.singleton_append, decodeHeader, hfirst,
    if_neg (by omega), if_neg (by omega), if_neg (by omega), decodeLong, longAddress_header,
    haddr, if_neg (by omega)]
  simp only [writeFrame, if_neg hdata]

/-- The chip takes a write frame's data bytes as one burst from the header's address on. -/
theorem frameAccesses_write (c : Cfg) (response : List Byte) (hmax : a ≤ 0xFFF)
    (hdata : data ≠ []) :
    frameAccesses c (header a .write ++ data) response = burstAccesses c .wrote a 0 data := by
  obtain hs | hl := Nat.lt_or_ge a 0x70
  · have haddr : (BitVec.ofNat 7 a).toNat = a := by simp; omega
    simp only [frameAccesses, decodeHeader_write_short hs hdata, haddr]
  · have haddr : (BitVec.ofNat 12 a).toNat = a := by simp; omega
    simp only [frameAccesses, decodeHeader_write_long hl hmax hdata, haddr]

end

/-- A 1-byte burst accesses its header's register, be it the FIFO data register or not. -/
theorem burstAccesses_singleton (c : Cfg) (mk : Nat → Byte → Access) (a : Nat) (v : Byte) :
    burstAccesses c mk a 0 [v] = [mk a v] := by
  simp [burstAccesses, landing]

/-- A burst headed at the FIFO data register stays there (20_memory.md R52). -/
theorem burstAccesses_fifodata (c : Cfg) (mk : Nat → Byte → Access) (k : Nat) (vs : List Byte) :
    burstAccesses c mk c.addrFifodata k vs = vs.map (mk c.addrFifodata) := by
  induction vs generalizing k with
  | nil => rfl
  | cons v vs ih => simp [burstAccesses, landing, ih]

/-! ### One write called by the host -/

section
variable (c : Cfg) (out : List Byte) (p : Port)

theorem busWrite_trace :
    (p.busWrite c out).2.trace = p.trace ++ [.write out (!(p.answer 0).fails)] := by
  cases hf : (p.answer 0).fails with
  | false => simp [busWrite_answered hf]
  | true => simp [busWrite_failed hf]

theorem busWrite_chip :
    (p.busWrite c out).2.chip = p.chip ++
      (if (p.answer 0).fails then [.unknownEffect] else frameAccesses c out []) := by
  cases hf : (p.answer 0).fails with
  | false => simp [busWrite_answered hf]
  | true => simp [busWrite_failed hf]

theorem hostCall_busWrite_ret (s : State) :
    (s.hostCall (p.busWrite c out) fun _ => .unit).ret =
      (if (p.answer 0).fails then .raised .transportError else .unit) := by
  cases hf : (p.answer 0).fails with
  | false => simp [busWrite_answered hf]
  | true => simp [busWrite_failed hf]

end

/-! ### The command rows (R128 to R132) -/

/-- A command row of a well-formed configuration is the one write of its command frame. -/
def IsCommandWrite (s : State) (i : Instr) (a : Nat) (v : Byte) : Prop :=
  a ≤ 0xFFF ∧
  exec i s = .next (s.hostCall (s.port.busWrite s.cfg (commandFrame a v)) fun _ => .unit)

section
variable {s : State} (hc : s.cfg.WellFormed)
include hc

theorem isCommandWrite_commit :
    IsCommandWrite s .cmdCommit s.cfg.addrFifostat s.cfg.fifoCommit :=
  ⟨wf_fifostat hc, by rw [← cmdCommit_eq hc]; rfl⟩

theorem isCommandWrite_pwrStandby :
    IsCommandWrite s .cmdPwrStandby s.cfg.addrPwrmode s.cfg.pwrStandby :=
  ⟨wf_pwrmode hc, by rw [← cmdPwrStandby_eq hc]; rfl⟩

theorem isCommandWrite_pwrFulltx :
    IsCommandWrite s .cmdPwrFulltx s.cfg.addrPwrmode s.cfg.pwrFulltx :=
  ⟨wf_pwrmode hc, by rw [← cmdPwrFulltx_eq hc]; rfl⟩

theorem isCommandWrite_pwrFullrx :
    IsCommandWrite s .cmdPwrFullrx s.cfg.addrPwrmode s.cfg.pwrFullrx :=
  ⟨wf_pwrmode hc, by rw [← cmdPwrFullrx_eq hc]; rfl⟩

theorem isCommandWrite_rngStart :
    IsCommandWrite s .cmdRngStart s.cfg.addrRng s.cfg.rngStartValue :=
  ⟨wf_rng hc, by rw [← cmdRngStart_eq hc]; rfl⟩

end

theorem frameAccesses_commandFrame {c : Cfg} {a : Nat} (v : Byte) (hmax : a ≤ 0xFFF) :
    frameAccesses c (commandFrame a v) [] = [.wrote a v] := by
  rw [commandFrame, frameAccesses_write c [] hmax (by simp), burstAccesses_singleton]

/-- Settles O22: each of the five rows is the write of its command frame, whose one data byte the
chip takes at the header's register. -/
theorem commandRowsWriteOneRegister : Obligations.CommandRowsWriteOneRegister := by
  intro s hc i a v hrow
  have hwrite : IsCommandWrite s i a v := by
    simp only [List.mem_cons, List.not_mem_nil, or_false, Prod.mk.injEq] at hrow
    obtain ⟨rfl, rfl, rfl⟩ | ⟨rfl, rfl, rfl⟩ | ⟨rfl, rfl, rfl⟩ | ⟨rfl, rfl, rfl⟩ |
      ⟨rfl, rfl, rfl⟩ := hrow
    · exact isCommandWrite_commit hc
    · exact isCommandWrite_pwrStandby hc
    · exact isCommandWrite_pwrFulltx hc
    · exact isCommandWrite_pwrFullrx hc
    · exact isCommandWrite_rngStart hc
  obtain ⟨hmax, hexec⟩ := hwrite
  refine ⟨_, hexec, rfl, rfl, rfl, busWrite_trace _ _ _, ?_, hostCall_busWrite_ret _ _ _ s⟩
  rw [State.hostCall_port, busWrite_chip, frameAccesses_commandFrame v hmax]

/-! ### The FIFO frame (R126) -/

theorem frameAccesses_fifoFrame {c : Cfg} (hc : c.WellFormed) (p : List Byte) :
    frameAccesses c (fifoFrame c p) [] = (fifoFrameData c p).map (.wrote c.addrFifodata) := by
  rw [fifoFrame, frameAccesses_write c [] (wf_fifodata hc) (by simp [fifoFrameData]),
    burstAccesses_fifodata]

theorem exec_writeFifoData (p : List Byte) (s : State) :
    exec (.writeFifoData p) s =
      .next (s.hostCall (writeFifoData s.cfg p s.port) fun _ => .unit) := rfl

theorem exec_writeFifoData_long {p : List Byte} (s : State) (h : 254 < p.length) :
    exec (.writeFifoData p) s = .next { s with ret := .raised (.payloadTooLong p.length) } := by
  rw [exec_writeFifoData, writeFifoData_long s.port h]
  rfl

theorem exec_writeFifoData_framable {p : List Byte} {s : State} (hc : s.cfg.WellFormed)
    (h : p.length ≤ 254) :
    exec (.writeFifoData p) s =
      .next (s.hostCall (s.port.busWrite s.cfg (fifoFrame s.cfg p)) fun _ => .unit) := by
  rw [exec_writeFifoData, writeFifoData_eq s.port h (wf_fifodata hc)]

/-- Settles O29: a payload that can be framed is the write of its FIFO frame, which the chip takes
whole at the FIFO data register. -/
theorem fifoWriteFramesThePayload : Obligations.FifoWriteFramesThePayload := by
  intro s p hc
  refine ⟨rfl, exec_writeFifoData_long s, fun hp => ?_⟩
  refine ⟨_, exec_writeFifoData_framable hc hp, rfl, rfl, rfl, busWrite_trace _ _ _,
    hostCall_busWrite_ret _ _ _ s, fun hok => ?_⟩
  rw [State.hostCall_port, busWrite_chip, hok, frameAccesses_fifoFrame hc]
  rfl

/-! ### READ and READ16 (R124, R125) -/

theorem exec_read (a : Nat) (s : State) :
    exec (.read a) s = .next (s.hostCall (read s.cfg a s.port) .byte) := rfl

theorem exec_read16 (a : Nat) (s : State) :
    exec (.read16 a) s = .next (s.hostCall (read16 s.cfg a s.port) .word) := rfl

/-- Settles O27: the range check precedes the one transfer, and the transport's answer decides
between the byte and the error. -/
theorem readReturnsTheRegisterByte : Obligations.ReadReturnsTheRegisterByte := by
  intro s a
  rw [exec_read]
  refine ⟨fun h => ?_, fun h => ⟨_, rfl, rfl, rfl, rfl, fun hok => ?_, fun hfails => ?_⟩⟩
  · rw [read_out s.port h]
    rfl
  · rw [read_answered h hok]
    exact ⟨rfl, rfl⟩
  · rw [read_failed h hfails]
    exact ⟨rfl, rfl⟩

theorem u16_toNat (b1 b0 : Byte) : (u16 b1 b0).toNat = b1.toNat * 256 + b0.toNat := by
  have h1 := b1.isLt
  have h0 := b0.isLt
  rw [u16, append_eq_ofNat, BitVec.toNat_ofNat]
  omega

/-- Settles O28: both bytes come from the one transfer, the first in the upper half of the value. -/
theorem read16IsOneBigEndianTransaction : Obligations.Read16IsOneBigEndianTransaction := by
  intro s a
  rw [exec_read16]
  refine ⟨fun h => ?_, fun h => ⟨_, rfl, rfl, rfl, rfl, fun hok => ?_, fun hfails => ?_⟩⟩
  · rw [read16_out s.port h]
    rfl
  · rw [read16_answered h hok]
    exact ⟨⟨_, rfl, u16_toNat _ _⟩, rfl⟩
  · rw [read16_failed h hfails]
    exact ⟨rfl, rfl⟩

/-! ### What no instruction writes, and what no primitive writes (R138) -/

section
variable {s t : State} {data : List Byte} {n : Nat}

theorem emitWrite_next {a : Nat} (h : emitWrite a data s = .next t) :
    t = s.hostCall (memWrite s.cfg a data s.port) fun _ => .unit := by
  unfold emitWrite at h
  split at h <;> cases h
  rfl

theorem emitRead_next {a : Nat} (h : emitRead a n s = .next t) :
    t = s.hostCall (memRead s.cfg a n s.port) .bytes := by
  unfold emitRead at h
  split at h <;> cases h
  rfl

theorem execBusWrShort_next {a : BitVec 7} (h : execBusWrShort a data s = .next t) :
    t = s.hostCall (memWrite s.cfg a.toNat data s.port) fun _ => .unit := by
  unfold execBusWrShort at h
  split at h
  · exact emitWrite_next h
  · cases h

theorem execBusWrLong_next {a : BitVec 12} (h : execBusWrLong a data s = .next t) :
    t = s.hostCall (memWrite s.cfg a.toNat data s.port) fun _ => .unit := by
  unfold execBusWrLong at h
  split at h
  · cases h
  · exact emitWrite_next h

theorem execBusRdShort_next {a : BitVec 7} (h : execBusRdShort a n s = .next t) :
    t = s.hostCall (memRead s.cfg a.toNat n s.port) .bytes := by
  unfold execBusRdShort at h
  split at h
  · exact emitRead_next h
  · cases h

theorem execBusRdLong_next {a : BitVec 12} (h : execBusRdLong a n s = .next t) :
    t = s.hostCall (memRead s.cfg a.toNat n s.port) .bytes := by
  unfold execBusRdLong at h
  split at h
  · cases h
  · exact emitRead_next h

end

/-- No instruction writes the configuration (10_state.md R35) or the host's requests. -/
theorem exec_cfg_requests {i : Instr} {s t : State} (h : exec i s = .next t) :
    t.cfg = s.cfg ∧ t.requests = s.requests := by
  cases i with
  | busWrShort a data => rw [execBusWrShort_next h]; exact ⟨rfl, rfl⟩
  | busWrLong a data => rw [execBusWrLong_next h]; exact ⟨rfl, rfl⟩
  | busRdShort a n => rw [execBusRdShort_next h]; exact ⟨rfl, rfl⟩
  | busRdLong a n => rw [execBusRdLong_next h]; exact ⟨rfl, rfl⟩
  | push p =>
    cases h
    split <;> exact ⟨rfl, rfl⟩
  | _ =>
    cases h
    exact ⟨rfl, rfl⟩

/-- Settles O31: no instruction writes the configuration or the requests, no row of the two streams
writes the block's state, and the six primitives hand their outcome over and write nothing else. -/
theorem primitivesWriteNoBlockState : Obligations.PrimitivesWriteNoBlockState := by
  intro i s t hi h
  refine ⟨?_, exec_cfg_requests h⟩
  obtain hstream | ⟨b, rfl⟩ | ⟨a, rfl⟩ | ⟨a, rfl⟩ | ⟨p, rfl⟩ | ⟨n, rfl⟩ | ⟨buf, rfl⟩ := hi
  · exact exec_mgr_of_stream_ne_host hstream h
  all_goals
    cases h
    rfl

end Sys2Proof.Machine
end

section
/-! PROOFS. The drain loop: an induction along its turns, that bytes after the decode buffer change
nothing in front of them, and which chunks reach the two streams (41_chunk_decoder.md R167,
R171). -/

namespace Sys2Proof.Machine

/-! ### Bytes after a chunk (R152, R171) -/

/-- A complete chunk decodes the same with more bytes after it, which join the rest. -/
theorem decodeChunk_append {c : Cfg} {buf rest : List Byte} {v : Chunk} (more : List Byte)
    (h : decodeChunk c buf = .chunk v rest) :
    decodeChunk c (buf ++ more) = .chunk v (rest ++ more) := by
  obtain ⟨n, hlen, hle, rfl, rfl⟩ := decodeChunk_eq_chunk h
  have hlen' : chunkLen c (buf ++ more) = .known n := by
    rw [chunkLen_append more (by simp [hlen]), hlen]
  rw [decodeChunk_known hlen' (by simp; omega), List.take_append_of_le_length hle,
    List.drop_append_of_le_length hle]

/-! ### Induction along the drain loop (R167) -/

/-- What holds where draining stops, and holds before a turn if it holds after it, holds of every
state: each turn shortens the decode buffer. -/
theorem drain_induction {c : Cfg} (hc : c.WellFormed) {P : Manager → Prop}
    (needMore : ∀ m, decodeChunk c m.rxBuf = .needMore → P m)
    (badClass : ∀ m t, decodeChunk c m.rxBuf = .badClass t → P m)
    (chunk : ∀ m v rest, decodeChunk c m.rxBuf = .chunk v rest →
      P (Manager.emit { m with rxBuf := rest } v) → P m)
    (m : Manager) : P m := by
  induction hlen : m.rxBuf.length using Nat.strongRecOn generalizing m with
  | ind n ih =>
    cases hdec : decodeChunk c m.rxBuf with
    | needMore => exact needMore m hdec
    | badClass t => exact badClass m t hdec
    | chunk v rest =>
      have hlt := decodeChunk_rest_length hc hdec
      exact chunk m v rest hdec (ih rest.length (by omega) _ (by simp))

/-! ### Draining in two parts (R171) -/

/-- Emitting a chunk does not depend on the decode buffer. -/
theorem Manager.emit_with_rxBuf (m : Manager) (v : Chunk) (bs : List Byte) :
    { m.emit v with rxBuf := bs } = Manager.emit { m with rxBuf := bs } v := by
  cases v <;> rfl

/-- Bytes that come after a drain without a bad class could as well have come before it. -/
theorem drain_append {c : Cfg} (hc : c.WellFormed) (more : List Byte) (m : Manager)
    (h : (drain c m).2 = none) :
    drain c { (drain c m).1 with rxBuf := (drain c m).1.rxBuf ++ more } =
      drain c { m with rxBuf := m.rxBuf ++ more } := by
  induction m using drain_induction hc with
  | needMore m hdec => rw [drain_needMore hdec]
  | badClass m t hdec =>
    rw [drain_badClass hdec] at h
    cases h
  | chunk m v rest hdec ih =>
    have hmore : decodeChunk c { m with rxBuf := m.rxBuf ++ more }.rxBuf =
        .chunk v (rest ++ more) := decodeChunk_append more hdec
    rw [drain_chunk hc hdec] at h ⊢
    rw [ih h, drain_chunk hc hmore, Manager.emit_with_rxBuf, Manager.emit_rxBuf]

/-- Settles O13: bytes after one chunk change nothing, and so neither do bytes after a drain. -/
theorem drainIsSplitIndependent : Obligations.DrainIsSplitIndependent := by
  intro c first more hc
  refine ⟨fun v rest => decodeChunk_append more, fun m m' h => ?_⟩
  have happend := drain_append hc more { m with rxBuf := first } (by rw [h])
  rwa [h] at happend

/-! ### The chunks a drain emits (R167) -/

/-- The payload a chunk adds to the received data (R170). -/
def Chunk.payload? : Chunk → Option (List Byte)
  | .data _ p => some p
  | _ => none

/-- Whether a chunk goes to the telemetry stream (10_state.md R31). -/
def Chunk.isTelemetry : Chunk → Bool
  | .data _ _ => false
  | _ => true

/-- The block's state after these chunks went to their streams and `rest` was left in the decode
buffer. -/
def Manager.afterChunks (m : Manager) (rest : List Byte) (vs : List Chunk) : Manager :=
  { m with
    rxBuf := rest
    rxData := m.rxData ++ vs.filterMap Chunk.payload?
    tlm := m.tlm ++ vs.filter Chunk.isTelemetry }

theorem Manager.afterChunks_nil (m : Manager) : m.afterChunks m.rxBuf [] = m := by
  simp [Manager.afterChunks]

theorem Manager.afterChunks_emit (m : Manager) (mid rest : List Byte) (v : Chunk)
    (vs : List Chunk) :
    (Manager.emit { m with rxBuf := mid } v).afterChunks rest vs =
      m.afterChunks rest (v :: vs) := by
  cases v with
  | data flags p =>
    simp [Manager.afterChunks, Manager.emit_data, Manager.emitData, Chunk.payload?,
      Chunk.isTelemetry]
  | _ =>
    simp [Manager.afterChunks, Manager.emit_other, Manager.emitTlm, List.filterMap_cons,
      List.filter_cons, Chunk.payload?, Chunk.isTelemetry]

/-- Draining decodes the front of the decode buffer into chunks and sends each to its stream. -/
theorem drain_eq_afterChunks {c : Cfg} (hc : c.WellFormed) (m : Manager) :
    ∃ vs, decodesInto c (drain c m).1.rxBuf m.rxBuf vs ∧
      (drain c m).1 = m.afterChunks (drain c m).1.rxBuf vs := by
  induction m using drain_induction hc with
  | needMore m hdec =>
    rw [drain_needMore hdec]
    exact ⟨[], rfl, m.afterChunks_nil.symm⟩
  | badClass m t hdec =>
    rw [drain_badClass hdec]
    exact ⟨[], rfl, m.afterChunks_nil.symm⟩
  | chunk m v rest hdec ih =>
    obtain ⟨vs, hvs, hstate⟩ := ih
    rw [Manager.emit_rxBuf] at hvs
    rw [Manager.afterChunks_emit] at hstate
    rw [drain_chunk hc hdec]
    exact ⟨v :: vs, ⟨rest, hdec, hvs⟩, hstate⟩

/-- Every chunk takes a byte or more of the buffer it is decoded from. -/
theorem decodesInto_length {c : Cfg} (hc : c.WellFormed) {rest : List Byte} {vs : List Chunk}
    {buf : List Byte} (h : decodesInto c rest buf vs) : vs.length ≤ buf.length := by
  induction vs generalizing buf with
  | nil => simp
  | cons v vs ih =>
    obtain ⟨mid, hdec, hmid⟩ := h
    have htail := ih hmid
    have hlt := decodeChunk_rest_length hc hdec
    simp only [List.length_cons]
    omega

/-- Settles O14: the chunks the loop decodes are those it emits, and it stops where
`decode_chunk` gives no chunk. -/
theorem drainEmitsInOrder : Obligations.DrainEmitsInOrder := by
  intro c m hc
  obtain ⟨vs, hvs, hstate⟩ := drain_eq_afterChunks hc m
  have hdata : (drain c m).1.rxData = m.rxData ++ vs.filterMap Chunk.payload? := by rw [hstate]; rfl
  have htlm : (drain c m).1.tlm = m.tlm ++ vs.filter Chunk.isTelemetry := by rw [hstate]; rfl
  have hstop := drain_stops hc m
  refine ⟨vs, hvs, hdata, htlm, ?_, decodesInto_length hc hvs, fun hnone => ?_, fun t hbad => ?_⟩
  · rw [hdata, htlm]
    exact hstate
  · rw [hnone] at hstop
    exact ⟨hstop, decodeChunk_needMore_length hc hstop⟩
  · rwa [hbad] at hstop

end Sys2Proof.Machine
end

section
/-! PROOFS. The host operations on the queues and the queries (42_manager.md R210 to R215). -/

namespace Sys2Proof.Machine

/-! ### PUSH (R210) -/

theorem exec_push (p : List Byte) (s : State) :
    exec (.push p) s =
      .next (if 254 < p.length then s.returning (.raised (.payloadTooLong p.length))
        else s.withMgr { s.mgr with inbox := s.mgr.inbox ++ [p] } .unit) := rfl

/-- Settles O51: the length decides between the append and the error. -/
theorem pushAppendsOrRaises : Obligations.PushAppendsOrRaises := by
  intro s p
  rw [exec_push]
  refine ⟨fun h => ?_, fun h => ?_⟩
  · rw [if_neg (by omega)]
    rfl
  · rw [if_pos (by omega)]
    rfl

/-! ### TAKE_RXDATA and TAKE_TLM (R213, R214) -/

theorem exec_takeRxdata (s : State) :
    exec .takeRxdata s =
      .next (s.withMgr { s.mgr with rxData := s.mgr.rxData.tail } (.payload s.mgr.rxData.head?)) :=
  rfl

theorem exec_takeTlm (s : State) :
    exec .takeTlm s =
      .next (s.withMgr { s.mgr with tlm := s.mgr.tlm.tail } (.telemetry s.mgr.tlm.head?)) := rfl

theorem Manager.tail_rxData_of_nil {m : Manager} (h : m.rxData = []) :
    { m with rxData := m.rxData.tail } = m := by
  cases m; subst h; rfl

theorem Manager.tail_tlm_of_nil {m : Manager} (h : m.tlm = []) :
    { m with tlm := m.tlm.tail } = m := by
  cases m; subst h; rfl

/-- Settles O52: an empty stream's tail is that stream, so that nothing is removed from it. -/
theorem takeOperationsReturnTheOldest : Obligations.TakeOperationsReturnTheOldest := by
  intro s
  rw [exec_takeRxdata, exec_takeTlm]
  refine ⟨fun h => ?_, fun p ps h => ?_, fun h => ?_, fun v vs h => ?_⟩
  · rw [Manager.tail_rxData_of_nil h, h]
    rfl
  · rw [h]
    rfl
  · rw [Manager.tail_tlm_of_nil h, h]
    rfl
  · rw [h]
    rfl

/-! ### The queries (R211, R212, R215) -/

theorem exec_getState (s : State) :
    exec .getState s = .next (s.returning (.code s.mgr.state.code)) := rfl

theorem exec_getFaultCause (s : State) :
    exec .getFaultCause s = .next (s.returning (.code s.mgr.faultCause.code)) := rfl

/-- Settles O53: the codes are those of the model's two code functions. -/
theorem queriesReturnTheirCode : Obligations.QueriesReturnTheirCode := by
  intro s
  refine ⟨rfl, ?_, ?_⟩
  · rw [exec_getState]
    cases s.mgr.state <;> rfl
  · rw [exec_getFaultCause]
    cases s.mgr.faultCause <;> rfl

end Sys2Proof.Machine
end

section
/-! PROOFS. The ticks of Faulted, Idle and Transmitting as whole transitions: what each sends and
what it leaves in the block's state (42_manager.md R195 to R201, R219). -/

namespace Sys2Proof.Machine

/-! ### TICK as `dispatch()` (R190) -/

theorem exec_tick {s : State} {m : Manager} {q : Port}
    (h : dispatch s.cfg s.mgr s.port = (m, q)) :
    exec .tick s = .next { s with mgr := m, port := q, ret := .unit } := by
  change execTick s = _
  rw [execTick, h]

/-! ### A Faulted tick (R201) -/

theorem Manager.clear_resetRequested {m : Manager} (h : m.resetRequested = false) :
    { m with resetRequested := false } = m := by
  rw [← h]

/-- Settles O42: the reset request sampled by the prologue selects the fault-reset or nothing. -/
theorem faultedTickWaitsForTheReset : Obligations.FaultedTickWaitsForTheReset := by
  intro s hstate
  apply exec_tick
  rw [dispatch_faulted hstate]
  cases hrr : s.mgr.resetRequested with
  | true =>
    rw [tickFaulted_true, if_pos rfl]
    rfl
  | false => rw [tickFaulted_false, Manager.clear_resetRequested hrr, if_neg Bool.false_ne_true]

/-! ### An Idle tick that does not select Transmitting (R196, R197) -/

section
variable {c : Cfg} {m : Manager} {p : Port}

theorem tickIdle_of_not_transmit (h : m.txEnabled = false ∨ m.inbox = []) :
    tickIdle c m p = if m.rxEnabled then enterReceiving c m p else (m, p) := by
  obtain ⟨d, ds, htx, hinbox, -⟩ | ⟨-, hrx, he⟩ | ⟨-, hrx, he⟩ := tickIdle_cases c m p
  · simp [htx, hinbox] at h
  · rw [he, hrx]
    rfl
  · rw [he, hrx]
    rfl

theorem dispatch_idle_of_not_transmit (hstate : m.state = .idle)
    (h : m.txEnabled = false ∨ m.inbox = []) :
    dispatch c m p = if m.rxEnabled then enterReceiving c { m with resetRequested := false } p
      else ({ m with resetRequested := false }, p) :=
  (dispatch_idle hstate).trans (tickIdle_of_not_transmit h)

/-- Entering Receiving is the FULLRX write, whose answer decides (R196). -/
theorem enterReceiving_eq (hc : c.WellFormed) :
    enterReceiving c m p =
      (if (p.answer 0).fails then m.enterFaulted .transport
        else { m with rxBuf := [], state := .receiving },
      (p.busWrite c (commandFrame c.addrPwrmode c.pwrFullrx)).2) := by
  rw [enterReceiving, cmdPwrFullrx_eq hc]
  cases hf : (p.answer 0).fails with
  | false => simp [busWrite_answered hf]
  | true => simp [busWrite_failed hf]

end

/-- Settles O36: the tick is the one FULLRX write. -/
theorem idleEntersReceiving : Obligations.IdleEntersReceiving := by
  intro s hc hstate hnot hrx
  have htick := dispatch_idle_of_not_transmit (c := s.cfg) (p := s.port) hstate hnot
  rw [if_pos hrx, enterReceiving_eq hc] at htick
  exact ⟨_, exec_tick htick, rfl, rfl, busWrite_trace _ _ _, rfl⟩

/-- Settles O37: with no state to enter the tick is its prologue. -/
theorem idleTickWithoutIntentIsSilent : Obligations.IdleTickWithoutIntentIsSilent := by
  intro s hstate hnot hrx
  apply exec_tick
  rw [dispatch_idle_of_not_transmit hstate hnot, if_neg (by simp [hrx])]

/-! ### An Idle tick that selects Transmitting (R195, R219) -/

section
variable {c : Cfg} {m : Manager} {p : Port}

theorem tickIdle_of_transmit {d : List Byte} {ds : List (List Byte)} (htx : m.txEnabled = true)
    (hinbox : m.inbox = d :: ds) : tickIdle c m p = enterTransmitting c d m p := by
  rw [tickIdle, htx, hinbox]

theorem dispatch_idle_of_transmit {d : List Byte} {ds : List (List Byte)}
    (hstate : m.state = .idle) (htx : m.txEnabled = true) (hinbox : m.inbox = d :: ds) :
    dispatch c m p = enterTransmitting c d { m with resetRequested := false } p :=
  (dispatch_idle hstate).trans (tickIdle_of_transmit htx hinbox)

theorem command_eq_memWrite {a : Nat} (v : Byte) (h : a ≤ 0xFFF) :
    command c a v p = memWrite c a [v] p := by
  rw [command_eq p h, memWrite_in p (inSpace_one h)]
  rfl

/-- The three writes of entering Transmitting as bursts: the FIFO frame, the commit and the power
mode (R195). -/
def transmitRuns (c : Cfg) (d : List Byte) : List (Nat × List Byte) :=
  [(c.addrFifodata, fifoFrameData c d), (c.addrFifostat, [c.fifoCommit]),
    (c.addrPwrmode, [c.pwrFulltx])]

theorem transmitRuns_inSpace (hc : c.WellFormed) (d : List Byte) :
    ∀ r ∈ transmitRuns c d, inSpace c r.1 r.2.length = true := by
  simp only [transmitRuns, List.forall_mem_cons]
  exact ⟨inSpace_fifo _ (wf_fifodata hc), inSpace_one (wf_fifostat hc),
    inSpace_one (wf_pwrmode hc), List.forall_mem_nil _⟩

/-- A tick's transport fault stops the bursts where it stops the tick. -/
theorem orFault_burstWrites_cons (r : Nat × List Byte) (runs : List (Nat × List Byte))
    (k : Unit → Port → Manager × Port) :
    orFault (burstWrites c (r :: runs) p) m k =
      orFault (memWrite c r.1 r.2 p) m fun _ q => orFault (burstWrites c runs q) m k := by
  rw [burstWrites]
  obtain ⟨outcome, q⟩ := memWrite c r.1 r.2 p
  cases outcome <;> rfl

theorem enterTransmitting_eq_burstWrites (hc : c.WellFormed) {d : List Byte}
    (hd : d.length ≤ 254) :
    enterTransmitting c d m p = orFault (burstWrites c (transmitRuns c d) p) m fun _ q =>
      ({ m with inbox := m.inbox.tail, state := .transmitting }, q) := by
  rw [transmitRuns]
  simp only [orFault_burstWrites_cons]
  simp only [burstWrites, orFault_ok, enterTransmitting, cmdCommit, cmdPwrFulltx,
    command_eq_memWrite _ (wf_fifostat hc), command_eq_memWrite _ (wf_pwrmode hc), writeFifoData,
    if_neg (Nat.not_lt.2 hd)]

end

/-- Settles O35: the tick is three bursts, and the head is removed after the last of them only. -/
theorem idleEntersTransmitting : Obligations.IdleEntersTransmitting := by
  intro s p ps hc hstate htx hinbox hp frames
  have htick := dispatch_idle_of_transmit (c := s.cfg) (p := s.port) hstate htx hinbox
  rw [enterTransmitting_eq_burstWrites hc hp] at htick
  have hspace := transmitRuns_inSpace hc p
  have hframes : frames = (transmitRuns s.cfg p).map fun r => header r.1 .write ++ r.2 := rfl
  refine ⟨fun hok => ?_, fun j hj hok hfails => ?_⟩
  · obtain ⟨q, hq, htrace⟩ := burstWrites_answered hspace hok
    rw [hq, orFault_ok] at htick
    exact ⟨_, exec_tick htick, rfl, rfl, htrace, by simp [hinbox]⟩
  · obtain ⟨q, hq, htrace⟩ := burstWrites_failed hspace hj hok hfails
    rw [hq, orFault_error] at htick
    refine ⟨_, exec_tick htick, rfl, rfl, ?_, rfl⟩
    simpa [hframes, List.map_take, List.map_drop, Function.comp_def] using htrace

/-- Settles O38: an Idle tick that selects Transmitting enters it or takes the transport fault. -/
theorem transmitHasPriority : Obligations.TransmitHasPriority := by
  intro s t hstate htx _ hinbox h
  obtain ⟨d, ds, hcons⟩ := List.exists_cons_of_ne_nil hinbox
  cases h
  dsimp only
  rw [dispatch_idle_of_transmit hstate htx hcons]
  obtain hm | hm := enterTransmitting_cases s.cfg d { s.mgr with resetRequested := false } s.port
  · exact .inr (by rw [hm]; exact ⟨rfl, rfl⟩)
  · exact .inl (by rw [hm])

/-! ### A Transmitting tick (R198) -/

/-- The transport after the completed read of one register. -/
abbrev Port.afterRead (c : Cfg) (a : Nat) (p : Port) : Port :=
  p.record (p.readDone 0 a 1)
    (frameAccesses c (readOut a 1) (p.answerBytes 0 (headerLen a + 1)))

section
variable {c : Cfg} {m : Manager} {p : Port}

theorem orFault_read_answered {a : Nat} {k : Byte → Port → Manager × Port} (ha : a ≤ 0xFFF)
    (h : (p.answer 0).fails = false) :
    orFault (read c a p) m k = k (p.answerByte 0 (headerLen a)) (p.afterRead c a) := by
  rw [read_answered ha h, orFault_ok]

theorem faultBit_iff (c : Cfg) (f : Byte) : faultBit c f = true ↔ f &&& c.faultMask ≠ 0#8 :=
  decide_eq_true_iff

theorem txComplete_iff (c : Cfg) (d : Byte) :
    txComplete c d = true ↔ d &&& c.txdoneMask = c.txdoneValue := decide_eq_true_iff

theorem tickTransmitting_of_fault (hc : c.WellFormed) (h0 : (p.answer 0).fails = false)
    (hfault : faultBit c (p.answerByte 0 (headerLen c.addrFault)) = true) :
    tickTransmitting c m p = (m.enterFaulted .txFault, p.afterRead c c.addrFault) := by
  rw [tickTransmitting, orFault_read_answered (wf_fault hc) h0, if_pos hfault]

/-- Without the fault bit the second read is made, of the transmit-complete register. -/
theorem tickTransmitting_of_no_fault (hc : c.WellFormed) (h0 : (p.answer 0).fails = false)
    (hfault : ¬ faultBit c (p.answerByte 0 (headerLen c.addrFault)) = true)
    (h1 : (p.answer 1).fails = false) :
    tickTransmitting c m p =
      if txComplete c (p.answerByte 1 (headerLen c.addrTxdone)) then
        orFault (cmdPwrStandby c ((p.afterRead c c.addrFault).afterRead c c.addrTxdone)) m
          fun _ q => ({ m with state := .idle }, q)
      else (m, (p.afterRead c c.addrFault).afterRead c c.addrTxdone) := by
  rw [tickTransmitting, orFault_read_answered (wf_fault hc) h0, if_neg hfault,
    orFault_read_answered (wf_txdone hc) (by rwa [Port.record_answer]), Port.record_answerByte]

end

/-- Settles O39: the fault bit decides whether TXDONE is read, and transmit-complete whether the
standby write is made. -/
theorem transmittingTickPolls : Obligations.TransmittingTickPolls := by
  intro s hc hstate fault done cleared h0 h1 h2
  by_cases hfault : fault
  · have htick := tickTransmitting_of_fault (m := cleared) hc h0 ((faultBit_iff _ _).2 hfault)
    rw [← dispatch_transmitting hstate] at htick
    exact ⟨_, exec_tick htick, rfl, rfl, fun _ => ⟨rfl, rfl⟩, fun h => absurd hfault h,
      fun h => absurd hfault h⟩
  · have htick := tickTransmitting_of_no_fault (m := cleared) hc h0
      (mt (faultBit_iff _ _).1 hfault) (h1 hfault)
    rw [← dispatch_transmitting hstate] at htick
    by_cases hdone : done
    · rw [if_pos ((txComplete_iff _ _).2 hdone), cmdPwrStandby_eq hc,
        busWrite_answered (by simpa using h2 hfault hdone), orFault_ok] at htick
      refine ⟨_, exec_tick htick, rfl, rfl, fun h => absurd h hfault, fun _ _ => ⟨rfl, ?_⟩,
        fun _ h => absurd hdone h⟩
      simp [commandFrame]
    · rw [if_neg (mt (txComplete_iff _ _).1 hdone)] at htick
      refine ⟨_, exec_tick htick, rfl, rfl, fun h => absurd h hfault, fun _ h => absurd h hdone,
        fun _ _ => ⟨rfl, ?_⟩⟩
      simp

end Sys2Proof.Machine
end

section
/-! PROOFS. Which of the host's three flags a tick reads: other flags at its start change nothing in
what it does, unless its state is one that reads them (42_manager.md R191, R220). -/

namespace Sys2Proof.Machine

/-! ### Other flags at the start -/

/-- The block's state with the two intents and the reset request set. -/
def Manager.withFlags (tx rx rr : Bool) (m : Manager) : Manager :=
  { m with txEnabled := tx, rxEnabled := rx, resetRequested := rr }

@[simp] theorem Manager.withFlags_state (tx rx rr : Bool) (m : Manager) :
    (m.withFlags tx rx rr).state = m.state := rfl

@[simp] theorem Manager.withFlags_rxBuf (tx rx rr : Bool) (m : Manager) :
    (m.withFlags tx rx rr).rxBuf = m.rxBuf := rfl

/-- Other flags at the start of a function of the block's state change nothing in what it does but
those flags themselves. -/
def FlagsPass {α : Type} (f : Manager → Manager × α) (tx rx rr : Bool) (m : Manager) : Prop :=
  f (m.withFlags tx rx rr) = ((f m).1.withFlags tx rx rr, (f m).2)

section
variable {tx rx rr : Bool} {m : Manager}

theorem flagsPass_congr {α : Type} {f g : Manager → Manager × α} (h : f m = g m)
    (hw : f (m.withFlags tx rx rr) = g (m.withFlags tx rx rr)) (hg : FlagsPass g tx rx rr m) :
    FlagsPass f tx rx rr m := by
  rw [FlagsPass, h, hw]
  exact hg

theorem flagsPass_orFault {α : Type} (r : Prim α) {k : Manager → α → Port → Manager × Port}
    (hk : ∀ v q, FlagsPass (fun m => k m v q) tx rx rr m) :
    FlagsPass (fun m => orFault r m (k m)) tx rx rr m := by
  obtain ⟨outcome, q⟩ := r
  cases outcome with
  | ok v => exact hk v q
  | error e => rfl

theorem flagsPass_ite {α : Type} {f g : Manager → Manager × α} {b : Manager → Prop}
    [DecidablePred b] (hb : b (m.withFlags tx rx rr) ↔ b m) (hf : FlagsPass f tx rx rr m)
    (hg : FlagsPass g tx rx rr m) :
    FlagsPass (fun m => if b m then f m else g m) tx rx rr m := by
  by_cases h : b m
  · exact flagsPass_congr (if_pos h) (if_pos (hb.2 h)) hf
  · exact flagsPass_congr (if_neg h) (if_neg (mt hb.1 h)) hg

/-! ### The drain -/

theorem Manager.emit_withFlags (v : Chunk) :
    (m.withFlags tx rx rr).emit v = (m.emit v).withFlags tx rx rr := by
  cases v <;> rfl

theorem flagsPass_drainLoop (c : Cfg) (n : Nat) : FlagsPass (drainLoop c n) tx rx rr m := by
  induction n generalizing m with
  | zero => rfl
  | succ n ih =>
    simp only [FlagsPass, drainLoop, Manager.withFlags_rxBuf]
    cases decodeChunk c m.rxBuf with
    | needMore => rfl
    | badClass t => rfl
    | chunk v rest =>
      have hemit := Manager.emit_withFlags (tx := tx) (rx := rx) (rr := rr)
        (m := { m with rxBuf := rest }) v
      exact (congrArg (drainLoop c n) hemit).trans ih

theorem receiveBytes_withFlags (c : Cfg) (bs : List Byte) :
    receiveBytes c (m.withFlags tx rx rr) bs = (receiveBytes c m bs).withFlags tx rx rr := by
  have hdrain : drain c { m.withFlags tx rx rr with
      rxBuf := (m.withFlags tx rx rr).rxBuf ++ bs } = _ :=
    flagsPass_drainLoop c (m.rxBuf ++ bs).length (m := { m with rxBuf := m.rxBuf ++ bs })
  rw [receiveBytes, hdrain, receiveBytes, drain]
  obtain ⟨m', bad⟩ := drainLoop c _ { m with rxBuf := m.rxBuf ++ bs }
  cases bad <;> rfl

/-! ### The tick of each state -/

variable (c : Cfg) (p : Port)

theorem flagsPass_autorangingPoll : FlagsPass (fun m => autorangingPoll c m p) tx rx rr m :=
  flagsPass_orFault _ fun _ _ => flagsPass_orFault _ fun _ _ =>
    flagsPass_ite .rfl rfl (flagsPass_ite .rfl rfl (flagsPass_ite .rfl rfl rfl))

theorem flagsPass_tickAutoranging : FlagsPass (fun m => tickAutoranging c m p) tx rx rr m :=
  flagsPass_ite .rfl
    (flagsPass_autorangingPoll c p (m := { m with rngTicks := m.rngTicks + 1 }))
    (flagsPass_orFault _ fun _ _ => flagsPass_orFault _ fun _ q =>
      flagsPass_autorangingPoll c q
        (m := { m with rngIssued := true, rngTicks := m.rngTicks + 1 }))

theorem flagsPass_enterTransmitting (d : List Byte) :
    FlagsPass (fun m => enterTransmitting c d m p) tx rx rr m :=
  flagsPass_orFault _ fun _ _ => flagsPass_orFault _ fun _ _ => flagsPass_orFault _ fun _ _ => rfl

theorem flagsPass_enterReceiving : FlagsPass (fun m => enterReceiving c m p) tx rx rr m :=
  flagsPass_orFault _ fun _ _ => rfl

theorem flagsPass_tickIdle (htx : tx = m.txEnabled) (hrx : rx = m.rxEnabled) :
    FlagsPass (fun m => tickIdle c m p) tx rx rr m := by
  subst htx hrx
  by_cases hnot : m.txEnabled = false ∨ m.inbox = []
  · exact flagsPass_congr (tickIdle_of_not_transmit hnot)
      (tickIdle_of_not_transmit (m := m.withFlags _ _ rr) hnot)
      (flagsPass_ite (b := (·.rxEnabled)) (g := (·, p)) .rfl (flagsPass_enterReceiving c p) rfl)
  · obtain ⟨htx, hinbox⟩ := not_or.1 hnot
    obtain ⟨d, ds, hcons⟩ := List.exists_cons_of_ne_nil hinbox
    rw [Bool.not_eq_false] at htx
    exact flagsPass_congr (tickIdle_of_transmit htx hcons)
      (tickIdle_of_transmit (m := m.withFlags _ _ rr) htx hcons) (flagsPass_enterTransmitting c p d)

theorem flagsPass_tickTransmitting : FlagsPass (fun m => tickTransmitting c m p) tx rx rr m :=
  flagsPass_orFault _ fun _ _ => flagsPass_ite .rfl rfl
    (flagsPass_orFault _ fun _ _ => flagsPass_ite .rfl (flagsPass_orFault _ fun _ _ => rfl) rfl)

theorem flagsPass_tickReceiving (hrx : rx = m.rxEnabled) :
    FlagsPass (fun m => tickReceiving c m p) tx rx rr m :=
  flagsPass_orFault _ fun _ _ => flagsPass_ite .rfl rfl
    (flagsPass_ite (by rw [hrx]; rfl) (flagsPass_orFault _ fun _ _ => rfl)
      (flagsPass_orFault _ fun _ _ => flagsPass_ite .rfl rfl
        (flagsPass_orFault _ fun bs q => congrArg (·, q) (receiveBytes_withFlags c bs))))

theorem flagsPass_tickFaulted (sampled : Bool) :
    FlagsPass (fun m => tickFaulted sampled m p) tx rx rr m :=
  flagsPass_ite .rfl rfl rfl

/-- The intents are read in Idle alone, `rx_enabled` in Receiving too, and after the prologue the
reset request is read nowhere (R191, R220). -/
theorem flagsPass_tickBody (sampled : Bool) (htx : m.state = .idle → tx = m.txEnabled)
    (hrx : m.state = .idle ∨ m.state = .receiving → rx = m.rxEnabled) :
    FlagsPass (fun m => tickBody c sampled m p) tx rx rr m := by
  simp only [FlagsPass, tickBody, Manager.withFlags_state]
  cases hstate : m.state with
  | autoranging => exact flagsPass_tickAutoranging c p
  | idle => exact flagsPass_tickIdle c p (htx hstate) (hrx (.inl hstate))
  | transmitting => exact flagsPass_tickTransmitting c p
  | receiving => exact flagsPass_tickReceiving c p (hrx (.inr hstate))
  | faulted => exact flagsPass_tickFaulted p sampled

end

/-! ### `dispatch()` -/

section
variable (c : Cfg) {m : Manager} (p : Port)

theorem dispatch_withFlags {tx rx : Bool} (htx : m.state = .idle → tx = m.txEnabled)
    (hrx : m.state = .idle ∨ m.state = .receiving → rx = m.rxEnabled) :
    dispatch c { m with txEnabled := tx, rxEnabled := rx } p =
      ((dispatch c m p).1.withFlags tx rx false, (dispatch c m p).2) :=
  flagsPass_tickBody c p m.resetRequested (m := { m with resetRequested := false }) htx hrx

/-- A tick leaves the intents as they are and the reset request clear. -/
theorem dispatch_flags (m : Manager) :
    (dispatch c m p).1.txEnabled = m.txEnabled ∧ (dispatch c m p).1.rxEnabled = m.rxEnabled ∧
      (dispatch c m p).1.resetRequested = false := by
  have h : dispatch c m p = _ := dispatch_withFlags c p (m := m) (fun _ => rfl) (fun _ => rfl)
  rw [h]
  exact ⟨rfl, rfl, rfl⟩

/-- Only a Faulted tick uses the sample of the reset request (R191). -/
theorem dispatch_resetRequested (h : m.state ≠ .faulted) (b : Bool) :
    dispatch c { m with resetRequested := b } p = dispatch c m p := by
  unfold dispatch tickBody
  cases hstate : m.state with
  | faulted => exact absurd hstate h
  | autoranging | idle | transmitting | receiving => rfl

theorem dispatch_txEnabled (h : m.state ≠ .idle) (b : Bool) :
    dispatch c { m with txEnabled := b } p =
      ({ (dispatch c m p).1 with txEnabled := b }, (dispatch c m p).2) := by
  obtain ⟨-, hrx, hrr⟩ := dispatch_flags c p m
  refine (dispatch_withFlags c p (tx := b) (fun hidle => absurd hidle h) fun _ => rfl).trans ?_
  rw [← hrx, ← hrr]
  rfl

theorem dispatch_rxEnabled (h : m.state ≠ .idle) (h' : m.state ≠ .receiving) (b : Bool) :
    dispatch c { m with rxEnabled := b } p =
      ({ (dispatch c m p).1 with rxEnabled := b }, (dispatch c m p).2) := by
  obtain ⟨htx, -, hrr⟩ := dispatch_flags c p m
  refine (dispatch_withFlags c p (rx := b) (fun _ => rfl)
    fun hread => (hread.elim h h').elim).trans ?_
  rw [← htx, ← hrr]
  rfl

end

/-- Settles O43: the flags pass through a tick, and outside Faulted its body does not depend on the
sample. -/
theorem everyTickClearsTheResetRequest : Obligations.EveryTickClearsTheResetRequest := by
  intro s
  obtain ⟨htx, hrx, hrr⟩ := dispatch_flags s.cfg s.port s.mgr
  refine ⟨_, exec_tick rfl, hrr, rfl, htx, hrx, rfl, rfl, fun hstate b => ?_⟩
  exact exec_tick (dispatch_resetRequested s.cfg s.port hstate b)

/-- Settles O49: a flag that a tick does not read passes through it. -/
theorem intentsAreReadOnlyWhereStated : Obligations.IntentsAreReadOnlyWhereStated := by
  intro s t t' b
  refine ⟨fun hidle h h' => ?_, fun hidle hreceiving h h' => ?_, fun hidle htx h => ?_⟩
  · rw [exec_tick (dispatch_txEnabled s.cfg s.port hidle b)] at h'
    cases h
    cases h'
    rfl
  · rw [exec_tick (dispatch_rxEnabled s.cfg s.port hidle hreceiving b)] at h'
    cases h
    cases h'
    rfl
  · cases h
    dsimp only
    rw [dispatch_idle_of_not_transmit hidle (.inl htx)]
    split
    · obtain hm | hm := enterReceiving_cases s.cfg { s.mgr with resetRequested := false } s.port <;>
        simp [hm]
    · simp [hidle]

end Sys2Proof.Machine
end

section
/-! PROOFS. The bus frames read and written: a header form's bytes against its operands, the table
of the five command frames, and that decoding and encoding agree (30_encoding.md R80 to R89). -/

namespace Sys2Proof.Machine

/-! ### The read forms of a header (R83, R85) -/

section
variable {a n : Nat}

theorem readFrame_replicate (mk : Nat → Instr) (hn : 1 ≤ n) :
    readFrame mk (List.replicate n 0x00#8) = .ok (mk n) := by
  have hne : List.replicate n 0x00#8 ≠ [] := by simp; omega
  rw [readFrame, if_neg hne, List.length_replicate, if_pos rfl]

theorem decodeHeader_read_short (h : a < 0x70) (hn : 1 ≤ n) :
    decodeHeader (readOut a n) = .ok (.busRdShort (BitVec.ofNat 7 a) n) := by
  have hfirst : (BitVec.ofNat 8 a).toNat = a := by simp; omega
  have haddr : (BitVec.ofNat 8 a).truncate 7 = BitVec.ofNat 7 a := by
    apply BitVec.eq_of_toNat_eq
    simp
  rw [readOut, header_read_short h, List.singleton_append, decodeHeader, hfirst, if_pos h, haddr,
    readFrame_replicate _ hn]

theorem longAddress_read_header :
    longAddress (BitVec.ofNat 8 (0x70 + a / 256)) (BitVec.ofNat 8 (a % 256)) =
      BitVec.ofNat 12 a := by
  rw [longAddress, append_eq_ofNat]
  apply BitVec.eq_of_toNat_eq
  simp
  omega

theorem decodeHeader_read_long (h : 0x70 ≤ a) (hmax : a ≤ 0xFFF) (hn : 1 ≤ n) :
    decodeHeader (readOut a n) = .ok (.busRdLong (BitVec.ofNat 12 a) n) := by
  have hfirst : (BitVec.ofNat 8 (0x70 + a / 256)).toNat = 0x70 + a / 256 := by simp; omega
  have haddr : (BitVec.ofNat 12 a).toNat = a := by simp; omega
  rw [readOut, header_read_long h hmax, List.cons_append, List.singleton_append, decodeHeader,
    hfirst, if_neg (by omega), if_pos (by omega), decodeLong, longAddress_read_header, haddr,
    if_neg (by omega)]
  exact readFrame_replicate _ hn

end

/-! ### The header of the address that a frame's first bytes name (R80, R81) -/

section
variable {b0 b1 : Byte}

theorem header_read_of_byte (h : b0.toNat < 0x70) : header (b0.truncate 7).toNat .read = [b0] := by
  have haddr : (b0.truncate 7).toNat = b0.toNat := by simp; omega
  rw [haddr, header_read_short h, BitVec.ofNat_toNat, BitVec.setWidth_eq]

theorem header_write_of_byte (h : 0x80 ≤ b0.toNat) (hmax : b0.toNat < 0xF0) :
    (b0.truncate 7).toNat < 0x70 ∧ header (b0.truncate 7).toNat .write = [b0] := by
  have haddr : 0x80 + (b0.truncate 7).toNat = b0.toNat := by simp; omega
  refine ⟨by omega, ?_⟩
  rw [header_write_short (by omega), haddr, BitVec.ofNat_toNat, BitVec.setWidth_eq]

theorem longAddress_toNat : (longAddress b0 b1).toNat = b0.toNat % 16 * 256 + b1.toNat := by
  have h1 := b1.isLt
  rw [longAddress, append_eq_ofNat]
  simp
  omega

theorem header_read_of_bytes (h : 0x70 ≤ b0.toNat) (hmax : b0.toNat < 0x80)
    (ha : 0x70 ≤ (longAddress b0 b1).toNat) :
    header (longAddress b0 b1).toNat .read = [b0, b1] := by
  have h1 := b1.isLt
  have haddr := longAddress_toNat (b0 := b0) (b1 := b1)
  have hhigh : 0x70 + (longAddress b0 b1).toNat / 256 = b0.toNat := by omega
  have hlow : (longAddress b0 b1).toNat % 256 = b1.toNat := by omega
  rw [header_read_long ha (by omega), hhigh, hlow]
  simp

theorem header_write_of_bytes (h : 0xF0 ≤ b0.toNat) (ha : 0x70 ≤ (longAddress b0 b1).toNat) :
    header (longAddress b0 b1).toNat .write = [b0, b1] := by
  have h0 := b0.isLt
  have h1 := b1.isLt
  have haddr := longAddress_toNat (b0 := b0) (b1 := b1)
  have hhigh : 0xF0 + (longAddress b0 b1).toNat / 256 = b0.toNat := by omega
  have hlow : (longAddress b0 b1).toNat % 256 = b1.toNat := by omega
  rw [header_write_long ha (by omega), hhigh, hlow]
  simp

end

/-! ### What a header form's decoder answers (R84, R85) -/

theorem writeFrame_eq_ok {mk : List Byte → Instr} {data : List Byte} {i : Instr}
    (h : writeFrame mk data = .ok i) : data ≠ [] ∧ i = mk data := by
  unfold writeFrame at h
  split at h
  · cases h
  · next hne => exact ⟨hne, (Except.ok.inj h).symm⟩

theorem readFrame_eq_ok {mk : Nat → Instr} {fill : List Byte} {i : Instr}
    (h : readFrame mk fill = .ok i) :
    ∃ n, 1 ≤ n ∧ fill = List.replicate n 0x00#8 ∧ i = mk n := by
  unfold readFrame at h
  split at h
  · cases h
  · next hne =>
    split at h
    · next hfill => exact ⟨fill.length, List.length_pos_iff.2 hne, hfill, (Except.ok.inj h).symm⟩
    · cases h

/-- An instruction of the bus stream that is well formed and has this encoding. -/
def IsFrame (c : Cfg) (bs : List Byte) (i : Instr) : Prop :=
  encode c i = some bs ∧ i.wellFormed c = true ∧ i.stream = .bus

section
variable {c : Cfg} {bs : List Byte} {i : Instr}

theorem isFrame_busWrShort {a : BitVec 7} {data : List Byte} (ha : a.toNat < 0x70)
    (hdata : data ≠ []) : IsFrame c (header a.toNat .write ++ data) (.busWrShort a data) :=
  ⟨rfl, by simp [Instr.wellFormed, ha, hdata], rfl⟩

theorem isFrame_busWrLong {a : BitVec 12} {data : List Byte} (ha : 0x70 ≤ a.toNat)
    (hdata : data ≠ []) : IsFrame c (header a.toNat .write ++ data) (.busWrLong a data) :=
  ⟨rfl, by simp [Instr.wellFormed, ha, hdata], rfl⟩

theorem isFrame_busRdShort {a : BitVec 7} {n : Nat} (ha : a.toNat < 0x70) (hn : 1 ≤ n) :
    IsFrame c (readOut a.toNat n) (.busRdShort a n) :=
  ⟨rfl, by simp [Instr.wellFormed, ha, hn], rfl⟩

theorem isFrame_busRdLong {a : BitVec 12} {n : Nat} (ha : 0x70 ≤ a.toNat) (hn : 1 ≤ n) :
    IsFrame c (readOut a.toNat n) (.busRdLong a n) :=
  ⟨rfl, by simp [Instr.wellFormed, ha, hn], rfl⟩

theorem isFrame_of_decodeLong_read {b0 : Byte} {rest : List Byte} (h0 : 0x70 ≤ b0.toNat)
    (hmax : b0.toNat < 0x80) (h : decodeLong .read b0 rest = .ok i) :
    IsFrame c (b0 :: rest) i := by
  cases rest with
  | nil => cases h
  | cons b1 rest =>
    rw [decodeLong] at h
    split at h
    · cases h
    · next hlong =>
      obtain ⟨n, hn, rfl, rfl⟩ := readFrame_eq_ok h
      have hframe := isFrame_busRdLong (c := c) (Nat.not_lt.1 hlong) hn
      rwa [readOut, header_read_of_bytes h0 hmax (Nat.not_lt.1 hlong)] at hframe

theorem isFrame_of_decodeLong_write {b0 : Byte} {rest : List Byte} (h0 : 0xF0 ≤ b0.toNat)
    (h : decodeLong .write b0 rest = .ok i) : IsFrame c (b0 :: rest) i := by
  cases rest with
  | nil => cases h
  | cons b1 rest =>
    rw [decodeLong] at h
    split at h
    · cases h
    · next hlong =>
      obtain ⟨hdata, rfl⟩ := writeFrame_eq_ok h
      have hframe := isFrame_busWrLong (c := c) (Nat.not_lt.1 hlong) hdata
      rwa [header_write_of_bytes h0 (Nat.not_lt.1 hlong)] at hframe

/-- What the four header forms' decoder reads is a frame of what it answers (R83). -/
theorem isFrame_of_decodeHeader (h : decodeHeader bs = .ok i) : IsFrame c bs i := by
  cases bs with
  | nil => cases h
  | cons b0 rest =>
    rw [decodeHeader] at h
    split_ifs at h with hreadShort hreadLong hwriteShort
    · obtain ⟨n, hn, rfl, rfl⟩ := readFrame_eq_ok h
      have haddr : (b0.truncate 7).toNat < 0x70 := by simp; omega
      have hframe := isFrame_busRdShort (c := c) haddr hn
      rwa [readOut, header_read_of_byte hreadShort] at hframe
    · exact isFrame_of_decodeLong_read (by omega) hreadLong h
    · obtain ⟨hdata, rfl⟩ := writeFrame_eq_ok h
      obtain ⟨haddr, hheader⟩ := header_write_of_byte (b0 := b0) (by omega) hwriteShort
      have hframe := isFrame_busWrShort (c := c) haddr hdata
      rwa [hheader] at hframe
    · exact isFrame_of_decodeLong_write (Nat.not_lt.1 hwriteShort) h

/-! ### The table of the command frames (R89) -/

theorem lookupFrame_mem {l : List (List Byte × Instr)} (h : lookupFrame bs l = some i) :
    (bs, i) ∈ l := by
  induction l with
  | nil => cases h
  | cons e rest ih =>
    rw [lookupFrame] at h
    split at h
    · next heq =>
      cases h
      simp [heq]
    · exact List.mem_cons_of_mem _ (ih h)

theorem lookupFrame_eq_none {l : List (List Byte × Instr)} :
    lookupFrame bs l = none ↔ bs ∉ l.map Prod.fst := by
  induction l with
  | nil => simp [lookupFrame]
  | cons e rest ih =>
    rw [lookupFrame]
    split
    · next heq => simp [heq]
    · next hne => simp [ih, hne]

/-- A frame that is in the table once is read as its entry. -/
theorem lookupFrame_of_mem {l : List (List Byte × Instr)} (hnodup : (l.map Prod.fst).Nodup)
    (h : (bs, i) ∈ l) : lookupFrame bs l = some i := by
  cases hfound : lookupFrame bs l with
  | none => exact absurd (List.mem_map.2 ⟨_, h, rfl⟩) (lookupFrame_eq_none.1 hfound)
  | some j =>
    have hsame := List.inj_on_of_nodup_map hnodup (lookupFrame_mem hfound) h rfl
    exact congrArg (some ·.2) hsame

theorem isFrame_of_mem_commandFrames (h : (bs, i) ∈ commandFrames c) : IsFrame c bs i := by
  simp only [commandFrames, List.mem_cons, List.not_mem_nil, or_false, Prod.mk.injEq] at h
  obtain ⟨rfl, rfl⟩ | ⟨rfl, rfl⟩ | ⟨rfl, rfl⟩ | ⟨rfl, rfl⟩ | ⟨rfl, rfl⟩ := h
  all_goals exact ⟨rfl, rfl, rfl⟩

/-! ### The outbound FIFO frame (R88) -/

theorem fifoPayload_fifoFrame (c : Cfg) (p : List Byte) : fifoPayload c (fifoFrame c p) = p := by
  rw [fifoPayload, fifoFrame, ← header_length c.addrFifodata .write, ← List.drop_drop,
    List.drop_left]
  rfl

/-! ### `decodeFrame` by the table, the FIFO frame and the header forms -/

theorem decodeFrame_command (h : lookupFrame bs (commandFrames c) = some i) :
    decodeFrame c bs = .ok i := by
  simp [decodeFrame, h]

theorem decodeFrame_fifo {p : List Byte} (hp : p.length ≤ 254)
    (h : fifoFrame c p ∉ (commandFrames c).map Prod.fst) :
    decodeFrame c (fifoFrame c p) = .ok (.fifoTxData p) := by
  simp [decodeFrame, lookupFrame_eq_none.2 h, fifoPayload_fifoFrame, hp]

theorem decodeFrame_header (h : bs ∉ (commandFrames c).map Prod.fst)
    (hfifo : ∀ p, p.length ≤ 254 → bs ≠ fifoFrame c p) :
    decodeFrame c bs = decodeHeader bs := by
  have hno : ¬ ((fifoPayload c bs).length ≤ 254 ∧ bs = fifoFrame c (fifoPayload c bs)) :=
    fun ⟨hlen, heq⟩ => hfifo _ hlen heq
  simp only [decodeFrame, lookupFrame_eq_none.2 h, if_neg hno]

theorem isFrame_of_decodeFrame (h : decodeFrame c bs = .ok i) : IsFrame c bs i := by
  unfold decodeFrame at h
  split at h
  · next hfound =>
    cases h
    exact isFrame_of_mem_commandFrames (lookupFrame_mem hfound)
  · split at h
    · next hfifo =>
      cases h
      exact ⟨congrArg some hfifo.2.symm, decide_eq_true hfifo.1, rfl⟩
    · exact isFrame_of_decodeHeader h

end

/-- Settles O5: each of the decoder's three branches answers an instruction that the bytes are a
frame of. -/
theorem decodedFramesEncodeBack : Obligations.DecodedFramesEncodeBack :=
  fun _ _ _ h => isFrame_of_decodeFrame h

/-- A row of the bus stream is a command, the FIFO frame, or a header form, whose frame its decoder
reads back. -/
theorem isFrame_cases {c : Cfg} {bs : List Byte} {i : Instr} (h : IsFrame c bs i) :
    (bs, i) ∈ commandFrames c ∨
    (∃ p, i = .fifoTxData p ∧ p.length ≤ 254 ∧ bs = fifoFrame c p) ∨
    ((∀ p, i ≠ .fifoTxData p) ∧ decodeHeader bs = .ok i) := by
  obtain ⟨henc, hwf, hbus⟩ := h
  cases i with
  | busWrShort a data =>
    obtain rfl := Option.some.inj henc
    simp only [Instr.wellFormed, Bool.and_eq_true, decide_eq_true_eq] at hwf
    exact .inr (.inr ⟨nofun, by simpa using decodeHeader_write_short hwf.1 hwf.2⟩)
  | busWrLong a data =>
    obtain rfl := Option.some.inj henc
    simp only [Instr.wellFormed, Bool.and_eq_true, decide_eq_true_eq] at hwf
    have hmax : a.toNat ≤ 0xFFF := Nat.le_of_lt_succ a.isLt
    exact .inr (.inr ⟨nofun, by simpa using decodeHeader_write_long hwf.1 hmax hwf.2⟩)
  | busRdShort a n =>
    obtain rfl := Option.some.inj henc
    simp only [Instr.wellFormed, Bool.and_eq_true, decide_eq_true_eq] at hwf
    exact .inr (.inr ⟨nofun, by simpa using decodeHeader_read_short hwf.1 hwf.2⟩)
  | busRdLong a n =>
    obtain rfl := Option.some.inj henc
    simp only [Instr.wellFormed, Bool.and_eq_true, decide_eq_true_eq] at hwf
    have hmax : a.toNat ≤ 0xFFF := Nat.le_of_lt_succ a.isLt
    exact .inr (.inr ⟨nofun, by simpa using decodeHeader_read_long hwf.1 hmax hwf.2⟩)
  | fifoTxData p =>
    obtain rfl := Option.some.inj henc
    exact .inr (.inl ⟨p, rfl, of_decide_eq_true hwf, rfl⟩)
  | cmdCommit | cmdPwrStandby | cmdPwrFulltx | cmdPwrFullrx | cmdRngStart =>
    obtain rfl := Option.some.inj henc
    exact .inl (by simp [commandFrames])
  | _ => cases hbus

/-- Settles O4: a frame of the table is read as its one entry, and the premises let no other frame
be in the table or be the FIFO frame. -/
theorem framesDecodeToTheirInstruction : Obligations.FramesDecodeToTheirInstruction := by
  intro c i bs hbus hwf henc hfifo hnodup hcommand
  by_cases hmem : bs ∈ (commandFrames c).map Prod.fst
  · exact decodeFrame_command (lookupFrame_of_mem hnodup (hcommand hmem))
  · obtain h | ⟨p, rfl, hp, rfl⟩ | ⟨hne, h⟩ := isFrame_cases ⟨henc, hwf, hbus⟩
    · exact absurd (List.mem_map.2 ⟨_, h, rfl⟩) hmem
    · exact decodeFrame_fifo hp hmem
    · rw [decodeFrame_header hmem (hfifo hne), h]

/-- Settles O8: both decoders run on the six words. -/
theorem tableWordsDecode : Obligations.TableWordsDecode := by
  refine ⟨?_, ?_, ?_, ?_, ?_, ?_⟩ <;> decide

end Sys2Proof.Machine
end

section
/-! PROOFS. The chunk rows: for each, the bytes of its chunk, its form and its value; the decoder,
the fetch and the rows' own meanings all follow this one table (30_encoding.md R90 to R99,
41_chunk_decoder.md R150 to R166). -/

namespace Sys2Proof.Machine

/-! ### The tags of a well-formed configuration (00_scope.md R12) -/

/-- A tag that none of the rows with an exact tag and a fixed length has (30_encoding.md R94). -/
def Untagged (c : Cfg) (t : Byte) : Prop := t ∉ c.tags ∧ t ≠ 0x31#8 ∧ t ≠ 0x74#8

section
variable {c : Cfg} (hc : c.WellFormed)
include hc

theorem tagClass_tagFreqoffs : tagClass c.tagFreqoffs = 2 := by
  obtain ⟨-, -, -, ⟨hclass, -⟩, -⟩ := hc
  rw [tagClass, hclass]
  rfl

theorem tagClass_tagAntrssi2 : tagClass c.tagAntrssi2 = 2 := by
  obtain ⟨-, -, -, ⟨-, hclass⟩, -⟩ := hc
  rw [tagClass, hclass]
  rfl

theorem tagClass_tagTimer : tagClass c.tagTimer = 3 := by
  obtain ⟨-, -, -, -, ⟨hclass, -, -⟩, -⟩ := hc
  rw [tagClass, hclass]
  rfl

theorem tagClass_tagRffreqoffs : tagClass c.tagRffreqoffs = 3 := by
  obtain ⟨-, -, -, -, ⟨-, hclass, -⟩, -⟩ := hc
  rw [tagClass, hclass]
  rfl

theorem tagClass_tagAntrssi3 : tagClass c.tagAntrssi3 = 3 := by
  obtain ⟨-, -, -, -, ⟨-, -, hclass⟩, -⟩ := hc
  rw [tagClass, hclass]
  rfl

end

theorem tagClass_rssi : tagClass 0x31#8 = 1 := by decide

theorem tagClass_datarate : tagClass 0x74#8 = 3 := by decide

theorem tagClass_data : tagClass 0xE1#8 = 7 := by decide

/-- Only tags of class 1, 2 or 3 are exact tags of a row of a fixed length (R94). -/
theorem untagged_of_ne {c : Cfg} (hc : c.WellFormed) {t : Byte}
    (h1 : tagClass t = 1 → t ≠ 0x31#8)
    (h2 : tagClass t = 2 → t ≠ c.tagFreqoffs ∧ t ≠ c.tagAntrssi2)
    (h3 : tagClass t = 3 →
      t ≠ c.tagTimer ∧ t ≠ c.tagRffreqoffs ∧ t ≠ 0x74#8 ∧ t ≠ c.tagAntrssi3) :
    Untagged c t := by
  have hfreqoffs : t ≠ c.tagFreqoffs := by
    rintro rfl
    exact (h2 (tagClass_tagFreqoffs hc)).1 rfl
  have hantrssi2 : t ≠ c.tagAntrssi2 := by
    rintro rfl
    exact (h2 (tagClass_tagAntrssi2 hc)).2 rfl
  have hrssi : t ≠ 0x31#8 := by
    rintro rfl
    exact h1 tagClass_rssi rfl
  have hclass3 : t ≠ c.tagTimer ∧ t ≠ c.tagRffreqoffs ∧ t ≠ 0x74#8 ∧ t ≠ c.tagAntrssi3 := by
    by_cases h : tagClass t = 3
    · exact h3 h
    · refine ⟨?_, ?_, ?_, ?_⟩ <;> rintro rfl
      · exact h (tagClass_tagTimer hc)
      · exact h (tagClass_tagRffreqoffs hc)
      · exact h tagClass_datarate
      · exact h (tagClass_tagAntrssi3 hc)
  simp [Untagged, Cfg.tags, hfreqoffs, hantrssi2, hrssi, hclass3]

theorem untagged_of_class {c : Cfg} (hc : c.WellFormed) {t : Byte}
    (h : tagClass t = 0 ∨ 4 ≤ tagClass t) : Untagged c t :=
  untagged_of_ne hc (by omega) (by omega) (by omega)

/-! ### The table of the rows -/

/-- The bytes of a complete chunk with the row's form and its value (R94, R97, R98, R153 to
R166). -/
inductive ChunkRow (c : Cfg) : List Byte → Instr → Chunk → Prop where
  | rssi (b1 : Byte) : ChunkRow c [0x31#8, b1] (.chkRssi b1) (.rssi (sext8 b1))
  | freqoffs (b1 b2 : Byte) :
    ChunkRow c [c.tagFreqoffs, b1, b2] (.chkFreqoffs b1 b2) (.frequencyOffset (u16 b1 b2))
  | antrssi2 (b1 b2 : Byte) :
    ChunkRow c [c.tagAntrssi2, b1, b2] (.chkAntrssi2 b1 b2)
      (.antennaRssiPair (sext8 b1) (sext8 b2))
  | timer (b1 b2 b3 : Byte) :
    ChunkRow c [c.tagTimer, b1, b2, b3] (.chkTimer b1 b2 b3) (.timer (u24 b1 b2 b3))
  | rffreqoffs (b1 b2 b3 : Byte) :
    ChunkRow c [c.tagRffreqoffs, b1, b2, b3] (.chkRffreqoffs b1 b2 b3)
      (.rfFrequencyOffset (u24 b1 b2 b3))
  | datarate (b1 b2 b3 : Byte) :
    ChunkRow c [0x74#8, b1, b2, b3] (.chkDatarate b1 b2 b3) (.dataRate (u24 b1 b2 b3))
  | antrssi3 (b1 b2 b3 : Byte) :
    ChunkRow c [c.tagAntrssi3, b1, b2, b3] (.chkAntrssi3 b1 b2 b3) (.antennaRssiTriple b1 b2 b3)
  | data (flags : Byte) (p : List Byte) (hp : p.length ≤ 254) :
    ChunkRow c (0xE1#8 :: BitVec.ofNat 8 (p.length + 1) :: flags :: p) (.chkData flags p)
      (.data flags p)
  | unknownC0 (t : Byte) (h : tagClass t = 0) : ChunkRow c [t] (.chkUnknownC0 t) (.unknown [t])
  | unknownC1 (t b1 : Byte) (h : tagClass t = 1) (ht : Untagged c t) :
    ChunkRow c [t, b1] (.chkUnknownC1 t b1) (.unknown [t, b1])
  | unknownC2 (t b1 b2 : Byte) (h : tagClass t = 2) (ht : Untagged c t) :
    ChunkRow c [t, b1, b2] (.chkUnknownC2 t b1 b2) (.unknown [t, b1, b2])
  | unknownC3 (t b1 b2 b3 : Byte) (h : tagClass t = 3) (ht : Untagged c t) :
    ChunkRow c [t, b1, b2, b3] (.chkUnknownC3 t b1 b2 b3) (.unknown [t, b1, b2, b3])
  | unknownC7 (t : Byte) (body : List Byte) (h : tagClass t = 7) (hb : body.length ≤ 255)
    (ht : t = 0xE1#8 → body = []) :
    ChunkRow c (t :: BitVec.ofNat 8 body.length :: body) (.chkUnknownC7 t body)
      (.unknown (t :: BitVec.ofNat 8 body.length :: body))
  | configured (t : Byte) (body : List Byte) (h : configuredLen c t = some (body.length + 1)) :
    ChunkRow c (t :: body) (.chkBadclass t body) (.unknown (t :: body))

/-! ### A row's chunk is what the decoder takes -/

section
variable {c : Cfg} {t : Byte} {body : List Byte}

theorem tagClass_of_configuredLen {n : Nat} (h : configuredLen c t = some n) :
    tagClass t = 4 ∨ tagClass t = 5 ∨ tagClass t = 6 := by
  unfold configuredLen at h
  split at h
  · next h4 => exact .inl h4
  · next h5 => exact .inr (.inl h5)
  · next h6 => exact .inr (.inr h6)
  · cases h

/-- A tag without an exact row of a fixed length is read by the Data row or by its class. -/
theorem chunkInstr_untagged (h : Untagged c t)
    (hdata : ¬ (t = 0xE1#8 ∧ byteAt (t :: body) 1 ≠ 0x00#8)) :
    chunkInstr c (t :: body) = match tagClass t with
      | 0 => .chkUnknownC0 t
      | 1 => .chkUnknownC1 t (byteAt (t :: body) 1)
      | 2 => .chkUnknownC2 t (byteAt (t :: body) 1) (byteAt (t :: body) 2)
      | 3 => .chkUnknownC3 t (byteAt (t :: body) 1) (byteAt (t :: body) 2) (byteAt (t :: body) 3)
      | 7 => .chkUnknownC7 t (body.drop 1)
      | _ => .chkBadclass t body := by
  simp only [Untagged, Cfg.tags, List.mem_cons, List.not_mem_nil, or_false, not_or] at h
  obtain ⟨⟨h1, h2, h3, h4, h5⟩, h6, h7⟩ := h
  have ht : byteAt (t :: body) 0 = t := rfl
  simp only [chunkInstr, ht, if_neg h1, if_neg h2, if_neg h3, if_neg h4, if_neg h5, if_neg h6,
    if_neg h7, if_neg hdata]
  rfl

theorem variant_untagged (h : Untagged c t)
    (hdata : ¬ (t = 0xE1#8 ∧ byteAt (t :: body) 1 ≠ 0x00#8)) :
    variant c (t :: body) = .unknown (t :: body) := by
  simp only [Untagged, Cfg.tags, List.mem_cons, List.not_mem_nil, or_false, not_or] at h
  obtain ⟨⟨h1, h2, h3, h4, h5⟩, h6, h7⟩ := h
  have ht : byteAt (t :: body) 0 = t := rfl
  have hdata' : ¬ (t = 0xE1#8 ∧ 1 ≤ (byteAt (t :: body) 1).toNat) := by
    rintro ⟨rfl, hlen⟩
    refine hdata ⟨rfl, fun hzero => ?_⟩
    rw [hzero] at hlen
    exact absurd hlen (by decide)
  simp only [variant, ht, if_neg h1, if_neg h2, if_neg h3, if_neg h4, if_neg h5, if_neg h6,
    if_neg h7, if_neg hdata']

end

theorem ne_dataTag_of_class {t : Byte} (h : tagClass t ≠ 7) : t ≠ 0xE1#8 := by
  rintro rfl
  exact h tagClass_data

section
variable {c : Cfg} {ch : List Byte} {i : Instr} {v : Chunk}


/-- The exact tags in the order in which they are looked for are pairwise distinct (R12, R94). -/
theorem exactTags_pairwise (hc : c.WellFormed) :
    [0x31#8, c.tagFreqoffs, c.tagAntrssi2, c.tagTimer, c.tagRffreqoffs, 0x74#8, c.tagAntrssi3,
      0xE1#8].Pairwise (fun earlier later => later ≠ earlier) := by
  obtain ⟨-, -, hnodup, -⟩ := hc
  simp only [Cfg.tags, List.cons_append, List.nil_append, List.nodup_cons, List.pairwise_cons,
    List.mem_cons, List.not_mem_nil, or_false, not_or] at hnodup ⊢
  grind

theorem ChunkRow.chunkLen (hc : c.WellFormed) (h : ChunkRow c ch i v) :
    chunkLen c ch = .known ch.length := by
  cases h with
  | rssi b1 => exact chunkLen_class1 tagClass_rssi
  | freqoffs b1 b2 => exact chunkLen_class2 (tagClass_tagFreqoffs hc)
  | antrssi2 b1 b2 => exact chunkLen_class2 (tagClass_tagAntrssi2 hc)
  | timer b1 b2 b3 => exact chunkLen_class3 (tagClass_tagTimer hc)
  | rffreqoffs b1 b2 b3 => exact chunkLen_class3 (tagClass_tagRffreqoffs hc)
  | datarate b1 b2 b3 => exact chunkLen_class3 tagClass_datarate
  | antrssi3 b1 b2 b3 => exact chunkLen_class3 (tagClass_tagAntrssi3 hc)
  | data flags p hp =>
    rw [chunkLen_class7 _ tagClass_data]
    simp
    omega
  | unknownC0 t h => exact chunkLen_class0 h
  | unknownC1 t b1 h ht => exact chunkLen_class1 h
  | unknownC2 t b1 b2 h ht => exact chunkLen_class2 h
  | unknownC3 t b1 b2 b3 h ht => exact chunkLen_class3 h
  | unknownC7 t body h hb ht =>
    rw [chunkLen_class7 _ h]
    simp
    omega
  | configured t body h => exact chunkLen_configured_some h

theorem ChunkRow.chunkInstr_variant (hc : c.WellFormed) (h : ChunkRow c ch i v) :
    chunkInstr c ch = i ∧ variant c ch = v := by
  have hexact := exactTags_pairwise hc
  simp only [List.pairwise_cons, List.mem_cons, List.not_mem_nil, or_false, forall_eq_or_imp,
    forall_eq] at hexact
  cases h with
  | data flags p hp =>
    have hlen : (BitVec.ofNat 8 (p.length + 1)).toNat = p.length + 1 := by simp; omega
    have hlen0 : BitVec.ofNat 8 (p.length + 1) ≠ 0#8 := by
      intro h
      rw [h] at hlen
      simp at hlen
    simp [chunkInstr, variant, byteAt, hexact, hlen, hlen0]
  | unknownC0 t h =>
    have ht := untagged_of_class hc (.inl h)
    have hdata : t ≠ 0xE1#8 := ne_dataTag_of_class (by omega)
    simp [chunkInstr_untagged ht, variant_untagged ht, hdata, h]
  | unknownC1 t b1 h ht =>
    have hdata : t ≠ 0xE1#8 := ne_dataTag_of_class (by omega)
    simp [chunkInstr_untagged ht, variant_untagged ht, hdata, h, byteAt]
  | unknownC2 t b1 b2 h ht =>
    have hdata : t ≠ 0xE1#8 := ne_dataTag_of_class (by omega)
    simp [chunkInstr_untagged ht, variant_untagged ht, hdata, h, byteAt]
  | unknownC3 t b1 b2 b3 h ht =>
    have hdata : t ≠ 0xE1#8 := ne_dataTag_of_class (by omega)
    simp [chunkInstr_untagged ht, variant_untagged ht, hdata, h, byteAt]
  | unknownC7 t body h hb ht =>
    have hclass := untagged_of_class hc (.inr (by omega : 4 ≤ tagClass t))
    have hdata : ¬ (t = 0xE1#8 ∧ byteAt (t :: BitVec.ofNat 8 body.length :: body) 1 ≠ 0#8) := by
      rintro ⟨rfl, hne⟩
      exact hne (by simp [ht rfl, byteAt])
    simp [chunkInstr_untagged hclass hdata, variant_untagged hclass hdata, h]
  | configured t body h =>
    obtain hclass | hclass | hclass := tagClass_of_configuredLen h
    all_goals
      have ht := untagged_of_class hc (.inr (by omega : 4 ≤ tagClass t))
      have hdata : t ≠ 0xE1#8 := ne_dataTag_of_class (by omega)
      simp [chunkInstr_untagged ht, variant_untagged ht, hdata, hclass]
  | _ => simp [chunkInstr, variant, byteAt, hexact]

/-! ### Every complete chunk is a row's chunk -/

section
variable {t : Byte} {body : List Byte}

theorem exists_chunkRow_class1 (hc : c.WellFormed) (b1 : Byte) (h : tagClass t = 1) :
    ∃ i v, ChunkRow c [t, b1] i v := by
  by_cases htag : t = 0x31#8
  · subst htag
    exact ⟨_, _, .rssi b1⟩
  · exact ⟨_, _, .unknownC1 t b1 h (untagged_of_ne hc (fun _ => htag) (by omega) (by omega))⟩

theorem exists_chunkRow_class2 (hc : c.WellFormed) (b1 b2 : Byte) (h : tagClass t = 2) :
    ∃ i v, ChunkRow c [t, b1, b2] i v := by
  by_cases h1 : t = c.tagFreqoffs
  · subst h1
    exact ⟨_, _, .freqoffs b1 b2⟩
  by_cases h2 : t = c.tagAntrssi2
  · subst h2
    exact ⟨_, _, .antrssi2 b1 b2⟩
  exact ⟨_, _, .unknownC2 t b1 b2 h (untagged_of_ne hc (by omega) (fun _ => ⟨h1, h2⟩) (by omega))⟩

theorem exists_chunkRow_class3 (hc : c.WellFormed) (b1 b2 b3 : Byte) (h : tagClass t = 3) :
    ∃ i v, ChunkRow c [t, b1, b2, b3] i v := by
  by_cases h1 : t = c.tagTimer
  · subst h1
    exact ⟨_, _, .timer b1 b2 b3⟩
  by_cases h2 : t = c.tagRffreqoffs
  · subst h2
    exact ⟨_, _, .rffreqoffs b1 b2 b3⟩
  by_cases h3 : t = 0x74#8
  · subst h3
    exact ⟨_, _, .datarate b1 b2 b3⟩
  by_cases h4 : t = c.tagAntrssi3
  · subst h4
    exact ⟨_, _, .antrssi3 b1 b2 b3⟩
  exact ⟨_, _, .unknownC3 t b1 b2 b3 h
    (untagged_of_ne hc (by omega) (by omega) (fun _ => ⟨h1, h2, h3, h4⟩))⟩

/-- A class-7 chunk that counts no byte is no Data chunk (R92, R97). -/
theorem exists_chunkRow_class7 (h : tagClass t = 7) (hlen : body.length ≤ 255) :
    ∃ i v, ChunkRow c (t :: BitVec.ofNat 8 body.length :: body) i v := by
  by_cases hdata : t = 0xE1#8 ∧ body ≠ []
  · obtain ⟨rfl, hne⟩ := hdata
    obtain ⟨flags, p, rfl⟩ := List.exists_cons_of_ne_nil hne
    exact ⟨_, _, .data flags p (by simpa [Nat.lt_succ_iff] using hlen)⟩
  · exact ⟨_, _, .unknownC7 t body h hlen (by simpa using hdata)⟩

end

/-- By class, and in classes 1, 2, 3 and 7 by the exact tags. -/
theorem exists_chunkRow (hc : c.WellFormed) (h : Sys2Proof.chunkLen c ch = .known ch.length) :
    ∃ i v, ChunkRow c ch i v := by
  cases ch with
  | nil => cases h
  | cons t body =>
    have hlt := tagClass_lt t
    by_cases h0 : tagClass t = 0
    · rw [chunkLen_class0 h0] at h
      obtain rfl : body = [] := by simpa using h
      exact ⟨_, _, .unknownC0 t h0⟩
    by_cases h1 : tagClass t = 1
    · rw [chunkLen_class1 h1] at h
      obtain ⟨b1, rfl⟩ := List.length_eq_one_iff.1 (by simpa using h.symm)
      exact exists_chunkRow_class1 hc b1 h1
    by_cases h2 : tagClass t = 2
    · rw [chunkLen_class2 h2] at h
      obtain ⟨b1, b2, rfl⟩ := List.length_eq_two.1 (by simpa using h.symm)
      exact exists_chunkRow_class2 hc b1 b2 h2
    by_cases h3 : tagClass t = 3
    · rw [chunkLen_class3 h3] at h
      obtain ⟨b1, b2, b3, rfl⟩ := List.length_eq_three.1 (by simpa using h.symm)
      exact exists_chunkRow_class3 hc b1 b2 b3 h3
    by_cases h7 : tagClass t = 7
    · cases body with
      | nil => simp [Sys2Proof.chunkLen, h7] at h
      | cons b1 rest =>
        rw [chunkLen_class7 b1 h7] at h
        have hb1 := b1.isLt
        have hlen : b1.toNat = rest.length := by simpa using h
        obtain rfl : b1 = BitVec.ofNat 8 rest.length := by simp [← hlen]
        exact exists_chunkRow_class7 h7 (by omega)
    cases hcfg : configuredLen c t with
    | none =>
      rw [chunkLen_configured_none (by omega) (by omega) hcfg] at h
      cases h
    | some n =>
      rw [chunkLen_configured_some hcfg] at h
      obtain rfl : n = body.length + 1 := by simpa using h
      exact ⟨_, _, .configured t body hcfg⟩

/-- A complete chunk's row is the one that `chunkInstr` and `variant` read from its bytes. -/
theorem chunkRow_of_complete (hc : c.WellFormed) (h : Sys2Proof.chunkLen c ch = .known ch.length) :
    ChunkRow c ch (chunkInstr c ch) (variant c ch) := by
  obtain ⟨i, v, hrow⟩ := exists_chunkRow hc h
  obtain ⟨hi, hv⟩ := hrow.chunkInstr_variant hc
  rwa [hi, hv]

/-! ### The encoder and the rows -/

/-- A row's form is well formed and its chunk is its encoding. -/
theorem ChunkRow.encodes (h : ChunkRow c ch i v) :
    i.stream = .chunk ∧ i.wellFormed c = true ∧ encode c i = some ch := by
  cases h with
  | configured t body h =>
    have hclass := tagClass_of_configuredLen h
    simp [Instr.stream, Instr.wellFormed, encode, h, hclass]
  | unknownC1 t b1 h ht | unknownC2 t b1 b2 h ht | unknownC3 t b1 b2 b3 h ht =>
    simp_all [Untagged, Cfg.tags, Instr.stream, Instr.wellFormed, encode]
  | _ => simp_all [Instr.stream, Instr.wellFormed, encode]

/-- A well-formed chunk form is a row's, or it is a tag whose class has no length. -/
theorem chunkRow_of_wellFormed (hc : c.WellFormed) (hs : i.stream = .chunk)
    (hwf : i.wellFormed c = true) (henc : encode c i = some ch) :
    (∃ v, ChunkRow c ch i v) ∨
    ∃ t, i = .chkBadclass t [] ∧ configuredLen c t = none ∧ 4 ≤ tagClass t ∧ tagClass t ≤ 6 ∧
      ch = [t] := by
  cases i with
  | chkRssi b1 =>
    cases henc
    exact .inl ⟨_, .rssi b1⟩
  | chkFreqoffs b1 b2 =>
    cases henc
    exact .inl ⟨_, .freqoffs b1 b2⟩
  | chkAntrssi2 b1 b2 =>
    cases henc
    exact .inl ⟨_, .antrssi2 b1 b2⟩
  | chkTimer b1 b2 b3 =>
    cases henc
    exact .inl ⟨_, .timer b1 b2 b3⟩
  | chkRffreqoffs b1 b2 b3 =>
    cases henc
    exact .inl ⟨_, .rffreqoffs b1 b2 b3⟩
  | chkDatarate b1 b2 b3 =>
    cases henc
    exact .inl ⟨_, .datarate b1 b2 b3⟩
  | chkAntrssi3 b1 b2 b3 =>
    cases henc
    exact .inl ⟨_, .antrssi3 b1 b2 b3⟩
  | chkData flags p =>
    cases henc
    exact .inl ⟨_, .data flags p (of_decide_eq_true hwf)⟩
  | chkUnknownC0 t =>
    cases henc
    exact .inl ⟨_, .unknownC0 t (of_decide_eq_true hwf)⟩
  | chkUnknownC1 t b1 =>
    obtain ⟨h, ht⟩ := of_decide_eq_true hwf
    have htag := untagged_of_ne hc (fun _ => ht) (by omega) (by omega)
    cases henc
    exact .inl ⟨_, .unknownC1 t b1 h htag⟩
  | chkUnknownC2 t b1 b2 =>
    obtain ⟨h, ht⟩ := of_decide_eq_true hwf
    have htag := untagged_of_ne hc (by omega) (fun _ => ht) (by omega)
    cases henc
    exact .inl ⟨_, .unknownC2 t b1 b2 h htag⟩
  | chkUnknownC3 t b1 b2 b3 =>
    obtain ⟨h, ht⟩ := of_decide_eq_true hwf
    have htag := untagged_of_ne hc (by omega) (by omega) (fun _ => ht)
    cases henc
    exact .inl ⟨_, .unknownC3 t b1 b2 b3 h htag⟩
  | chkUnknownC7 t body =>
    obtain ⟨h, hb, ht⟩ := of_decide_eq_true hwf
    cases henc
    exact .inl ⟨_, .unknownC7 t body h hb ht⟩
  | chkBadclass t body =>
    obtain rfl := Option.some.inj henc
    simp only [Instr.wellFormed, Bool.and_eq_true, decide_eq_true_eq] at hwf
    obtain ⟨hclass, hbody⟩ := hwf
    cases hcfg : configuredLen c t with
    | none =>
      obtain rfl : body = [] := by simpa [hcfg] using hbody
      exact .inr ⟨t, rfl, hcfg, by omega, by omega, rfl⟩
    | some n =>
      obtain rfl : body.length + 1 = n := by simpa [hcfg] using hbody
      exact .inl ⟨_, .configured t body hcfg⟩
  | _ => cases hs


/-! ### Fetching and decoding a row's chunk, whatever follows it (R99, R152) -/

theorem fetchChunk_known {n : Nat} {bs : List Byte} (h : Sys2Proof.chunkLen c bs = .known n)
    (hn : n ≤ bs.length) : fetchChunk c bs = .instr (chunkInstr c (bs.take n)) (bs.drop n) := by
  simp [fetchChunk, h, Nat.not_lt.2 hn]

theorem ChunkRow.chunkLen_append (hc : c.WellFormed) (h : ChunkRow c ch i v) (more : List Byte) :
    Sys2Proof.chunkLen c (ch ++ more) = .known ch.length := by
  rw [Machine.chunkLen_append more (by simp [h.chunkLen hc]), h.chunkLen hc]

theorem ChunkRow.fetches (hc : c.WellFormed) (h : ChunkRow c ch i v) (more : List Byte) :
    fetchChunk c (ch ++ more) = .instr i more := by
  rw [fetchChunk_known (h.chunkLen_append hc more) (by simp), List.take_left, List.drop_left,
    (h.chunkInstr_variant hc).1]

theorem ChunkRow.decodes (hc : c.WellFormed) (h : ChunkRow c ch i v) (more : List Byte) :
    decodeChunk c (ch ++ more) = .chunk v more := by
  rw [decodeChunk_known (h.chunkLen_append hc more) (by simp), List.take_left, List.drop_left,
    (h.chunkInstr_variant hc).2]

/-- The length rule reads the tag, and of class 7 one byte more (R91). -/
theorem chunkLen_cons_of_class {t : Byte} (body : List Byte) (h : tagClass t ≠ 7) :
    Sys2Proof.chunkLen c (t :: body) = Sys2Proof.chunkLen c [t] := by
  simp only [Sys2Proof.chunkLen]
  split <;> simp_all

/-- A known length is known from the chunk's own bytes (R152). -/
theorem chunkLen_take {n : Nat} {bs : List Byte} (hc : c.WellFormed)
    (h : Sys2Proof.chunkLen c bs = .known n) (hn : n ≤ bs.length) :
    Sys2Proof.chunkLen c (bs.take n) = .known (bs.take n).length := by
  have hpos := (chunkLen_bounds hc h).1
  obtain ⟨k, rfl⟩ : ∃ k, n = k + 1 := ⟨n - 1, by omega⟩
  rw [List.length_take_of_le hn]
  cases bs with
  | nil => cases h
  | cons t body =>
    rw [List.take_succ_cons]
    by_cases h7 : tagClass t = 7
    · cases body with
      | nil => simp [Sys2Proof.chunkLen, h7] at h
      | cons b1 rest =>
        rw [chunkLen_class7 b1 h7] at h
        obtain rfl : k = b1.toNat + 1 := by simpa using h.symm
        rw [List.take_succ_cons, chunkLen_class7 b1 h7]
    · rw [chunkLen_cons_of_class _ h7, ← chunkLen_cons_of_class body h7, h]

/-- What a complete chunk at the front of some bytes is: a row's chunk, and the rest. -/
theorem chunkRow_of_known {n : Nat} {bs : List Byte} (hc : c.WellFormed)
    (h : Sys2Proof.chunkLen c bs = .known n) (hn : n ≤ bs.length) :
    ChunkRow c (bs.take n) (chunkInstr c (bs.take n)) (variant c (bs.take n)) :=
  chunkRow_of_complete hc (chunkLen_take hc h hn)

theorem fetchChunk_noLength {bs : List Byte} (h : Sys2Proof.chunkLen c bs = .noLength) :
    fetchChunk c bs = .instr (.chkBadclass (byteAt bs 0) []) bs := by
  simp [fetchChunk, h]

/-- No length is a configured class without one (R91). -/
theorem chunkLen_eq_noLength {bs : List Byte} (h : Sys2Proof.chunkLen c bs = .noLength) :
    ∃ t body, bs = t :: body ∧ (tagClass t = 4 ∨ tagClass t = 5 ∨ tagClass t = 6) ∧
      configuredLen c t = none := by
  cases bs with
  | nil => cases h
  | cons t body =>
    refine ⟨t, body, rfl, ?_, ?_⟩
    · have hlt := tagClass_lt t
      by_contra hno
      obtain h' | h' | h' | h' | h' : tagClass t = 0 ∨ tagClass t = 1 ∨ tagClass t = 2 ∨
        tagClass t = 3 ∨ tagClass t = 7 := by omega
      · simp [chunkLen_class0 h'] at h
      · simp [chunkLen_class1 h'] at h
      · simp [chunkLen_class2 h'] at h
      · simp [chunkLen_class3 h'] at h
      · cases body with
        | nil => simp [Sys2Proof.chunkLen, h'] at h
        | cons b1 rest => simp [chunkLen_class7 b1 h'] at h
    · cases hcfg : configuredLen c t with
      | none => rfl
      | some n => simp [chunkLen_configured_some hcfg] at h

/-- What is fetched is a complete chunk's row, or a tag whose class has no length (R99, R152). -/
theorem fetchChunk_eq_instr (hc : c.WellFormed) {bs rest : List Byte}
    (h : fetchChunk c bs = .instr i rest) :
    (∃ ch v, bs = ch ++ rest ∧ ChunkRow c ch i v) ∨
    ∃ t body, bs = t :: body ∧ i = .chkBadclass t [] ∧ rest = bs ∧
      (tagClass t = 4 ∨ tagClass t = 5 ∨ tagClass t = 6) ∧ configuredLen c t = none := by
  unfold fetchChunk at h
  split at h
  · cases h
  · next hlen =>
    cases h
    obtain ⟨t, body, rfl, hclass, hcfg⟩ := chunkLen_eq_noLength hlen
    exact .inr ⟨t, body, rfl, rfl, rfl, hclass, hcfg⟩
  · next n hlen =>
    split at h
    · cases h
    · next hn =>
      cases h
      exact .inl ⟨_, _, (List.take_append_drop n bs).symm,
        chunkRow_of_known hc hlen (Nat.not_lt.1 hn)⟩

end

/-- Settles O6: a well-formed form is a row's, whose chunk is fetched whatever follows, or a tag
whose class has no length. -/
theorem chunksDecodeToTheirInstruction : Obligations.ChunksDecodeToTheirInstruction := by
  intro c i bs more hc hs hwf henc
  obtain ⟨v, hrow⟩ | ⟨t, rfl, hcfg, hlo, hhi, rfl⟩ := chunkRow_of_wellFormed hc hs hwf henc
  · rw [hrow.fetches hc more]
    cases hrow with
    | configured t body h => simp [h]
    | _ => rfl
  · simp [fetchChunk_noLength (chunkLen_configured_none hlo hhi hcfg), byteAt, hcfg]

/-- Settles O7: what is fetched is a row's chunk or a tag whose class has no length. -/
theorem fetchedChunksEncodeBack : Obligations.FetchedChunksEncodeBack := by
  intro c bs rest i hc h
  obtain ⟨ch, v, rfl, hrow⟩ | ⟨t, body, rfl, rfl, rfl, hclass, hcfg⟩ := fetchChunk_eq_instr hc h
  · obtain ⟨hs, hwf, henc⟩ := hrow.encodes
    exact ⟨hs, hwf, ch, henc, .inr rfl⟩
  · exact ⟨rfl, by simp [Instr.wellFormed, hclass, hcfg], [t], rfl,
      .inl ⟨t, rfl, hcfg, rfl, by simp⟩⟩

/-- Settles O12: a decoded chunk is a row's chunk, which is decoded whatever follows. -/
theorem decoderConsumesExactlyTheChunk : Obligations.DecoderConsumesExactlyTheChunk := by
  intro c buf rest v hc h
  obtain ⟨n, hlen, hn, rfl, rfl⟩ := decodeChunk_eq_chunk h
  have hbounds := chunkLen_bounds hc hlen
  have hrow := chunkRow_of_known hc hlen hn
  refine ⟨buf.take n, (List.take_append_drop n buf).symm, ?_, ?_, ?_, hrow.decodes hc⟩
  all_goals rw [List.length_take_of_le hn]
  · exact hbounds.1
  · exact hbounds.2
  · exact hlen

/-! ### The meanings of the rows (R153 to R166) -/

theorem exec_decodeChunk (buf : List Byte) (s : State) :
    exec (.decodeChunk buf) s = .next { s with ret := .decoded (decodeChunk s.cfg buf) } := rfl

/-- A row with a tag or bytes among its operands answers what the decoder does for its encoding. -/
theorem exec_eq_decodeChunk {i : Instr} {raw : List Byte} {s : State}
    (hi : (∃ flags p, i = .chkData flags p) ∨ (∃ t, i = .chkUnknownC0 t) ∨
      (∃ t b1, i = .chkUnknownC1 t b1) ∨ (∃ t b1 b2, i = .chkUnknownC2 t b1 b2) ∨
      (∃ t b1 b2 b3, i = .chkUnknownC3 t b1 b2 b3) ∨ (∃ t body, i = .chkUnknownC7 t body) ∨
      ∃ t body, i = .chkBadclass t body)
    (henc : encode s.cfg i = some raw) : exec i s = exec (.decodeChunk raw) s := by
  obtain ⟨flags, p, rfl⟩ | ⟨t, rfl⟩ | ⟨t, b1, rfl⟩ | ⟨t, b1, b2, rfl⟩ | ⟨t, b1, b2, b3, rfl⟩ |
    ⟨t, body, rfl⟩ | ⟨t, body, rfl⟩ := hi
  all_goals
    cases henc
    rfl

section
variable {s : State} {ch : List Byte} {i : Instr} {v : Chunk}

theorem ChunkRow.exec_decodeChunk (hc : s.cfg.WellFormed) (h : ChunkRow s.cfg ch i v)
    (more : List Byte) :
    exec (.decodeChunk (ch ++ more)) s = .next { s with ret := .decoded (.chunk v more) } := by
  rw [Machine.exec_decodeChunk, h.decodes hc]

/-- A row's meaning is its chunk's value with nothing after it. -/
theorem ChunkRow.exec (hc : s.cfg.WellFormed) (h : ChunkRow s.cfg ch i v) :
    exec i s = .next { s with ret := .decoded (.chunk v []) } := by
  have hdec := h.exec_decodeChunk hc []
  rw [List.append_nil] at hdec
  have henc := h.encodes.2.2
  cases h with
  | data | unknownC0 | unknownC1 | unknownC2 | unknownC3 | unknownC7 | configured =>
    rw [exec_eq_decodeChunk (by simp) henc, hdec]
  | _ => rfl

/-- A tag whose class has no length is answered with itself (R152, R166). -/
theorem exec_decodeChunk_noLength {t : Byte} {body : List Byte}
    (hclass : tagClass t = 4 ∨ tagClass t = 5 ∨ tagClass t = 6)
    (hcfg : configuredLen s.cfg t = none) :
    Machine.exec (.decodeChunk (t :: body)) s = .next { s with ret := .decoded (.badClass t) } := by
  have hlen : chunkLen s.cfg (t :: body) = .noLength :=
    chunkLen_configured_none (by omega) (by omega) hcfg
  simp [Machine.exec_decodeChunk, decodeChunk, hlen, byteAt]

end

theorem decodeChunk_of_fetch_needMore {c : Cfg} {buf : List Byte}
    (h : fetchChunk c buf = .needMore) : decodeChunk c buf = .needMore := by
  unfold fetchChunk at h
  split at h
  · next hlen => simp [decodeChunk, hlen]
  · cases h
  · next n hlen =>
    split at h
    · next hn => simp [decodeChunk, hlen, hn]
    · cases h

/-- Settles O11: DECODE_CHUNK and the rows read the same table. -/
theorem decodeChunkAgreesWithTheRows : Obligations.DecodeChunkAgreesWithTheRows := by
  intro s buf hc
  cases hfetch : fetchChunk s.cfg buf with
  | needMore =>
    dsimp only
    rw [exec_decodeChunk, decodeChunk_of_fetch_needMore hfetch]
  | instr i rest =>
    obtain ⟨ch, v, rfl, hrow⟩ | ⟨t, body, rfl, rfl, rfl, hclass, hcfg⟩ :=
      fetchChunk_eq_instr hc hfetch
    · exact ⟨_, hrow.exec hc, hrow.exec_decodeChunk hc rest⟩
    · refine ⟨.badClass t, ?_, exec_decodeChunk_noLength hclass hcfg⟩
      rw [exec_eq_decodeChunk (raw := [t]) (by simp) rfl]
      exact exec_decodeChunk_noLength hclass hcfg

/-! ### Signed and unsigned values (00_scope.md R14) -/

theorem sext8_eq (b : Byte) :
    sext8 b = if b.toNat < 0x80 then (b.toNat : Int) else (b.toNat : Int) - 256 := by
  rw [sext8, BitVec.toInt_eq_toNat_cond]
  split_ifs <;> omega

theorem u16_eq_ofNat (b1 b0 : Byte) : u16 b1 b0 = BitVec.ofNat 16 (b1.toNat * 256 + b0.toNat) := by
  rw [u16, append_eq_ofNat, Nat.mul_comm]
  rfl

theorem u24_eq_ofNat (b2 b1 b0 : Byte) :
    u24 b2 b1 b0 = BitVec.ofNat 24 (b2.toNat * 65536 + b1.toNat * 256 + b0.toNat) := by
  have hhigh := u16_toNat b2 b1
  rw [u16] at hhigh
  rw [u24, append_eq_ofNat, hhigh]
  congr 1
  omega

/-- Settles O15: both rows hand over `sext_8` of their bytes. -/
theorem signedChunkRowsSignExtend : Obligations.SignedChunkRowsSignExtend := by
  intro b1 b2 s signed
  have hsigned : sext8 = signed := funext sext8_eq
  rw [← hsigned]
  exact ⟨rfl, rfl⟩

/-- Settles O16: the four rows hand over `u16` or `u24` of their bytes. -/
theorem unsignedChunkRowsAreBigEndian : Obligations.UnsignedChunkRowsAreBigEndian := by
  intro b1 b2 b3 s n2 n3
  have h1 := b1.isLt
  have h2 := b2.isLt
  have h3 := b3.isLt
  simp only [n2, n3, ← u16_eq_ofNat, ← u24_eq_ofNat]
  exact ⟨rfl, by omega, rfl, rfl, rfl, by omega⟩

/-! ### The raw rows (R159 to R166) -/

/-- An Unknown row's value is its whole chunk (R161 to R165). -/
theorem exec_unknown {s : State} {i : Instr} {raw : List Byte} (hc : s.cfg.WellFormed)
    (hwf : i.wellFormed s.cfg = true) (henc : encode s.cfg i = some raw)
    (hi : (∃ t, i = .chkUnknownC0 t) ∨ (∃ t b1, i = .chkUnknownC1 t b1) ∨
      (∃ t b1 b2, i = .chkUnknownC2 t b1 b2) ∨ (∃ t b1 b2 b3, i = .chkUnknownC3 t b1 b2 b3) ∨
      ∃ t body, i = .chkUnknownC7 t body) :
    exec i s = .next { s with ret := .decoded (.chunk (.unknown raw) []) } := by
  have hs : i.stream = .chunk := by
    obtain ⟨t, rfl⟩ | ⟨t, b1, rfl⟩ | ⟨t, b1, b2, rfl⟩ | ⟨t, b1, b2, b3, rfl⟩ | ⟨t, body, rfl⟩ := hi
    all_goals rfl
  obtain ⟨v, hrow⟩ | ⟨t, rfl, -⟩ := chunkRow_of_wellFormed hc hs hwf henc
  · have hexec := hrow.exec hc
    cases hrow with
    | unknownC0 | unknownC1 | unknownC2 | unknownC3 | unknownC7 => exact hexec
    | _ => simp at hi
  · simp at hi

theorem exec_badclass {s : State} {t : Byte} {body : List Byte} (hc : s.cfg.WellFormed)
    (hwf : (Instr.chkBadclass t body).wellFormed s.cfg = true) :
    exec (.chkBadclass t body) s = .next { s with
      ret := .decoded (if configuredLen s.cfg t = none then .badClass t
        else .chunk (.unknown (t :: body)) []) } := by
  obtain ⟨v, hrow⟩ | ⟨t, heq, hcfg, hlo, hhi, -⟩ :=
    chunkRow_of_wellFormed hc rfl hwf (ch := t :: body) rfl
  · rw [hrow.exec hc]
    cases hrow with
    | configured t body h => simp [h]
  · cases heq
    rw [if_pos hcfg, exec_eq_decodeChunk (raw := [t]) (by simp) rfl]
    exact exec_decodeChunk_noLength (by omega) hcfg

/-- Settles O17: each raw row's chunk is its encoding, and outside its own operands the row is the
decoder's answer by definition. -/
theorem rawChunkRowsKeepTheirBytes : Obligations.RawChunkRowsKeepTheirBytes := by
  intro s t b1 b2 b3 flags body
  refine ⟨rfl, fun hc hbody => (ChunkRow.data flags body hbody).exec hc, fun i hi hc hwf => ?_,
    exec_badclass, fun i hi => ?_⟩
  · have hexec : ∀ raw, encode s.cfg i = some raw → _ :=
      fun raw henc => exec_unknown hc hwf henc (by
        obtain rfl | rfl | rfl | rfl | rfl := hi <;> simp)
    obtain rfl | rfl | rfl | rfl | rfl := hi
    all_goals exact ⟨_, rfl, hexec _ rfl⟩
  · obtain rfl | rfl | rfl | rfl | rfl | rfl | rfl := hi
    all_goals exact ⟨_, rfl, rfl⟩

end Sys2Proof.Machine
end

section
/-! PROOFS. The four frame forms, EXECUTE and READ_FIFO: what each hands to the host and does at the
chip, and that a read's result does not depend on the echo bytes (40_bus_primitives.md R122, R127,
R133 to R136, 20_memory.md R52, R54, 70_reset_and_hazards.md R279). -/

namespace Sys2Proof.Machine

/-! ### The frame forms by their operands (R133 to R136) -/

section
variable {s : State} {data : List Byte} {n : Nat}

theorem emitWrite_of_data (a : Nat) (h : data ≠ []) :
    emitWrite a data s = .next (s.hostCall (memWrite s.cfg a data s.port) fun _ => .unit) := by
  rw [emitWrite, if_neg h]

theorem emitRead_of_pos (a : Nat) (h : 1 ≤ n) :
    emitRead a n s = .next (s.hostCall (memRead s.cfg a n s.port) .bytes) := by
  rw [emitRead, if_neg (by omega)]

section
variable {a : BitVec 7}

theorem exec_busWrShort_of_lt (data : List Byte) (ha : a.toNat < 0x70) :
    exec (.busWrShort a data) s = emitWrite a.toNat data s := by
  change execBusWrShort a data s = _
  rw [execBusWrShort, if_pos ha]

theorem exec_busRdShort_of_lt (n : Nat) (ha : a.toNat < 0x70) :
    exec (.busRdShort a n) s = emitRead a.toNat n s := by
  change execBusRdShort a n s = _
  rw [execBusRdShort, if_pos ha]

theorem exec_busWrShort_of_ge (data : List Byte) (ha : 0x70 ≤ a.toNat) :
    exec (.busWrShort a data) s = .refused .headerMismatch := by
  change execBusWrShort a data s = _
  rw [execBusWrShort, if_neg (Nat.not_lt.2 ha)]

theorem exec_busRdShort_of_ge (n : Nat) (ha : 0x70 ≤ a.toNat) :
    exec (.busRdShort a n) s = .refused .headerMismatch := by
  change execBusRdShort a n s = _
  rw [execBusRdShort, if_neg (Nat.not_lt.2 ha)]

end

section
variable {a : BitVec 12}

theorem exec_busWrLong_of_ge (data : List Byte) (ha : 0x070 ≤ a.toNat) :
    exec (.busWrLong a data) s = emitWrite a.toNat data s := by
  change execBusWrLong a data s = _
  rw [execBusWrLong, if_neg (Nat.not_lt.2 ha)]

theorem exec_busRdLong_of_ge (n : Nat) (ha : 0x070 ≤ a.toNat) :
    exec (.busRdLong a n) s = emitRead a.toNat n s := by
  change execBusRdLong a n s = _
  rw [execBusRdLong, if_neg (Nat.not_lt.2 ha)]

theorem exec_busWrLong_of_lt (data : List Byte) (ha : a.toNat < 0x070) :
    exec (.busWrLong a data) s = .refused .headerMismatch := by
  change execBusWrLong a data s = _
  rw [execBusWrLong, if_pos ha]

theorem exec_busRdLong_of_lt (n : Nat) (ha : a.toNat < 0x070) :
    exec (.busRdLong a n) s = .refused .headerMismatch := by
  change execBusRdLong a n s = _
  rw [execBusRdLong, if_pos ha]

end

end

/-- Settles O21: the address is checked before the data. -/
theorem formsThatAreNoFrameAreRefused : Obligations.FormsThatAreNoFrameAreRefused := by
  intro s data n
  refine ⟨fun a ha => ⟨exec_busWrLong_of_lt data ha, exec_busRdLong_of_lt n ha⟩,
    fun a ha => ⟨exec_busWrShort_of_ge data ha, exec_busRdShort_of_ge n ha⟩, fun a ha => ?_,
    fun a ha => ?_⟩
  · exact ⟨exec_busWrShort_of_lt [] ha, exec_busRdShort_of_lt 0 ha⟩
  · exact ⟨exec_busWrLong_of_ge [] ha, exec_busRdLong_of_ge 0 ha⟩

/-! ### A burst past the register space (20_memory.md R54) -/

section
variable {s : State} {a : Nat}

theorem inSpace_eq_false {c : Cfg} {len : Nat} (hne : a ≠ c.addrFifodata) (h : 0x1000 < a + len) :
    inSpace c a len = false := by
  simp only [inSpace, decide_eq_false_iff_not]
  omega

theorem inSpace_eq_true {c : Cfg} {len : Nat} (ha : a ≤ 0xFFF)
    (h : a = c.addrFifodata ∨ a + len ≤ 0x1000) : inSpace c a len = true := by
  simp only [inSpace, decide_eq_true_eq]
  exact ⟨ha, h⟩

theorem emitWrite_out {data : List Byte} (hdata : data ≠ []) (hne : a ≠ s.cfg.addrFifodata)
    (h : 0x1000 < a + data.length) :
    emitWrite a data s = .next { s with ret := .raised (.addressOutOfRange a) } := by
  rw [emitWrite_of_data a hdata, memWrite_out s.port (inSpace_eq_false hne h)]
  rfl

theorem emitRead_out {n : Nat} (hn : 1 ≤ n) (hne : a ≠ s.cfg.addrFifodata)
    (h : 0x1000 < a + n) :
    emitRead a n s = .next { s with ret := .raised (.addressOutOfRange a) } := by
  rw [emitRead_of_pos a hn, memRead_out s.port (inSpace_eq_false hne h)]
  rfl

end

/-- Settles O20: the range check of the burst precedes its transaction. -/
theorem burstsPastTheRegisterSpaceAreRaised : Obligations.BurstsPastTheRegisterSpaceAreRaised := by
  intro s n data hn hdata raises
  refine ⟨fun a ha => ⟨fun hne h => ?_, fun hne h => ?_⟩,
    fun a ha => ⟨fun hne h => ?_, fun hne h => ?_⟩⟩
  · rw [exec_busRdShort_of_lt n ha, emitRead_out hn hne h]
  · rw [exec_busWrShort_of_lt data ha, emitWrite_out hdata hne h]
  · rw [exec_busRdLong_of_ge n ha, emitRead_out hn hne h]
  · rw [exec_busWrLong_of_ge data ha, emitWrite_out hdata hne h]

/-! ### Where the bytes of a burst go (20_memory.md R52, R133 to R136) -/

theorem burstAccesses_eq_map (c : Cfg) (mk : Nat → Byte → Access) (a k : Nat) (vs : List Byte) :
    burstAccesses c mk a k vs = (vs.zipIdx k).map fun (v, j) => mk (landing c a j) v := by
  induction vs generalizing k with
  | nil => rfl
  | cons v vs ih => simp [burstAccesses, ih]

/-- The chip takes the response bytes after the echo as one burst from the header's address on. -/
theorem frameAccesses_read (c : Cfg) {a n : Nat} (response : List Byte) (hmax : a ≤ 0xFFF)
    (hn : 1 ≤ n) :
    frameAccesses c (readOut a n) response =
      burstAccesses c .got a 0 (response.drop (headerLen a)) := by
  obtain hs | hl := Nat.lt_or_ge a 0x70
  · have haddr : (BitVec.ofNat 7 a).toNat = a := by simp; omega
    simp only [frameAccesses, decodeHeader_read_short hs hn, haddr, headerLen, if_pos hs]
  · have haddr : (BitVec.ofNat 12 a).toNat = a := by simp; omega
    simp only [frameAccesses, decodeHeader_read_long hl hmax hn, haddr, headerLen,
      if_neg (Nat.not_lt.2 hl)]

section
variable {s : State} {a : Nat}

/-- A burst write in the register space as a whole: its trace, its accesses and its result. -/
theorem emitWrite_in {data : List Byte} (hdata : data ≠ []) (ha : a ≤ 0xFFF)
    (h : a = s.cfg.addrFifodata ∨ a + data.length ≤ 0x1000) :
    ∃ t, emitWrite a data s = .next t ∧ t.cfg = s.cfg ∧ t.mgr = s.mgr ∧ t.requests = s.requests ∧
      t.port.trace =
        s.port.trace ++ [.write (header a .write ++ data) (!(s.port.answer 0).fails)] ∧
      ((s.port.answer 0).fails = true →
        t.ret = .raised .transportError ∧ t.port.chip = s.port.chip ++ [.unknownEffect]) ∧
      ((s.port.answer 0).fails = false →
        t.ret = .unit ∧
        t.port.chip = s.port.chip ++ data.zipIdx.map fun (v, k) =>
          .wrote (if a = s.cfg.addrFifodata then a else a + k) v) := by
  rw [emitWrite_of_data a hdata, memWrite_in s.port (inSpace_eq_true ha h)]
  refine ⟨_, rfl, rfl, rfl, rfl, busWrite_trace _ _ _, fun hf => ?_, fun hf => ?_⟩
  · rw [busWrite_failed hf]
    exact ⟨rfl, rfl⟩
  · rw [busWrite_answered hf, frameAccesses_write _ _ ha hdata, burstAccesses_eq_map]
    exact ⟨rfl, rfl⟩

/-- A burst read in the register space as a whole: its trace, its accesses and its result. -/
theorem emitRead_in {n : Nat} (hn : 1 ≤ n) (ha : a ≤ 0xFFF)
    (h : a = s.cfg.addrFifodata ∨ a + n ≤ 0x1000) :
    ∃ t, emitRead a n s = .next t ∧ t.cfg = s.cfg ∧ t.mgr = s.mgr ∧ t.requests = s.requests ∧
      ((s.port.answer 0).fails = true →
        t.ret = .raised .transportError ∧ t.port.chip = s.port.chip ++ [.unknownEffect] ∧
        t.port.trace = s.port.trace ++ [.xfer (readOut a n) none]) ∧
      ((s.port.answer 0).fails = false →
        t.ret = .bytes ((s.port.answerBytes 0 (headerLen a + n)).drop (headerLen a)) ∧
        t.port.chip = s.port.chip ++
          ((s.port.answerBytes 0 (headerLen a + n)).drop (headerLen a)).zipIdx.map (fun (v, k) =>
            .got (if a = s.cfg.addrFifodata then a else a + k) v) ∧
        t.port.trace = s.port.trace ++ [s.port.readDone 0 a n]) := by
  have hin := inSpace_eq_true ha h
  rw [emitRead_of_pos a hn]
  refine ⟨_, rfl, rfl, rfl, rfl, fun hf => ?_, fun hf => ?_⟩
  · rw [memRead_fails hin (s.port.nextDraw_eq_answer ▸ hf)]
    exact ⟨rfl, rfl, rfl⟩
  · rw [memRead_ok hin (s.port.nextDraw_eq_answer ▸ hf), s.port.responseFrom_eq_drop,
      s.port.readDone_zero, s.port.response_eq_answerBytes, frameAccesses_read _ _ ha hn,
      burstAccesses_eq_map]
    exact ⟨rfl, rfl, rfl⟩

end

/-- Settles O18: both forms are the burst write at their address, under the header that O1 and O2
give it. -/
theorem writeFramesReachTheirRegisters : Obligations.WriteFramesReachTheirRegisters := by
  intro s data hdata sends
  refine ⟨fun a ha h => ?_, fun a ha h => ?_⟩
  · rw [← (shortHeaderIsWriteBitThenAddress a ha).1, exec_busWrShort_of_lt data ha]
    exact emitWrite_in hdata (by omega) h
  · rw [← (extendedHeaderIsHighByteFirst a ha).1, exec_busWrLong_of_ge data ha]
    exact emitWrite_in hdata (Nat.le_of_lt_succ a.isLt) h

/-- Settles O19: both forms are the burst read at their address, under the header that O1 and O2
give it. -/
theorem readFramesReturnTheBytesAfterTheEcho :
    Obligations.ReadFramesReturnTheBytesAfterTheEcho := by
  intro s n hn gets
  refine ⟨fun a ha h => ?_, fun a ha h => ?_⟩
  · rw [← (shortHeaderIsWriteBitThenAddress a ha).2, exec_busRdShort_of_lt n ha, header_length]
    exact emitRead_in hn (by omega) h
  · rw [← (extendedHeaderIsHighByteFirst a ha).2, exec_busRdLong_of_ge n ha, header_length]
    exact emitRead_in hn (Nat.le_of_lt_succ a.isLt) h

/-- Settles O30: a count of 0 makes no transaction, and any other is the burst read at the FIFO data
register, which every length stays in. -/
theorem readFifoReadsCountBytes : Obligations.ReadFifoReadsCountBytes := by
  intro s n hc
  refine ⟨rfl, fun hn => ?_⟩
  have hexec : exec (.readFifo n) s = emitRead s.cfg.addrFifodata n s := by
    rw [emitRead_of_pos _ hn, ← readFifo_pos s.port (by omega)]
    rfl
  obtain ⟨t, ht, hcfg, hmgr, hreq, hfails, hok⟩ := emitRead_in hn (wf_fifodata hc) (.inl rfl)
  exact ⟨t, hexec.trans ht, hcfg, hmgr, hreq, fun hf => ⟨(hok hf).1, (hok hf).2.2⟩,
    fun hf => ⟨(hfails hf).1, (hfails hf).2.2⟩⟩

/-! ### The transactions of a primitive and what they do at the chip (log 6, 18) -/

/-- A later transport: some transactions, `n` of them at most, were added to the trace, and what
they do at the chip to the accesses. -/
def Port.Recorded (c : Cfg) (p q : Port) (n : Nat) : Prop :=
  ∃ ts, q.trace = p.trace ++ ts ∧ q.chip = p.chip ++ ts.flatMap (fun x => x.accesses c) ∧
    ts.length ≤ n

section
variable {c : Cfg} {p q r : Port} {n k : Nat}

theorem Port.recorded_refl (c : Cfg) (p : Port) (n : Nat) : p.Recorded c p n :=
  ⟨[], by simp⟩

theorem Port.Recorded.trans (h : p.Recorded c q n) (h' : q.Recorded c r k) :
    p.Recorded c r (n + k) := by
  obtain ⟨ts, htrace, hchip, hlen⟩ := h
  obtain ⟨us, htrace', hchip', hlen'⟩ := h'
  exact ⟨ts ++ us, by simp [htrace', htrace], by simp [hchip', hchip], by simp; omega⟩

theorem Port.Recorded.mono (h : p.Recorded c q n) (hk : n ≤ k) : p.Recorded c q k := by
  obtain ⟨ts, htrace, hchip, hlen⟩ := h
  exact ⟨ts, htrace, hchip, hlen.trans hk⟩

theorem recorded_record (t : Transaction) : p.Recorded c (p.record t (t.accesses c)) 1 :=
  ⟨[t], by simp⟩

theorem recorded_busWrite (out : List Byte) : p.Recorded c (p.busWrite c out).2 1 := by
  cases hf : (p.answer 0).fails with
  | false => rw [busWrite_answered hf]; exact recorded_record (.write out true)
  | true => rw [busWrite_failed hf]; exact recorded_record (.write out false)

theorem recorded_busXfer (out : List Byte) : p.Recorded c (p.busXfer c out).2 1 := by
  cases hf : p.nextDraw.fails with
  | false => rw [busXfer_ok hf]; exact recorded_record (.xfer out (some _))
  | true => rw [busXfer_fails hf]; exact recorded_record (.xfer out none)

theorem recorded_memWrite (a : Nat) (vs : List Byte) : p.Recorded c (memWrite c a vs p).2 1 := by
  unfold memWrite
  split
  · exact recorded_busWrite _
  · exact p.recorded_refl c 1

theorem recorded_memRead (a n : Nat) : p.Recorded c (memRead c a n p).2 1 := by
  have h := recorded_busXfer (c := c) (p := p) (readOut a n)
  unfold memRead
  split
  · split <;> next heq => rwa [heq] at h
  · exact p.recorded_refl c 1

theorem recorded_burstWrites (runs : List (Nat × List Byte)) :
    p.Recorded c (burstWrites c runs p).2 runs.length := by
  induction runs generalizing p with
  | nil => exact p.recorded_refl c 0
  | cons r more ih =>
    have h := recorded_memWrite (c := c) (p := p) r.1 r.2
    unfold burstWrites
    split
    · next heq =>
      rw [heq] at h
      exact (h.trans ih).mono (by simp; omega)
    · next heq =>
      rw [heq] at h
      exact h.mono (by simp)

theorem recorded_execute (batch : List (Nat × Byte)) :
    p.Recorded c (execute c batch p).2 (runsOf (sortBatch (batchMap batch))).length := by
  unfold execute executeMap
  split
  · exact p.recorded_refl c _
  · exact recorded_burstWrites _

theorem recorded_command (a : Nat) (v : Byte) : p.Recorded c (command c a v p).2 1 :=
  recorded_execute [(a, v)]

theorem recorded_read (a : Nat) : p.Recorded c (read c a p).2 1 := by
  have h := recorded_memRead (c := c) (p := p) a 1
  unfold read
  split
  · exact p.recorded_refl c 1
  · split <;> next heq => rwa [heq] at h

theorem recorded_read16 (a : Nat) : p.Recorded c (read16 c a p).2 1 := by
  have h := recorded_memRead (c := c) (p := p) a 2
  unfold read16
  split
  · exact p.recorded_refl c 1
  · split <;> next heq => rwa [heq] at h

theorem recorded_writeFifoData (d : List Byte) : p.Recorded c (writeFifoData c d p).2 1 := by
  unfold writeFifoData
  split
  · exact p.recorded_refl c 1
  · exact recorded_memWrite _ _

theorem recorded_readFifo (n : Nat) : p.Recorded c (readFifo c n p).2 1 := by
  unfold readFifo
  split
  · exact p.recorded_refl c 1
  · exact recorded_memRead _ _

end

/-- Every row that is called with the transport records what it does there. -/
theorem recorded_exec_of_ne_tick {i : Instr} {s t : State} (hi : i ≠ .tick)
    (h : exec i s = .next t) : ∃ n, s.port.Recorded s.cfg t.port n := by
  cases i with
  | tick => exact absurd rfl hi
  | busWrShort a data => rw [execBusWrShort_next h]; exact ⟨1, recorded_memWrite _ _⟩
  | busWrLong a data => rw [execBusWrLong_next h]; exact ⟨1, recorded_memWrite _ _⟩
  | busRdShort a n => rw [execBusRdShort_next h]; exact ⟨1, recorded_memRead _ _⟩
  | busRdLong a n => rw [execBusRdLong_next h]; exact ⟨1, recorded_memRead _ _⟩
  | fifoTxData p | writeFifoData p => cases h; exact ⟨1, recorded_writeFifoData p⟩
  | cmdCommit | cmdPwrStandby | cmdPwrFulltx | cmdPwrFullrx | cmdRngStart =>
    cases h
    exact ⟨1, recorded_command _ _⟩
  | execute batch => cases h; exact ⟨_, recorded_execute batch⟩
  | read a => cases h; exact ⟨1, recorded_read a⟩
  | read16 a => cases h; exact ⟨1, recorded_read16 a⟩
  | readFifo n => cases h; exact ⟨1, recorded_readFifo n⟩
  | push p =>
    cases h
    split <;> exact ⟨0, s.port.recorded_refl s.cfg 0⟩
  | _ =>
    cases h
    exact ⟨0, s.port.recorded_refl s.cfg 0⟩

/-! ### EXECUTE (R122) -/

theorem exec_execute (batch : List (Nat × Byte)) (s : State) :
    exec (.execute batch) s =
      .next (s.hostCall (execute s.cfg batch s.port) fun _ => .unit) := rfl

/-- Settles O25: `batchMap` is that list. -/
theorem executeReadsTheBatchAsAMap : Obligations.ExecuteReadsTheBatchAsAMap := by
  intro batch
  refine ⟨batchMap batch, batchMap_nodup batch, fun a v => mem_batchMap, batchMap_of_nodup,
    fun s => ⟨?_, _, exec_execute batch s⟩⟩
  rw [exec_execute, exec_execute, execute_batchMap]

/-- Settles O26: the map of the entries keeps the key, and the validation names one such key. -/
theorem executeValidatesBeforeAnyTransaction :
    Obligations.ExecuteValidatesBeforeAnyTransaction := by
  intro s batch hbad
  obtain ⟨e, he, hlarge⟩ := hbad
  cases hnamed : namedBadKey (batchMap batch) with
  | none =>
    obtain ⟨f, hf, hkey⟩ := batchMap_key he
    have hsmall := namedBadKey_eq_none.1 hnamed f hf
    omega
  | some a =>
    have hmem := namedBadKey_mem hnamed
    simp only [outOfRangeKeys, List.mem_filter, List.mem_map, mem_sortBatch,
      decide_eq_true_eq] at hmem
    obtain ⟨⟨f, hf, rfl⟩, hrange⟩ := hmem
    refine ⟨f.1, List.mem_map.2 ⟨f, batchMap_subset hf, rfl⟩, hrange, ?_⟩
    rw [exec_execute, execute, executeMap_out s.port hnamed]
    rfl

/-- Off the FIFO data register a burst is its run's entries (20_memory.md R52). -/
theorem burstAccesses_runEntries {c : Cfg} {mk : Nat → Byte → Access} {a : Nat}
    (h : a ≠ c.addrFifodata) (k : Nat) (vs : List Byte) :
    burstAccesses c mk a k vs = (runEntries (a + k) vs).map fun e => mk e.1 e.2 := by
  induction vs generalizing k with
  | nil => rfl
  | cons v vs ih => simp [burstAccesses, runEntries, landing, h, ih, Nat.add_assoc]

theorem accesses_burst {c : Cfg} {r : Nat × List Byte} (ha : r.1 ≤ 0xFFF)
    (hne : r.1 ≠ c.addrFifodata) (hvs : r.2 ≠ []) :
    (burst true r).accesses c = (runEntries r.1 r.2).map fun e => .wrote e.1 e.2 := by
  change frameAccesses c (header r.1 .write ++ r.2) [] = _
  rw [frameAccesses_write c [] ha hvs, burstAccesses_runEntries hne, Nat.add_zero]

/-- The runs' bursts access the registers of their entries, in the entries' order. -/
theorem accesses_bursts {c : Cfg} {l : List (Nat × Byte)}
    (h : ∀ e ∈ l, e.1 ≤ 0xFFF ∧ e.1 ≠ c.addrFifodata) :
    ((runsOf l).map (burst true)).flatMap (fun x => x.accesses c) =
      l.map fun e => .wrote e.1 e.2 := by
  have hrun : ∀ r ∈ runsOf l, (burst true r).accesses c =
      (runEntries r.1 r.2).map fun e => .wrote e.1 e.2 := by
    intro r hr
    have hvs := runsOf_ne_nil r hr
    obtain ⟨v, hv⟩ := mem_runEntries_first hvs
    obtain ⟨hle, hne⟩ := h (r.1, v) (runsOf_entries l ▸ List.mem_flatMap.2 ⟨r, hr, hv⟩)
    exact accesses_burst hle hne hvs
  rw [List.flatMap_map, List.flatMap_congr hrun, ← List.map_flatMap, runsOf_entries]

theorem runsOf_length_le (l : List (Nat × Byte)) : (runsOf l).length ≤ l.length := by
  induction l with
  | nil => simp [runsOf]
  | cons e rest ih =>
    rw [runsOf]
    unfold consRun
    split
    · simp
    · next hruns =>
      rw [hruns] at ih
      split <;> simp at ih ⊢ <;> omega

/-- Settles O24: the entries are the sorted batch, whose runs are the writes of EXECUTE. -/
theorem executeWritesEachEntryOnceAscending : Obligations.ExecuteWritesEachEntryOnceAscending := by
  intro s batch hnodup hkeys hok
  have hrange : ∀ e ∈ sortBatch batch, e.1 ≤ 0xFFF ∧ e.1 ≠ s.cfg.addrFifodata :=
    fun e he => hkeys e (mem_sortBatch.1 he)
  have hlen := (runsOf_length_le (sortBatch batch)).trans_eq (sortBatch_perm batch).length_eq
  obtain ⟨q, hq, htrace⟩ := burstWrites_answered (c := s.cfg) (p := s.port)
    (runsOf_inSpace fun e he => (hrange e he).1) fun k hk => hok k (Nat.lt_of_lt_of_le hk hlen)
  obtain ⟨ts, hts, hchip, -⟩ :=
    recorded_burstWrites (c := s.cfg) (p := s.port) (runsOf (sortBatch batch))
  rw [hq] at hts hchip
  obtain rfl := List.append_cancel_left (hts.symm.trans htrace)
  refine ⟨_, sortBatch batch, exec_execute_in s hnodup fun e he => (hkeys e he).1,
    sortBatch_perm batch, sortBatch_ascending hnodup, ?_, ?_⟩
  · rw [hq, ← accesses_bursts hrange]
    exact hchip
  · rw [hq]
    rfl

/-! ### The echo bytes (70_reset_and_hazards.md R279) -/

section
variable {c : Cfg} {p p' : Port} {a : Nat}

/-- Two transports whose next answers agree but for the bytes under the header of `a`. -/
def SameAfterEcho (a : Nat) (p p' : Port) : Prop :=
  (p'.answer 0).fails = (p.answer 0).fails ∧
    ∀ j, headerLen a ≤ j → p'.answerByte 0 j = p.answerByte 0 j

theorem memRead_value_congr (n : Nat) (h : SameAfterEcho a p p') :
    (memRead c a n p').1 = (memRead c a n p).1 := by
  obtain ⟨hfails, hbytes⟩ := h
  cases hin : inSpace c a n with
  | false => rw [memRead_out p hin, memRead_out p' hin]
  | true =>
    rw [← p.nextDraw_eq_answer, ← p'.nextDraw_eq_answer] at hfails
    cases hf : p.nextDraw.fails with
    | true => rw [memRead_fails hin hf, memRead_fails hin (hfails.trans hf)]
    | false =>
      rw [memRead_ok hin hf, memRead_ok hin (hfails.trans hf), p.responseFrom_eq_map,
        p'.responseFrom_eq_map]
      simp [hbytes]

theorem read_value (c : Cfg) (a : Nat) (p : Port) :
    (read c a p).1 = if 0xFFF < a then .error (.addressOutOfRange a)
      else (memRead c a 1 p).1.map (byteAt · 0) := by
  unfold read
  split
  · rfl
  · split <;> next heq => rw [heq]; rfl

theorem read16_value (c : Cfg) (a : Nat) (p : Port) :
    (read16 c a p).1 = if 0xFFE < a then .error (.addressOutOfRange a)
      else (memRead c a 2 p).1.map fun vs => u16 (byteAt vs 0) (byteAt vs 1) := by
  unfold read16
  split
  · rfl
  · split <;> next heq => rw [heq]; rfl

theorem read_value_congr (h : SameAfterEcho a p p') : (read c a p').1 = (read c a p).1 := by
  rw [read_value, read_value, memRead_value_congr 1 h]

theorem read16_value_congr (h : SameAfterEcho a p p') : (read16 c a p').1 = (read16 c a p).1 := by
  rw [read16_value, read16_value, memRead_value_congr 2 h]

theorem readFifo_value_congr (n : Nat) (h : SameAfterEcho c.addrFifodata p p') :
    (readFifo c n p').1 = (readFifo c n p).1 := by
  unfold readFifo
  split
  · rfl
  · exact memRead_value_congr n h

end

/-- A call's result is that of its primitive's value. -/
theorem State.hostCall_ret_congr {α : Type} {s s' : State} {r r' : Prim α} {give : α → Result}
    (h : r'.1 = r.1) : (s'.hostCall r' give).ret = (s.hostCall r give).ret := by
  simp only [State.hostCall, h]

/-- Settles O32: each of the five reads hands over a value of the bytes after the echo. -/
theorem echoBytesDoNotMatter : Obligations.EchoBytesDoNotMatter := by
  intro i s s' t t' a n hi hcfg _ hfails hbytes h h'
  have hsame : SameAfterEcho a s.port s'.port := ⟨hfails, hbytes⟩
  obtain rfl | rfl | ⟨rfl, rfl⟩ | ⟨b, rfl, rfl⟩ | ⟨b, rfl, rfl⟩ := hi
  · cases h
    cases h'
    exact State.hostCall_ret_congr (by rw [hcfg]; exact read_value_congr hsame)
  · cases h
    cases h'
    exact State.hostCall_ret_congr (by rw [hcfg]; exact read16_value_congr hsame)
  · cases h
    cases h'
    exact State.hostCall_ret_congr (by rw [hcfg]; exact readFifo_value_congr n hsame)
  · rw [execBusRdShort_next h, execBusRdShort_next h', hcfg]
    exact State.hostCall_ret_congr (memRead_value_congr n hsame)
  · rw [execBusRdLong_next h, execBusRdLong_next h', hcfg]
    exact State.hostCall_ret_congr (memRead_value_congr n hsame)

end Sys2Proof.Machine
end

section
/-! PROOFS. What a tick can do to the block's state, said once as a relation, and the invariants and
frames of a tick read off it (42_manager.md R190 to R201, R224, 60_exceptions.md R246 to R249). -/

namespace Sys2Proof.Machine

/-! ### The outcomes of a tick -/

/-- The block's state after the prologue of a tick (R191). -/
def Manager.cleared (m : Manager) : Manager := { m with resetRequested := false }

/-- The block's state when an Autoranging tick has polled: the start is issued and the tick counted
(R192). -/
def Manager.polled (m : Manager) : Manager :=
  { m.cleared with rngIssued := true, rngTicks := m.rngTicks + 1 }

/-- The block's state when a Receiving tick has appended the bytes it read (R199). -/
def Manager.appended (m : Manager) (bs : List Byte) : Manager :=
  { m.cleared with rxBuf := m.rxBuf ++ bs }

/-- What a tick can leave of the block's state `m`, one constructor for each way it can end. -/
inductive TickOutcome (c : Cfg) (m : Manager) : Manager → Prop where
  /-- A start write failed (R248). -/
  | startFault (h : m.state = .autoranging) (hi : m.rngIssued = false) :
    TickOutcome c m (m.cleared.enterFaulted .transport)
  /-- A poll failed (R248). -/
  | pollFault (h : m.state = .autoranging) : TickOutcome c m (m.polled.enterFaulted .transport)
  | rangingError (h : m.state = .autoranging) :
    TickOutcome c m (m.polled.enterFaulted .rangingError)
  | rangingDone (h : m.state = .autoranging) : TickOutcome c m { m.polled with state := .idle }
  | rangingTimeout (h : m.state = .autoranging) (ht : c.autorangeTimeoutTicks ≤ m.rngTicks + 1) :
    TickOutcome c m (m.polled.enterFaulted .autorangeTimeout)
  | rangingGoesOn (h : m.state = .autoranging) (ht : m.rngTicks + 1 < c.autorangeTimeoutTicks) :
    TickOutcome c m m.polled
  /-- A transaction of an Idle, Transmitting or Receiving tick failed (R248). -/
  | transportFault (h : m.state = .idle ∨ m.state = .transmitting ∨ m.state = .receiving) :
    TickOutcome c m (m.cleared.enterFaulted .transport)
  | transmit (h : m.state = .idle) (htx : m.txEnabled = true) (p : List Byte)
    (ps : List (List Byte)) (hin : m.inbox = p :: ps) :
    TickOutcome c m { m.cleared with inbox := ps, state := .transmitting }
  | receive (h : m.state = .idle) (hno : m.txEnabled = false ∨ m.inbox = [])
    (hrx : m.rxEnabled = true) : TickOutcome c m { m.cleared with rxBuf := [], state := .receiving }
  | silent (h : m.state = .idle) (hno : m.txEnabled = false ∨ m.inbox = [])
    (hrx : m.rxEnabled = false) : TickOutcome c m m.cleared
  | txFault (h : m.state = .transmitting) : TickOutcome c m (m.cleared.enterFaulted .txFault)
  | txDone (h : m.state = .transmitting) : TickOutcome c m { m.cleared with state := .idle }
  | txGoesOn (h : m.state = .transmitting) : TickOutcome c m m.cleared
  | rxFault (h : m.state = .receiving) : TickOutcome c m (m.cleared.enterFaulted .rxFault)
  | rxOff (h : m.state = .receiving) (hrx : m.rxEnabled = false) :
    TickOutcome c m { m.cleared with state := .idle }
  | fifoCount (h : m.state = .receiving) : TickOutcome c m (m.cleared.enterFaulted .fifoCount)
  /-- The bytes read were drained up to an incomplete chunk (R167, R199). -/
  | received (h : m.state = .receiving) (hrx : m.rxEnabled = true) (bs : List Byte)
    (hbs : bs.length ≤ c.fifoDepth) (m' : Manager)
    (hd : Drained (m.appended bs) m')
    (hs : c.WellFormed → decodeChunk c m'.rxBuf = .needMore) : TickOutcome c m m'
  /-- The bytes read were drained up to a bad class (R249). -/
  | badClass (h : m.state = .receiving) (bs : List Byte) (hbs : bs.length ≤ c.fifoDepth)
    (m' : Manager) (hd : Drained (m.appended bs) m') :
    TickOutcome c m (m'.enterFaulted .decodeBadclass)
  | faultReset (h : m.state = .faulted) (hrr : m.resetRequested = true) :
    TickOutcome c m m.cleared.faultReset
  | faultStays (h : m.state = .faulted) (hrr : m.resetRequested = false) :
    TickOutcome c m m.cleared

section
variable {c : Cfg} {m : Manager}

theorem outcome_autoranging (h : m.state = .autoranging) (p : Port) :
    TickOutcome c m (tickAutoranging c m.cleared p).1 := by
  obtain ⟨hi, he⟩ | ⟨q, he⟩ := tickAutoranging_cases c m.cleared p <;> rw [he]
  · exact .startFault h hi
  · change TickOutcome c m (autorangingPoll c m.polled q).1
    obtain he | he | he | ⟨ht, he⟩ | ⟨ht, he⟩ := autorangingPoll_cases c m.polled q <;> rw [he]
    · exact .pollFault h
    · exact .rangingError h
    · exact .rangingDone h
    · exact .rangingTimeout h ht
    · exact .rangingGoesOn h ht

theorem outcome_idle (h : m.state = .idle) (p : Port) :
    TickOutcome c m (tickIdle c m.cleared p).1 := by
  obtain ⟨d, ds, htx, hin, he⟩ | ⟨hno, hrx, he⟩ | ⟨hno, hrx, he⟩ := tickIdle_cases c m.cleared p <;>
    rw [he]
  · obtain he | he := enterTransmitting_cases c d m.cleared p <;> rw [he]
    · exact .transportFault (.inl h)
    · rw [hin]
      exact .transmit h htx d ds hin
  · obtain he | he := enterReceiving_cases c m.cleared p <;> rw [he]
    · exact .transportFault (.inl h)
    · exact .receive h hno hrx
  · exact .silent h hno hrx

theorem outcome_transmitting (h : m.state = .transmitting) (p : Port) :
    TickOutcome c m (tickTransmitting c m.cleared p).1 := by
  obtain he | he | he | he := tickTransmitting_cases c m.cleared p <;> rw [he]
  · exact .transportFault (.inr (.inl h))
  · exact .txFault h
  · exact .txDone h
  · exact .txGoesOn h

/-- The drain's end decides between a stay and the bad class (R199, R249). -/
theorem outcome_receiveBytes (h : m.state = .receiving) (hrx : m.rxEnabled = true)
    {bs : List Byte} (hbs : bs.length ≤ c.fifoDepth) :
    TickOutcome c m (receiveBytes c m.cleared bs) := by
  have hd := drain_drained c (m.appended bs)
  have hs := fun hc : c.WellFormed => drain_stops hc (m.appended bs)
  have heq : receiveBytes c m.cleared bs = match drain c (m.appended bs) with
    | (m', none) => m'
    | (m', some _) => m'.enterFaulted .decodeBadclass := rfl
  rw [heq]
  cases hr : drain c (m.appended bs) with
  | mk m' bad =>
    rw [hr] at hd hs
    cases bad with
    | none => exact .received h hrx bs hbs m' hd hs
    | some t => exact .badClass h bs hbs m' hd

theorem outcome_receiving (h : m.state = .receiving) (p : Port) :
    TickOutcome c m (tickReceiving c m.cleared p).1 := by
  obtain he | he | ⟨hrx, he⟩ | ⟨hrx, he⟩ | ⟨hrx, bs, hbs, he⟩ :=
    tickReceiving_cases c m.cleared p <;> rw [he]
  · exact .transportFault (.inr (.inr h))
  · exact .rxFault h
  · exact .rxOff h hrx
  · exact .fifoCount h
  · exact outcome_receiveBytes h hrx hbs

theorem outcome_faulted (h : m.state = .faulted) (p : Port) :
    TickOutcome c m (tickFaulted m.resetRequested m.cleared p).1 := by
  cases hrr : m.resetRequested with
  | true => exact .faultReset h hrr
  | false => exact .faultStays h hrr

end

/-- Every tick ends in one of the outcomes. -/
theorem dispatch_outcome (c : Cfg) (m : Manager) (p : Port) :
    TickOutcome c m (dispatch c m p).1 := by
  cases h : m.state with
  | autoranging => rw [dispatch_autoranging h]; exact outcome_autoranging h p
  | idle => rw [dispatch_idle h]; exact outcome_idle h p
  | transmitting => rw [dispatch_transmitting h]; exact outcome_transmitting h p
  | receiving => rw [dispatch_receiving h]; exact outcome_receiving h p
  | faulted => rw [dispatch_faulted h]; exact outcome_faulted h p

theorem exec_tick_outcome {s t : State} (h : exec .tick s = .next t) :
    TickOutcome s.cfg s.mgr t.mgr := by
  cases h
  exact dispatch_outcome s.cfg s.mgr s.port

/-! ### What the outcomes keep (R224, R246, R248) -/

section
variable {c : Cfg} {m m' : Manager}

theorem Drained.state_appended {bs : List Byte} (h : Drained (m.appended bs) m') :
    m'.state = m.state := h.state

end

/-- Settles O44: each outcome is an entry of the table. -/
theorem tickFollowsTheTransitionTable : Obligations.TickFollowsTheTransitionTable := by
  intro s t _ h
  have hout := exec_tick_outcome h
  generalize t.mgr = m at hout ⊢
  cases hout with
  | startFault h | pollFault h | rangingError h | txFault h | rxFault h | fifoCount h => simp [h]
  | rangingDone h => simp [h, Manager.polled]
  | rangingTimeout h ht => simp [h, Manager.polled, ht]
  | rangingGoesOn h ht => simp [h, Manager.polled, Manager.cleared, ht]
  | transportFault h => obtain h | h | h := h <;> simp [h]
  | transmit h htx p ps hin => simp [h, htx, hin]
  | receive h hno hrx => simp [h, hno, hrx]
  | silent h hno hrx => simp [h, hno, hrx, Manager.cleared]
  | txDone h => simp [h]
  | txGoesOn h => simp [h, Manager.cleared]
  | rxOff h hrx => simp [h, hrx]
  | received h hrx bs hbs m' hd hs => simp [h, hrx, hd.state_appended]
  | badClass h bs hbs m' hd => simp [h]
  | faultReset h hrr => simp [h, hrr]
  | faultStays h hrr => simp [h, hrr, Manager.cleared]

/-- Settles O47: outside Autoranging one outcome alone faults with TRANSPORT. -/
theorem transportFaultWritesNothingElse : Obligations.TransportFaultWritesNothingElse := by
  intro s t hauto hfaulted h hstate hcause
  have hout := exec_tick_outcome h
  generalize t.mgr = m at hout hstate hcause ⊢
  cases hout with
  | transportFault h => rfl
  | startFault h | pollFault h | rangingError h | rangingDone h | rangingTimeout h
  | rangingGoesOn h => exact absurd h hauto
  | faultReset h | faultStays h => exact absurd h hfaulted
  | silent h | txGoesOn h => simp [Manager.cleared, h] at hstate
  | received h hrx bs hbs m' hd hs => simp [hd.state_appended, h] at hstate
  | txFault h | rxFault h | fifoCount h | badClass h => simp at hcause
  | transmit | receive | txDone | rxOff => simp at hstate

/-- Settles O48: an outcome in Faulted is Faulted entry from the prologue's or the poll's state, or
after a drain. -/
theorem faultedEntryKeepsTheRest : Obligations.FaultedEntryKeepsTheRest := by
  intro s t _ hfaulted h hstate
  have hout := exec_tick_outcome h
  generalize t.mgr = m at hout hstate ⊢
  cases hout with
  | badClass h bs hbs m' hd =>
    obtain ⟨ps, hps⟩ := hd.rxData
    obtain ⟨vs, hvs, -⟩ := hd.tlm
    simp [hd.inbox, hd.txEnabled, hd.rxEnabled, hps, hvs, Manager.appended, Manager.cleared]
  | startFault | pollFault | rangingError | rangingTimeout | transportFault | txFault | rxFault
  | fifoCount => simp [Manager.polled, Manager.cleared]
  | faultReset h | faultStays h => exact absurd h hfaulted
  | rangingGoesOn h => simp [Manager.polled, Manager.cleared, h] at hstate
  | silent h | txGoesOn h => simp [Manager.cleared, h] at hstate
  | received h hrx bs hbs m' hd hs => simp [hd.state_appended, h] at hstate
  | rangingDone | transmit | receive | txDone | rxOff => simp at hstate

/-! ### The invariants of the block along a tick -/

section
variable {c : Cfg} {m m' : Manager}

/-- A tick can only take the inbox's head (10_state.md R28). -/
theorem TickOutcome.inbox_suffix (h : TickOutcome c m m') : m'.inbox <:+ m.inbox := by
  cases h with
  | transmit h htx p ps hin =>
    rw [hin]
    exact List.suffix_cons p ps
  | received h hrx bs hbs m' hd hs => rw [hd.inbox]; exact List.suffix_rfl
  | badClass h bs hbs m' hd =>
    rw [Manager.enterFaulted_inbox, hd.inbox]
    exact List.suffix_rfl
  | _ => exact List.suffix_rfl

/-- A tick appends to the telemetry stream only, and no Data chunk (10_state.md R31). -/
theorem TickOutcome.tlm_append (h : TickOutcome c m m') :
    ∃ vs, m'.tlm = m.tlm ++ vs ∧ ∀ v ∈ vs, ∀ flags p, v ≠ .data flags p := by
  cases h with
  | received h hrx bs hbs m' hd hs => exact hd.tlm
  | badClass h bs hbs m' hd => exact hd.tlm
  | _ => exact ⟨[], (List.append_nil _).symm, by simp⟩

/-- Faulted entry records a cause, and a cause is left by the fault-reset alone (R246, R253). -/
theorem TickOutcome.causeMatches (h : TickOutcome c m m') (hm : m.CauseMatches) :
    m'.CauseMatches := by
  unfold Manager.CauseMatches at hm ⊢
  cases h with
  | startFault | pollFault | rangingError | rangingTimeout | transportFault | txFault | rxFault
  | fifoCount | badClass | faultReset => simp
  | rangingDone h | transmit h | receive h | txDone h | rxOff h =>
    simpa [Manager.polled, Manager.cleared, h] using hm
  | rangingGoesOn h | silent h | txGoesOn h | faultStays h =>
    simpa [Manager.polled, Manager.cleared] using hm
  | received h hrx bs hbs m' hd hs => rwa [hd.state, hd.faultCause]

/-- The poll counts a tick of a stay that had some left (42_manager.md R193). -/
theorem TickOutcome.stayCounted (h : TickOutcome c m m') (hc : c.WellFormed)
    (hm : m.StayCounted c) : m'.StayCounted c := by
  obtain ⟨hle, hauto, hactive⟩ := hm
  unfold Manager.StayCounted
  cases h with
  | startFault | transportFault | txFault | rxFault | fifoCount =>
    simpa [Manager.cleared] using hle
  | pollFault h | rangingError h | rangingTimeout h =>
    have hlt := (hauto h).1
    simpa [Manager.polled] using hlt
  | rangingDone h =>
    have hlt := (hauto h).1
    simpa [Manager.polled] using hlt
  | rangingGoesOn h ht => simp [Manager.polled, Manager.cleared, h, ht, ht.le]
  | transmit h => simpa [Manager.cleared, hle] using hactive (.inl h)
  | receive h => simpa [Manager.cleared, hle] using hactive (.inl h)
  | txDone h => simpa [Manager.cleared, hle] using hactive (.inr (.inl h))
  | rxOff h => simpa [Manager.cleared, hle] using hactive (.inr (.inr h))
  | silent | txGoesOn | faultStays => exact ⟨hle, hauto, hactive⟩
  | received h hrx bs hbs m' hd hs =>
    rw [hd.state, hd.rngIssued, hd.rngTicks]
    exact ⟨hle, hauto, hactive⟩
  | badClass h bs hbs m' hd => simpa [hd.rngTicks, Manager.appended, Manager.cleared] using hle
  | faultReset =>
    have ht : 0 < c.autorangeTimeoutTicks := wf_timeout hc
    simpa [Manager.cleared] using ht

/-- Outside Faulted a tick leaves the decode buffer as it was, empty, or drained (R167, R196, R199,
R253). -/
theorem TickOutcome.bufferDrained (h : TickOutcome c m m') (hc : c.WellFormed)
    (hm : m.BufferDrained c) : m'.BufferDrained c := by
  unfold Manager.BufferDrained at hm ⊢
  cases h with
  | startFault | pollFault | rangingError | rangingTimeout | transportFault | txFault | rxFault
  | fifoCount | badClass => simp
  | rangingDone h | transmit h | txDone h | rxOff h => exact fun _ => hm (by simp [h])
  | rangingGoesOn | silent | txGoesOn | faultStays => exact hm
  | receive | faultReset => exact fun _ => rfl
  | received h hrx bs hbs m' hd hs => exact fun _ => hs hc

/-- What is appended to an incomplete chunk is within the FIFO's depth (10_state.md R29). -/
theorem bufferFits_of_drained (hc : c.WellFormed) (h : decodeChunk c m.rxBuf = .needMore)
    {bs : List Byte} (hbs : bs.length ≤ c.fifoDepth) (hd : Drained (m.appended bs) m') :
    m'.BufferFits c := by
  have hshort := decodeChunk_needMore_length hc h
  obtain ⟨taken, htaken⟩ := hd.rxBuf
  have hlen := congrArg List.length htaken
  simp only [Manager.appended, List.length_append] at hlen
  unfold Manager.BufferFits
  omega

theorem TickOutcome.bufferFits (h : TickOutcome c m m') (hc : c.WellFormed)
    (hdrained : m.BufferDrained c) (hm : m.BufferFits c) : m'.BufferFits c := by
  cases h with
  | received h hrx bs hbs m' hd hs =>
    exact bufferFits_of_drained hc (hdrained (by simp [h])) hbs hd
  | badClass h bs hbs m' hd =>
    exact bufferFits_of_drained (m' := m') hc (hdrained (by simp [h])) hbs hd
  | receive | faultReset => exact Nat.zero_le _
  | _ => exact hm

end

end Sys2Proof.Machine
end

section
/-! PROOFS. A tick on the bus: how many transactions it makes and what they do at the chip, and that
a failed one is its last and faults with TRANSPORT (42_manager.md R216, 60_exceptions.md R248,
R256). -/

namespace Sys2Proof.Machine

/-! ### How many transactions a tick makes (R216) -/

/-- The most transactions that a tick from this state makes. -/
def Manager.tickBound (m : Manager) : Nat :=
  match m.state with
  | .faulted => 0
  | .idle => if m.txEnabled = true ∧ m.inbox ≠ [] then 3 else if m.rxEnabled then 1 else 0
  | .autoranging => if m.rngIssued then 2 else 4
  | .transmitting => 3
  | .receiving => if m.rxEnabled then 3 else 2

/-- A tick's outcome with at most `n` transactions recorded. -/
def TickRecorded (c : Cfg) (p : Port) (n : Nat) (out : Manager × Port) : Prop :=
  p.Recorded c out.2 n

section
variable {c : Cfg} {m : Manager} {p : Port}

theorem recorded_orFault {α : Type} {r : Prim α} {k : α → Port → Manager × Port} {n j : Nat}
    (h : p.Recorded c r.2 n) (hk : ∀ v q, TickRecorded c q j (k v q)) :
    TickRecorded c p (n + j) (orFault r m k) := by
  unfold TickRecorded at hk ⊢
  obtain ⟨v, -, he⟩ | ⟨e, -, he⟩ := orFault_cases (m := m) (k := k) r <;> rw [he]
  · exact h.trans (hk v r.2)
  · exact h.mono (Nat.le_add_right n j)

theorem recorded_done (n : Nat) : TickRecorded c p n (m, p) := p.recorded_refl c n

theorem recorded_ite {b : Prop} [Decidable b] {out out' : Manager × Port} {n : Nat}
    (h : TickRecorded c p n out) (h' : TickRecorded c p n out') :
    TickRecorded c p n (if b then out else out') := by
  split
  · exact h
  · exact h'

theorem recorded_autorangingPoll : TickRecorded c p 2 (autorangingPoll c m p) :=
  recorded_orFault (n := 1) (j := 1) (recorded_read _) fun _ _ =>
    recorded_orFault (n := 1) (j := 0) (recorded_read _) fun _ _ =>
      recorded_ite (recorded_done 0)
        (recorded_ite (recorded_done 0)
          (recorded_ite (recorded_done 0) (recorded_done 0)))

theorem recorded_tickAutoranging :
    TickRecorded c p (if m.rngIssued then 2 else 4) (tickAutoranging c m p) := by
  unfold tickAutoranging
  split
  · exact recorded_autorangingPoll
  · exact recorded_orFault (n := 1) (j := 3) (recorded_command _ _) fun _ _ =>
      recorded_orFault (n := 1) (j := 2) (recorded_command _ _) fun _ _ => recorded_autorangingPoll

theorem recorded_enterTransmitting (d : List Byte) :
    TickRecorded c p 3 (enterTransmitting c d m p) :=
  recorded_orFault (n := 1) (j := 2) (recorded_writeFifoData _) fun _ _ =>
    recorded_orFault (n := 1) (j := 1) (recorded_command _ _) fun _ _ =>
      recorded_orFault (n := 1) (j := 0) (recorded_command _ _) fun _ _ => recorded_done 0

theorem recorded_enterReceiving : TickRecorded c p 1 (enterReceiving c m p) :=
  recorded_orFault (n := 1) (j := 0) (recorded_command _ _) fun _ _ => recorded_done 0

theorem recorded_tickIdle :
    TickRecorded c p
      (if m.txEnabled = true ∧ m.inbox ≠ [] then 3 else if m.rxEnabled then 1 else 0)
      (tickIdle c m p) := by
  obtain ⟨d, ds, htx, hin, he⟩ | ⟨hno, hrx, he⟩ | ⟨hno, hrx, he⟩ := tickIdle_cases c m p <;> rw [he]
  · rw [if_pos ⟨htx, by simp [hin]⟩]
    exact recorded_enterTransmitting d
  · rw [if_neg (by simpa [or_iff_not_imp_left] using hno), if_pos hrx]
    exact recorded_enterReceiving
  · exact recorded_done _

theorem recorded_tickTransmitting : TickRecorded c p 3 (tickTransmitting c m p) :=
  recorded_orFault (n := 1) (j := 2) (recorded_read _) fun _ _ =>
    recorded_ite (recorded_done 2) <|
      recorded_orFault (n := 1) (j := 1) (recorded_read _) fun _ _ =>
        recorded_ite
          (recorded_orFault (n := 1) (j := 0) (recorded_command _ _) fun _ _ => recorded_done 0)
          (recorded_done 1)

theorem recorded_tickReceiving :
    TickRecorded c p (if m.rxEnabled then 3 else 2) (tickReceiving c m p) := by
  unfold tickReceiving
  cases hrx : m.rxEnabled with
  | false =>
    simp only [Bool.not_false, if_true]
    exact recorded_orFault (n := 1) (j := 1) (recorded_read _) fun _ _ =>
      recorded_ite (recorded_done 1) <|
        recorded_orFault (n := 1) (j := 0) (recorded_command _ _) fun _ _ => recorded_done 0
  | true =>
    simp only [Bool.not_true, Bool.false_eq_true, if_false]
    exact recorded_orFault (n := 1) (j := 2) (recorded_read _) fun _ _ =>
      recorded_ite (recorded_done 2) <|
        recorded_orFault (n := 1) (j := 1) (recorded_read16 _) fun _ _ =>
          recorded_ite (recorded_done 1) <|
            recorded_orFault (n := 1) (j := 0) (recorded_readFifo _) fun _ _ => recorded_done 0

theorem recorded_tickFaulted (rr : Bool) : TickRecorded c p 0 (tickFaulted rr m p) :=
  recorded_ite (recorded_done 0) (recorded_done 0)

end

theorem recorded_dispatch (c : Cfg) (m : Manager) (p : Port) :
    TickRecorded c p m.tickBound (dispatch c m p) := by
  unfold Manager.tickBound
  cases h : m.state with
  | autoranging => rw [dispatch_autoranging h]; exact recorded_tickAutoranging (m := m.cleared)
  | idle => rw [dispatch_idle h]; exact recorded_tickIdle (m := m.cleared)
  | transmitting => rw [dispatch_transmitting h]; exact recorded_tickTransmitting
  | receiving => rw [dispatch_receiving h]; exact recorded_tickReceiving (m := m.cleared)
  | faulted => rw [dispatch_faulted h]; exact recorded_tickFaulted _

/-- Settles O45: the bound of the tick of each state. -/
theorem tickTransactionsAreBounded : Obligations.TickTransactionsAreBounded := by
  intro s t _ h
  cases h
  obtain ⟨ts, htrace, -, hlen⟩ := recorded_dispatch s.cfg s.mgr s.port
  exact ⟨ts, htrace, hlen⟩

theorem recorded_exec {i : Instr} {s t : State} (h : exec i s = .next t) :
    ∃ n, s.port.Recorded s.cfg t.port n := by
  by_cases hi : i = .tick
  · subst hi
    cases h
    exact ⟨_, recorded_dispatch s.cfg s.mgr s.port⟩
  · exact recorded_exec_of_ne_tick hi h

/-! ### Where a failed transaction leaves the tick (R248, R256) -/

/-- The block took the transport fault. -/
def Manager.TransportFaulted (m : Manager) : Prop := m.state = .faulted ∧ m.faultCause = .transport

/-- A primitive that completes had no failed transaction, and one that raises ends at one. -/
def FailsLast {α : Type} (p : Port) (r : Prim α) : Prop :=
  (∃ v q done, r = (.ok v, q) ∧ q.trace = p.trace ++ done ∧ ∀ x ∈ done, x.failed = false) ∨
  ∃ e q x, r = (.error e, q) ∧ q.trace = p.trace ++ [x] ∧ x.failed = true

/-- A tick without a failed transaction takes no transport fault, and one with takes it at the
failed one, its last. -/
def FaultsPrecisely (p : Port) (out : Manager × Port) : Prop :=
  ∃ done, (∀ x ∈ done, x.failed = false) ∧
    ((out.2.trace = p.trace ++ done ∧ ¬ out.1.TransportFaulted) ∨
      ∃ x, out.2.trace = p.trace ++ (done ++ [x]) ∧ x.failed = true ∧ out.1.TransportFaulted)

section
variable {c : Cfg} {m : Manager} {p : Port}

theorem faultsPrecisely_done (h : ¬ m.TransportFaulted) : FaultsPrecisely p (m, p) :=
  ⟨[], by simp, .inl ⟨by simp, h⟩⟩

theorem not_transportFaulted_of_state (h : m.state ≠ .faulted) : ¬ m.TransportFaulted :=
  fun hfaulted => h hfaulted.1

theorem faultsPrecisely_enterFaulted {cause : FaultCause} (h : cause ≠ .transport) :
    FaultsPrecisely p (m.enterFaulted cause, p) :=
  faultsPrecisely_done fun hfaulted => h hfaulted.2

theorem faultsPrecisely_ite {b : Prop} [Decidable b] {out out' : Manager × Port}
    (h : FaultsPrecisely p out) (h' : FaultsPrecisely p out') :
    FaultsPrecisely p (if b then out else out') := by
  split
  · exact h
  · exact h'

theorem faultsPrecisely_orFault {α : Type} {r : Prim α} {k : α → Port → Manager × Port}
    (h : FailsLast p r) (hk : ∀ v q, FaultsPrecisely q (k v q)) :
    FaultsPrecisely p (orFault r m k) := by
  obtain ⟨v, q, first, rfl, htrace, hfirst⟩ | ⟨e, q, x, rfl, htrace, hx⟩ := h
  · obtain ⟨done, hdone, hend⟩ := hk v q
    refine ⟨first ++ done, fun y hy => (List.mem_append.1 hy).elim (hfirst y) (hdone y), ?_⟩
    rw [orFault_ok]
    simpa only [htrace, List.append_assoc] using hend
  · exact ⟨[], by simp, .inr ⟨x, by simpa using htrace, hx, rfl, rfl⟩⟩

theorem failsLast_busWrite (out : List Byte) : FailsLast p (p.busWrite c out) := by
  cases hf : (p.answer 0).fails with
  | false =>
    exact .inl ⟨(), _, [.write out true], busWrite_answered hf, rfl, by simp [Transaction.failed]⟩
  | true => exact .inr ⟨_, _, .write out false, busWrite_failed hf, rfl, rfl⟩

theorem failsLast_memRead {a n : Nat} (h : inSpace c a n = true) :
    FailsLast p (memRead c a n p) := by
  cases hf : p.nextDraw.fails with
  | false => exact .inl ⟨_, _, [_], memRead_ok h hf, rfl, by simp [Transaction.failed]⟩
  | true => exact .inr ⟨_, _, _, memRead_fails h hf, rfl, rfl⟩

theorem failsLast_read {a : Nat} (h : a ≤ 0xFFF) : FailsLast p (read c a p) := by
  cases hf : (p.answer 0).fails with
  | false =>
    exact .inl ⟨_, _, [p.readDone 0 a 1], read_answered h hf, rfl,
      by simp [Port.readDone, Transaction.failed]⟩
  | true => exact .inr ⟨_, _, _, read_failed h hf, rfl, rfl⟩

theorem failsLast_read16 {a : Nat} (h : a ≤ 0xFFE) : FailsLast p (read16 c a p) := by
  cases hf : (p.answer 0).fails with
  | false =>
    exact .inl ⟨_, _, [p.readDone 0 a 2], read16_answered h hf, rfl,
      by simp [Port.readDone, Transaction.failed]⟩
  | true => exact .inr ⟨_, _, _, read16_failed h hf, rfl, rfl⟩

theorem failsLast_readFifo (n : Nat) (h : c.addrFifodata ≤ 0xFFF) :
    FailsLast p (readFifo c n p) := by
  by_cases hn : n = 0
  · subst hn
    exact .inl ⟨_, _, [], readFifo_zero c p, by simp⟩
  · rw [readFifo_pos p hn]
    exact failsLast_memRead (inSpace_fifo n h)

theorem failsLast_command {a : Nat} (v : Byte) (h : a ≤ 0xFFF) :
    FailsLast p (command c a v p) := by
  rw [command_eq p h]
  exact failsLast_busWrite _

theorem failsLast_writeFifoData {d : List Byte} (hd : d.length ≤ 254)
    (h : c.addrFifodata ≤ 0xFFF) : FailsLast p (writeFifoData c d p) := by
  rw [writeFifoData_eq p hd h]
  exact failsLast_busWrite _

variable (hc : c.WellFormed)
include hc

theorem faultsPrecisely_autorangingPoll (hm : m.state = .autoranging) :
    FaultsPrecisely p (autorangingPoll c m p) :=
  faultsPrecisely_orFault (failsLast_read (wf_rng hc)) fun _ _ =>
    faultsPrecisely_orFault (failsLast_read (wf_xtalstatus hc)) fun _ _ =>
      faultsPrecisely_ite (faultsPrecisely_enterFaulted nofun) <|
        faultsPrecisely_ite (faultsPrecisely_done (not_transportFaulted_of_state nofun)) <|
          faultsPrecisely_ite (faultsPrecisely_enterFaulted nofun)
            (faultsPrecisely_done (not_transportFaulted_of_state (by simp [hm])))

theorem faultsPrecisely_tickAutoranging (hm : m.state = .autoranging) :
    FaultsPrecisely p (tickAutoranging c m p) :=
  faultsPrecisely_ite (faultsPrecisely_autorangingPoll hc hm) <|
    faultsPrecisely_orFault (failsLast_command _ (wf_pwrmode hc)) fun _ _ =>
      faultsPrecisely_orFault (failsLast_command _ (wf_rng hc)) fun _ _ =>
        faultsPrecisely_autorangingPoll hc hm

theorem faultsPrecisely_enterTransmitting {d : List Byte} (hd : d.length ≤ 254) :
    FaultsPrecisely p (enterTransmitting c d m p) :=
  faultsPrecisely_orFault (failsLast_writeFifoData hd (wf_fifodata hc)) fun _ _ =>
    faultsPrecisely_orFault (failsLast_command _ (wf_fifostat hc)) fun _ _ =>
      faultsPrecisely_orFault (failsLast_command _ (wf_pwrmode hc)) fun _ _ =>
        faultsPrecisely_done (not_transportFaulted_of_state nofun)

theorem faultsPrecisely_enterReceiving : FaultsPrecisely p (enterReceiving c m p) :=
  faultsPrecisely_orFault (failsLast_command _ (wf_pwrmode hc)) fun _ _ =>
    faultsPrecisely_done (not_transportFaulted_of_state nofun)

theorem faultsPrecisely_tickIdle (hm : m.state = .idle) (hin : m.InboxFramable) :
    FaultsPrecisely p (tickIdle c m p) := by
  obtain ⟨d, ds, -, hcons, he⟩ | ⟨-, -, he⟩ | ⟨-, -, he⟩ := tickIdle_cases c m p <;> rw [he]
  · exact faultsPrecisely_enterTransmitting hc (hin d (by simp [hcons]))
  · exact faultsPrecisely_enterReceiving hc
  · exact faultsPrecisely_done (not_transportFaulted_of_state (by simp [hm]))

theorem faultsPrecisely_tickTransmitting (hm : m.state = .transmitting) :
    FaultsPrecisely p (tickTransmitting c m p) :=
  faultsPrecisely_orFault (failsLast_read (wf_fault hc)) fun _ _ =>
    faultsPrecisely_ite (faultsPrecisely_enterFaulted nofun) <|
      faultsPrecisely_orFault (failsLast_read (wf_txdone hc)) fun _ _ =>
        faultsPrecisely_ite
          (faultsPrecisely_orFault (failsLast_command _ (wf_pwrmode hc)) fun _ _ =>
            faultsPrecisely_done (not_transportFaulted_of_state nofun))
          (faultsPrecisely_done (not_transportFaulted_of_state (by simp [hm])))

theorem receiveBytes_not_transportFaulted (hm : m.state = .receiving) (bs : List Byte) :
    ¬ (receiveBytes c m bs).TransportFaulted := by
  obtain ⟨m', hd, ⟨-, he⟩ | ⟨t, -, he⟩⟩ := receiveBytes_cases hc m bs <;> rw [he]
  · exact not_transportFaulted_of_state (by simp [hd.state, hm])
  · exact fun hfaulted => nomatch hfaulted.2

theorem faultsPrecisely_tickReceiving (hm : m.state = .receiving) :
    FaultsPrecisely p (tickReceiving c m p) :=
  faultsPrecisely_orFault (failsLast_read (wf_fault hc)) fun _ _ =>
    faultsPrecisely_ite (faultsPrecisely_enterFaulted nofun) <|
      faultsPrecisely_ite
        (faultsPrecisely_orFault (failsLast_command _ (wf_pwrmode hc)) fun _ _ =>
          faultsPrecisely_done (not_transportFaulted_of_state nofun)) <|
        faultsPrecisely_orFault (failsLast_read16 (wf_fifocount hc)) fun _ _ =>
          faultsPrecisely_ite (faultsPrecisely_enterFaulted nofun) <|
            faultsPrecisely_orFault (failsLast_readFifo _ (wf_fifodata hc)) fun _ _ =>
              faultsPrecisely_done (receiveBytes_not_transportFaulted hc hm _)

theorem faultsPrecisely_dispatch (hin : m.InboxFramable) (hm : m.state ≠ .faulted) :
    FaultsPrecisely p (dispatch c m p) := by
  cases h : m.state with
  | autoranging => rw [dispatch_autoranging h]; exact faultsPrecisely_tickAutoranging hc h
  | idle => rw [dispatch_idle h]; exact faultsPrecisely_tickIdle hc h hin
  | transmitting => rw [dispatch_transmitting h]; exact faultsPrecisely_tickTransmitting hc h
  | receiving => rw [dispatch_receiving h]; exact faultsPrecisely_tickReceiving hc h
  | faulted => exact absurd h hm

end

/-- Settles O46: outside Faulted the tick is precise, and in Faulted it makes no transaction. -/
theorem transportFaultsArePrecise : Obligations.TransportFaultsArePrecise := by
  intro s t hc hin h
  cases h
  by_cases hm : s.mgr.state = .faulted
  · obtain ⟨ts, htrace, -, hlen⟩ := recorded_dispatch s.cfg s.mgr s.port
    obtain rfl : ts = [] := by simpa [Manager.tickBound, hm] using hlen
    exact ⟨[], htrace, by simp, fun hne => absurd hm hne⟩
  · obtain ⟨done, hdone, ⟨htrace, hno⟩ | ⟨x, htrace, hx, hfaulted⟩⟩ :=
      faultsPrecisely_dispatch (p := s.port) hc hin hm
    · refine ⟨done, htrace, fun x hmem hx => ?_, fun _ hstate hcause => absurd ⟨hstate, hcause⟩ hno⟩
      simp [hdone x hmem] at hx
    · refine ⟨done ++ [x], htrace, fun y hmem hy => ?_, fun _ _ _ => ⟨x, by simp, hx⟩⟩
      obtain hmem | hmem := List.mem_append.1 hmem
      · simp [hdone y hmem] at hy
      · obtain rfl := List.mem_singleton.1 hmem
        exact ⟨by simp, hfaulted⟩

end Sys2Proof.Machine
end

section
/-! PROOFS. The ticks of Autoranging and Receiving as whole transitions: what each sends for the
answers it draws, and what it leaves in the block's state (42_manager.md R192, R193, R199,
60_exceptions.md R248 to R251). -/

namespace Sys2Proof.Machine

/-! ### The answers after some transactions (20_memory.md R55, R57) -/

/-- A transport after some transactions: they are at the trace's end, and as many answers are
drawn. -/
structure Port.After (p q : Port) (ts : List Transaction) : Prop where
  trace : q.trace = p.trace ++ ts
  answer : ∀ k, q.answer k = p.answer (ts.length + k)
  answerByte : ∀ k j, q.answerByte k j = p.answerByte (ts.length + k) j

section
variable {p q r : Port} {ts us : List Transaction}

theorem Port.after_refl (p : Port) : p.After p [] := ⟨by simp, by simp, by simp⟩

theorem Port.after_record (p : Port) (t : Transaction) (as : List Access) :
    p.After (p.record t as) [t] := ⟨by simp, by simp [Nat.add_comm], by simp [Nat.add_comm]⟩

theorem Port.After.trans (h : p.After q ts) (h' : q.After r us) : p.After r (ts ++ us) := by
  refine ⟨by simp [h'.trace, h.trace], fun k => ?_, fun k j => ?_⟩
  · rw [h'.answer, h.answer, List.length_append, Nat.add_assoc]
  · rw [h'.answerByte, h.answerByte, List.length_append, Nat.add_assoc]

theorem Port.After.readDone (h : p.After q ts) (k a n : Nat) :
    q.readDone k a n = p.readDone (ts.length + k) a n := by
  have hbytes : q.answerByte k = p.answerByte (ts.length + k) := funext (h.answerByte k)
  simp [Port.readDone, Port.answerBytes, hbytes]

end

/-! ### One transaction of a tick, completed or failed -/

section
variable {c : Cfg} {m : Manager} {p : Port} {a : Nat}

theorem orFault_read_failed {k : Byte → Port → Manager × Port} (ha : a ≤ 0xFFF)
    (h : (p.answer 0).fails = true) :
    orFault (read c a p) m k =
      (m.enterFaulted .transport, p.record (.xfer (readOut a 1) none) [.unknownEffect]) := by
  rw [read_failed ha h, orFault_error]

/-- The transport after a completed command write. -/
abbrev Port.afterCommand (c : Cfg) (a : Nat) (v : Byte) (p : Port) : Port :=
  p.record (.write (commandFrame a v) true) (frameAccesses c (commandFrame a v) [])

theorem orFault_command_answered {v : Byte} {k : Unit → Port → Manager × Port} (ha : a ≤ 0xFFF)
    (h : (p.answer 0).fails = false) :
    orFault (command c a v p) m k = k () (p.afterCommand c a v) := by
  rw [command_eq p ha, busWrite_answered h, orFault_ok]

theorem orFault_command_failed {v : Byte} {k : Unit → Port → Manager × Port} (ha : a ≤ 0xFFF)
    (h : (p.answer 0).fails = true) :
    orFault (command c a v p) m k = (m.enterFaulted .transport,
      p.record (.write (commandFrame a v) false) [.unknownEffect]) := by
  rw [command_eq p ha, busWrite_failed h, orFault_error]

end

/-! ### The polls of an Autoranging tick (R192, R193) -/

/-- What the two status bytes make of the block's state: error, success, timeout, in this order
(60_exceptions.md R251). -/
def Manager.decideRanging (c : Cfg) (m : Manager) (status xtal : Byte) : Manager :=
  if rangingError c status then m.enterFaulted .rangingError
  else if xtalRunning c xtal && !rangingBusy c status then { m with state := .idle }
  else if c.autorangeTimeoutTicks ≤ m.rngTicks then m.enterFaulted .autorangeTimeout
  else m

section
variable {c : Cfg} {m : Manager} {p : Port}

theorem Manager.decideRanging_eq (status xtal : Byte) :
    m.decideRanging c status xtal =
      if status &&& c.rngErrMask ≠ 0#8 then
        { m with state := .faulted, faultCause := .rangingError }
      else if xtal &&& c.xtalRunMask ≠ 0#8 ∧ status &&& c.rngBusyMask = 0#8 then
        { m with state := .idle }
      else if c.autorangeTimeoutTicks ≤ m.rngTicks then
        { m with state := .faulted, faultCause := .autorangeTimeout }
      else m := by
  simp only [Manager.decideRanging, rangingError, xtalRunning, rangingBusy, anyBit,
    Bool.and_eq_true, Bool.not_eq_true', decide_eq_true_eq, decide_eq_false_iff_not, ne_eq,
    not_not]
  rfl

theorem autorangingPoll_answered (hc : c.WellFormed) (h0 : (p.answer 0).fails = false)
    (h1 : (p.answer 1).fails = false) :
    autorangingPoll c m p =
      (m.decideRanging c (p.answerByte 0 (headerLen c.addrRng))
          (p.answerByte 1 (headerLen c.addrXtalstatus)),
        (p.afterRead c c.addrRng).afterRead c c.addrXtalstatus) := by
  rw [autorangingPoll, orFault_read_answered (wf_rng hc) h0,
    orFault_read_answered (wf_xtalstatus hc) (by rwa [Port.record_answer]),
    Port.record_answerByte, Manager.decideRanging]
  split_ifs <;> rfl

/-- The first poll to fail ends the tick where it stands (R248). -/
theorem autorangingPoll_failed (hc : c.WellFormed) {j : Nat} (hj : j < 2)
    (hok : ∀ l, l < j → (p.answer l).fails = false) (hfails : (p.answer j).fails = true) :
    ∃ q ts, autorangingPoll c m p = (m.enterFaulted .transport, q) ∧ q.trace = p.trace ++ ts ∧
      ts.length = j + 1 := by
  rw [autorangingPoll]
  obtain rfl | rfl : j = 0 ∨ j = 1 := by omega
  · rw [orFault_read_failed (wf_rng hc) hfails]
    exact ⟨_, [_], rfl, rfl, rfl⟩
  · rw [orFault_read_answered (wf_rng hc) (hok 0 (by omega)),
      orFault_read_failed (wf_xtalstatus hc) (by rwa [Port.record_answer])]
    exact ⟨_, [_, _], rfl, List.append_assoc _ _ _, rfl⟩

/-! ### The start of an Autoranging stay (R192) -/

/-- The two writes that start a stay. -/
def startWrites (c : Cfg) : List Transaction :=
  [.write (commandFrame c.addrPwrmode c.pwrStandby) true,
    .write (commandFrame c.addrRng c.rngStartValue) true]

/-- The start writes a tick has to make. -/
def Manager.dueWrites (c : Cfg) (m : Manager) : List Transaction :=
  if m.rngIssued then [] else startWrites c

theorem Manager.dueWrites_length : (m.dueWrites c).length = if m.rngIssued then 0 else 2 := by
  unfold Manager.dueWrites
  split <;> rfl

/-- Once the start is issued, before the tick or in it, the tick is its polls. -/
theorem tickAutoranging_started (hc : c.WellFormed)
    (hok : ∀ l, l < (m.dueWrites c).length → (p.answer l).fails = false) :
    ∃ q, tickAutoranging c m p =
        autorangingPoll c { m with rngIssued := true, rngTicks := m.rngTicks + 1 } q ∧
      p.After q (m.dueWrites c) := by
  cases hi : m.rngIssued with
  | true =>
    refine ⟨p, ?_, by simpa [Manager.dueWrites, hi] using p.after_refl⟩
    rw [tickAutoranging, if_pos hi]
    cases m
    subst hi
    rfl
  | false =>
    have hlen : (m.dueWrites c).length = 2 := by rw [Manager.dueWrites_length, hi]; rfl
    rw [tickAutoranging, if_neg (by simp [hi]), cmdPwrStandby,
      orFault_command_answered (wf_pwrmode hc) (hok 0 (by omega)), cmdRngStart,
      orFault_command_answered (wf_rng hc) (by rw [Port.record_answer]; exact hok 1 (by omega))]
    refine ⟨_, rfl, ?_⟩
    rw [Manager.dueWrites, if_neg (by simp [hi])]
    exact (p.after_record _ _).trans (Port.after_record _ _ _)

/-- A failed start write leaves the start not issued and the tick not counted (R248). -/
theorem tickAutoranging_start_failed (hc : c.WellFormed) (hi : m.rngIssued = false) {j : Nat}
    (hj : j < 2) (hok : ∀ l, l < j → (p.answer l).fails = false)
    (hfails : (p.answer j).fails = true) :
    ∃ q ts, tickAutoranging c m p = (m.enterFaulted .transport, q) ∧ q.trace = p.trace ++ ts ∧
      ts.length = j + 1 := by
  rw [tickAutoranging, if_neg (by simp [hi]), cmdPwrStandby]
  obtain rfl | rfl : j = 0 ∨ j = 1 := by omega
  · rw [orFault_command_failed (wf_pwrmode hc) hfails]
    exact ⟨_, [_], rfl, rfl, rfl⟩
  · rw [orFault_command_answered (wf_pwrmode hc) (hok 0 (by omega)), cmdRngStart,
      orFault_command_failed (wf_rng hc) (by rwa [Port.record_answer])]
    exact ⟨_, [_, _], rfl, List.append_assoc _ _ _, rfl⟩

end

/-- Settles O33: the start writes that are due, the two polls, and what their bytes decide. -/
theorem autorangingTickPollsAndDecides : Obligations.AutorangingTickPollsAndDecides := by
  intro s hc hstate k status xtal polled hok
  have hk : (s.mgr.cleared.dueWrites s.cfg).length = k := Manager.dueWrites_length
  obtain ⟨q, htick, hafter⟩ := tickAutoranging_started (m := s.mgr.cleared) (p := s.port) hc
    fun l hl => hok l (by omega)
  rw [autorangingPoll_answered hc (by rw [hafter.answer, hk]; exact hok _ (by omega))
    (by rw [hafter.answer, hk]; exact hok _ (by omega)), hafter.answerByte, hafter.answerByte, hk,
    Manager.decideRanging_eq] at htick
  refine ⟨_, exec_tick ((dispatch_autoranging hstate).trans htick), rfl, rfl, rfl, ?_, rfl⟩
  have h0 := hafter.readDone 0 s.cfg.addrRng 1
  have h1 := hafter.readDone 1 s.cfg.addrXtalstatus 1
  rw [hk] at h0 h1
  simp only [Port.record_trace, Port.record_readDone, hafter.trace, h0, h1, List.append_assoc]
  rfl

/-- Settles O34: the failing transaction is a start write or a poll. -/
theorem autorangingTransportFault : Obligations.AutorangingTransportFault := by
  intro s j hc hstate k hj hok hfails
  have hk : (s.mgr.cleared.dueWrites s.cfg).length = k := Manager.dueWrites_length
  by_cases hstart : j < k
  · have hi : s.mgr.rngIssued = false := by
      cases hi : s.mgr.rngIssued with
      | true => simp [k, hi] at hstart
      | false => rfl
    have hj2 : j < 2 := by simpa [k, hi] using hstart
    obtain ⟨q, ts, htick, htrace, hlen⟩ :=
      tickAutoranging_start_failed (m := s.mgr.cleared) hc hi hj2 hok hfails
    refine ⟨_, ts, exec_tick ((dispatch_autoranging hstate).trans htick), rfl, rfl, htrace, hlen,
      ?_⟩
    simp [Manager.cleared, Manager.enterFaulted, hi, hj2]
  · obtain ⟨i, rfl⟩ : ∃ i, j = k + i := ⟨j - k, by omega⟩
    obtain ⟨q, htick, hafter⟩ := tickAutoranging_started (m := s.mgr.cleared) (p := s.port) hc
      fun l hl => hok l (by omega)
    obtain ⟨r, us, hpoll, htrace, hlen⟩ := autorangingPoll_failed (c := s.cfg)
      (m := s.mgr.polled) (p := q) hc (j := i) (by omega)
      (fun l hl => by rw [hafter.answer, hk]; exact hok _ (by omega))
      (by rw [hafter.answer, hk]; exact hfails)
    rw [hafter.trace, List.append_assoc] at htrace
    have hissued : (s.mgr.rngIssued || decide (2 ≤ k + i)) = true := by
      cases hi : s.mgr.rngIssued <;> simp [k, hi]
    refine ⟨_, _, exec_tick ((dispatch_autoranging hstate).trans (htick.trans hpoll)), rfl, rfl,
      htrace, by simp [hlen, hk, Nat.add_assoc], ?_⟩
    simp [Manager.polled, Manager.cleared, Manager.enterFaulted, hissued]

/-! ### A Receiving tick (R199) -/

section
variable {c : Cfg} {m : Manager} {p : Port}

theorem tickReceiving_of_fault (hc : c.WellFormed) (h0 : (p.answer 0).fails = false)
    (hfault : faultBit c (p.answerByte 0 (headerLen c.addrFault)) = true) :
    tickReceiving c m p = (m.enterFaulted .rxFault, p.afterRead c c.addrFault) := by
  rw [tickReceiving, orFault_read_answered (wf_fault hc) h0, if_pos hfault]

theorem tickReceiving_of_off (hc : c.WellFormed) (h0 : (p.answer 0).fails = false)
    (hfault : ¬ faultBit c (p.answerByte 0 (headerLen c.addrFault)) = true)
    (hrx : m.rxEnabled = false) (h1 : (p.answer 1).fails = false) :
    tickReceiving c m p = ({ m with state := .idle },
      (p.afterRead c c.addrFault).afterCommand c c.addrPwrmode c.pwrStandby) := by
  rw [tickReceiving, orFault_read_answered (wf_fault hc) h0, if_neg hfault, if_pos (by simp [hrx]),
    cmdPwrStandby, orFault_command_answered (wf_pwrmode hc) (by rwa [Port.record_answer])]

/-- The transport after the completed read of the FIFO count. -/
abbrev Port.afterCount (c : Cfg) (p : Port) : Port :=
  p.record (p.readDone 0 c.addrFifocount 2)
    (frameAccesses c (readOut c.addrFifocount 2)
      (p.answerBytes 0 (headerLen c.addrFifocount + 2)))

/-- The FIFO count as the second answer from here on gives it (R125). -/
def Port.polledCount (c : Cfg) (p : Port) : Nat :=
  (p.answerByte 1 (headerLen c.addrFifocount)).toNat * 256 +
    (p.answerByte 1 (headerLen c.addrFifocount + 1)).toNat

/-- With the intent and no fault the count is read, and decides. -/
theorem tickReceiving_of_on (hc : c.WellFormed) (h0 : (p.answer 0).fails = false)
    (hfault : ¬ faultBit c (p.answerByte 0 (headerLen c.addrFault)) = true)
    (hrx : m.rxEnabled = true) (h1 : (p.answer 1).fails = false) :
    tickReceiving c m p =
      if c.fifoDepth < p.polledCount c then
        (m.enterFaulted .fifoCount, (p.afterRead c c.addrFault).afterCount c)
      else orFault (readFifo c (p.polledCount c) ((p.afterRead c c.addrFault).afterCount c)) m
        fun bs q => (receiveBytes c m bs, q) := by
  rw [tickReceiving, orFault_read_answered (wf_fault hc) h0, if_neg hfault, if_neg (by simp [hrx]),
    read16_answered (wf_fifocount hc) (by rwa [Port.record_answer]), orFault_ok, u16_toNat,
    Port.record_answerByte, Port.record_answerByte, Port.polledCount]

/-- A completed READ_FIFO returns the bytes after the echo of its one burst, of 0 bytes none. -/
theorem readFifo_answered (hc : c.WellFormed) (n : Nat) (h : n ≠ 0 → (p.answer 0).fails = false) :
    ∃ q, readFifo c n p =
        (.ok (if n = 0 then [] else
          (p.answerBytes 0 (headerLen c.addrFifodata + n)).drop (headerLen c.addrFifodata)), q) ∧
      q.trace = p.trace ++ if n = 0 then [] else [p.readDone 0 c.addrFifodata n] := by
  by_cases hn : n = 0
  · subst hn
    exact ⟨p, rfl, by simp⟩
  · rw [readFifo_pos p hn, memRead_ok (inSpace_fifo n (wf_fifodata hc))
      (p.nextDraw_eq_answer ▸ h hn), p.responseFrom_eq_drop, p.readDone_zero, if_neg hn, if_neg hn]
    exact ⟨_, rfl, rfl⟩

end

/-- Settles O40: the fault bit, then the intent, then the count, each before the next is looked
at. -/
theorem receivingTickExits : Obligations.ReceivingTickExits := by
  intro s hc hstate h0 fault count cleared
  refine ⟨fun hfault => ?_, fun hfault hrx h1 => ?_, fun hfault hrx h1 hcount => ?_⟩
  · have htick := tickReceiving_of_fault (m := cleared) hc h0 ((faultBit_iff _ _).2 hfault)
    rw [← dispatch_receiving hstate] at htick
    exact ⟨_, exec_tick htick, rfl, rfl⟩
  · have htick := tickReceiving_of_off (m := cleared) hc h0 (mt (faultBit_iff _ _).1 hfault) hrx h1
    rw [← dispatch_receiving hstate] at htick
    exact ⟨_, exec_tick htick, rfl, by simp [commandFrame]⟩
  · have htick := tickReceiving_of_on (m := cleared) hc h0 (mt (faultBit_iff _ _).1 hfault) hrx h1
    have hlarge : s.cfg.fifoDepth < s.port.polledCount s.cfg := hcount
    rw [← dispatch_receiving hstate, if_pos hlarge] at htick
    exact ⟨_, exec_tick htick, rfl, by simp⟩

theorem receiveBytes_of_drained {c : Cfg} {m : Manager} {bs : List Byte}
    (h : (drain c { m with rxBuf := m.rxBuf ++ bs }).2 = none) :
    receiveBytes c m bs = (drain c { m with rxBuf := m.rxBuf ++ bs }).1 := by
  unfold receiveBytes
  split
  · next heq => rw [heq]
  · next heq => simp [heq] at h

theorem receiveBytes_of_badClass {c : Cfg} {m : Manager} {bs : List Byte} {t : Byte}
    (h : (drain c { m with rxBuf := m.rxBuf ++ bs }).2 = some t) :
    receiveBytes c m bs =
      (drain c { m with rxBuf := m.rxBuf ++ bs }).1.enterFaulted .decodeBadclass := by
  unfold receiveBytes
  split
  · next heq => simp [heq] at h
  · next heq => rw [heq]

/-- Settles O41: the burst of the count is appended and drained, and the drain's end decides. -/
theorem receivingTickDrains : Obligations.ReceivingTickDrains := by
  intro s hc hstate hrx h n appended h0 h1 h2 hfault hcount
  have htick := tickReceiving_of_on (m := s.mgr.cleared) hc h0
    (mt (faultBit_iff _ _).1 (not_not.2 hfault)) hrx h1
  have hpolled : s.port.polledCount s.cfg = n := rfl
  obtain ⟨q, hread, htrace⟩ := readFifo_answered
    (p := (s.port.afterRead s.cfg s.cfg.addrFault).afterCount s.cfg) hc n (by simpa using h2)
  rw [hpolled, if_neg (Nat.not_lt.2 hcount), hread, orFault_ok] at htick
  simp only [Port.record_answerBytes] at htick
  refine ⟨_, exec_tick ((dispatch_receiving hstate).trans htick), rfl, rfl, ?_, ?_, ?_⟩
  · simpa using htrace
  · exact receiveBytes_of_drained (m := s.mgr.cleared)
  · exact fun tag => receiveBytes_of_badClass (m := s.mgr.cleared)

end Sys2Proof.Machine
end

section
/-! PROOFS. The step: what it runs, when it is refused, and that it leads from safe states to safe
states (10_state.md R28 to R35, 42_manager.md R218, R225, 60_exceptions.md R240). -/

namespace Sys2Proof.Machine

/-! ### What a step runs (log 4) -/

section
variable {s : State} {more : List Request}

theorem step_of_no_request (h : s.requests = []) : step s = exec .tick s := by
  simp [step, fetch, h]

theorem step_of_call {i : Instr} (h : s.requests = .call i :: more) :
    step s = exec i { s with requests := more } := by
  simp [step, fetch, serve, h]

theorem step_of_frame {bs : List Byte} {i : Instr} (h : s.requests = .frame bs :: more)
    (hi : decodeFrame s.cfg bs = .ok i) : step s = exec i { s with requests := more } := by
  simp [step, fetch, serve, h, hi]

theorem step_of_bad_frame {bs : List Byte} {e : DecodeError} (h : s.requests = .frame bs :: more)
    (he : decodeFrame s.cfg bs = .error e) : step s = .refused (.undecodableFrame e) := by
  simp [step, fetch, serve, h, he]

theorem step_of_chunk {bs rest : List Byte} {i : Instr} (h : s.requests = .chunk bs :: more)
    (hi : fetchChunk s.cfg bs = .instr i rest) :
    step s = exec i { s with requests := afterChunk bs rest more } := by
  simp [step, fetch, serve, h, hi]

theorem step_of_needMore {bs : List Byte} (h : s.requests = .chunk bs :: more)
    (hneed : fetchChunk s.cfg bs = .needMore) :
    step s = .next { s with requests := more, ret := .decoded .needMore } := by
  simp [step, fetch, serve, h, hneed, State.returning]

end

/-- Settles O59: a clause for each kind of request. -/
theorem stepRunsTheDecodedInstruction : Obligations.StepRunsTheDecodedInstruction :=
  fun _ _ => ⟨step_of_no_request, fun _ => step_of_call, fun _ _ => step_of_frame,
    fun _ _ => step_of_bad_frame, fun _ _ _ => step_of_chunk, fun _ => step_of_needMore⟩

/-- A step runs an instruction from a state that differs in the requests alone, or changes the
requests and the result alone. -/
theorem step_next {s t : State} (h : step s = .next t) :
    (∃ i requests, exec i { s with requests := requests } = .next t) ∨
    ∃ requests ret, t = { s with requests := requests, ret := ret } := by
  cases hreq : s.requests with
  | nil =>
    rw [step_of_no_request hreq] at h
    exact .inl ⟨.tick, s.requests, h⟩
  | cons r more =>
    cases r with
    | call i => exact .inl ⟨i, more, step_of_call hreq ▸ h⟩
    | frame bs =>
      cases hdec : decodeFrame s.cfg bs with
      | ok i => exact .inl ⟨i, more, step_of_frame hreq hdec ▸ h⟩
      | error e =>
        rw [step_of_bad_frame hreq hdec] at h
        cases h
    | chunk bs =>
      cases hfetch : fetchChunk s.cfg bs with
      | instr i rest => exact .inl ⟨i, _, step_of_chunk hreq hfetch ▸ h⟩
      | needMore =>
        rw [step_of_needMore hreq hfetch] at h
        cases h
        exact .inr ⟨more, _, rfl⟩

/-! ### Refusals (log 8, 17) -/

/-- The four rows that can be refused (R133 to R136). -/
def IsHeaderForm (i : Instr) : Prop :=
  (∃ a data, i = .busWrShort a data) ∨ (∃ a data, i = .busWrLong a data) ∨
    (∃ a n, i = .busRdShort a n) ∨ ∃ a n, i = .busRdLong a n

/-- The instruction answers a next state, or it is a frame form that is not well formed and is
refused. -/
def AnswersOrRefuses (i : Instr) (s : State) : Prop :=
  (∃ t, exec i s = .next t) ∨
  (i.wellFormed s.cfg = false ∧ IsHeaderForm i ∧
    (exec i s = .refused .headerMismatch ∨ exec i s = .refused .headerOnlyFrame))

section
variable {i : Instr} {s : State} {a n : Nat} {data : List Byte}

theorem answersOrRefuses_mismatch (hform : IsHeaderForm i) (hwf : i.wellFormed s.cfg = false)
    (h : exec i s = .refused .headerMismatch) : AnswersOrRefuses i s :=
  .inr ⟨hwf, hform, .inl h⟩

theorem answersOrRefuses_emitWrite (hform : IsHeaderForm i)
    (hwf : data = [] → i.wellFormed s.cfg = false) (h : exec i s = emitWrite a data s) :
    AnswersOrRefuses i s := by
  by_cases hdata : data = []
  · subst hdata
    exact .inr ⟨hwf rfl, hform, .inr h⟩
  · exact .inl ⟨_, h.trans (emitWrite_of_data a hdata)⟩

theorem answersOrRefuses_emitRead (hform : IsHeaderForm i)
    (hwf : n = 0 → i.wellFormed s.cfg = false) (h : exec i s = emitRead a n s) :
    AnswersOrRefuses i s := by
  by_cases hn : n = 0
  · subst hn
    exact .inr ⟨hwf rfl, hform, .inr h⟩
  · exact .inl ⟨_, h.trans (emitRead_of_pos a (Nat.pos_of_ne_zero hn))⟩

end

theorem exec_answersOrRefuses (i : Instr) (s : State) : AnswersOrRefuses i s := by
  cases i with
  | busWrShort a data =>
    have hform : IsHeaderForm (.busWrShort a data) := .inl ⟨a, data, rfl⟩
    obtain ha | ha := Nat.lt_or_ge a.toNat 0x70
    · exact answersOrRefuses_emitWrite hform (by simp +contextual [Instr.wellFormed])
        (exec_busWrShort_of_lt data ha)
    · exact answersOrRefuses_mismatch hform (by simp [Instr.wellFormed, ha])
        (exec_busWrShort_of_ge data ha)
  | busWrLong a data =>
    have hform : IsHeaderForm (.busWrLong a data) := .inr (.inl ⟨a, data, rfl⟩)
    obtain ha | ha := Nat.lt_or_ge a.toNat 0x070
    · exact answersOrRefuses_mismatch hform (by simp [Instr.wellFormed, ha])
        (exec_busWrLong_of_lt data ha)
    · exact answersOrRefuses_emitWrite hform (by simp +contextual [Instr.wellFormed])
        (exec_busWrLong_of_ge data ha)
  | busRdShort a n =>
    have hform : IsHeaderForm (.busRdShort a n) := .inr (.inr (.inl ⟨a, n, rfl⟩))
    obtain ha | ha := Nat.lt_or_ge a.toNat 0x70
    · exact answersOrRefuses_emitRead hform (by simp +contextual [Instr.wellFormed])
        (exec_busRdShort_of_lt n ha)
    · exact answersOrRefuses_mismatch hform (by simp [Instr.wellFormed, ha])
        (exec_busRdShort_of_ge n ha)
  | busRdLong a n =>
    have hform : IsHeaderForm (.busRdLong a n) := .inr (.inr (.inr ⟨a, n, rfl⟩))
    obtain ha | ha := Nat.lt_or_ge a.toNat 0x070
    · exact answersOrRefuses_mismatch hform (by simp [Instr.wellFormed, ha])
        (exec_busRdLong_of_lt n ha)
    · exact answersOrRefuses_emitRead hform (by simp +contextual [Instr.wellFormed])
        (exec_busRdLong_of_ge n ha)
  | _ => exact .inl ⟨_, rfl⟩

theorem stream_chunkInstr (c : Cfg) (ch : List Byte) : (chunkInstr c ch).stream = .chunk := by
  unfold chunkInstr
  dsimp only
  repeat' split
  all_goals rfl

/-- Whatever the configuration, what is fetched is a chunk form. -/
theorem stream_of_fetchChunk {c : Cfg} {bs rest : List Byte} {i : Instr}
    (h : fetchChunk c bs = .instr i rest) : i.stream = .chunk := by
  unfold fetchChunk at h
  split at h
  · cases h
  · cases h
    rfl
  · split at h
    · cases h
    · cases h
      exact stream_chunkInstr c _

theorem stream_of_isHeaderForm {i : Instr} (h : IsHeaderForm i) : i.stream = .bus := by
  obtain ⟨a, data, rfl⟩ | ⟨a, data, rfl⟩ | ⟨a, n, rfl⟩ | ⟨a, n, rfl⟩ := h
  all_goals rfl

/-- Settles O60: a decoded frame is well formed and a chunk form is no frame form, so only a call
can be refused by its instruction. -/
theorem stepsStopOnlyOnBadRequests : Obligations.StepsStopOnlyOnBadRequests := by
  intro s
  cases hreq : s.requests with
  | nil => exact .inl ⟨_, step_of_no_request hreq⟩
  | cons r more =>
    cases r with
    | call i =>
      obtain h | ⟨hwf, hform, h⟩ := exec_answersOrRefuses i { s with requests := more }
      · exact .inl (by rwa [step_of_call hreq])
      · exact .inr (.inr ⟨i, more, rfl, hwf, hform, by rwa [step_of_call hreq]⟩)
    | frame bs =>
      cases hdec : decodeFrame s.cfg bs with
      | error e => exact .inr (.inl ⟨bs, more, e, rfl, hdec, step_of_bad_frame hreq hdec⟩)
      | ok i =>
        obtain h | ⟨hwf, -⟩ := exec_answersOrRefuses i { s with requests := more }
        · exact .inl (by rwa [step_of_frame hreq hdec])
        · have hwell := (isFrame_of_decodeFrame hdec).2.1
          exact absurd (hwell.symm.trans hwf) (by simp)
    | chunk bs =>
      cases hfetch : fetchChunk s.cfg bs with
      | needMore => exact .inl ⟨_, step_of_needMore hreq hfetch⟩
      | instr i rest =>
        obtain h | ⟨-, hform, -⟩ :=
          exec_answersOrRefuses i { s with requests := afterChunk bs rest more }
        · exact .inl (by rwa [step_of_chunk hreq hfetch])
        · have hstream := (stream_of_fetchChunk hfetch).symm.trans (stream_of_isHeaderForm hform)
          exact absurd hstream nofun

/-- Settles O58: no instruction writes the configuration, and each records its transactions. -/
theorem stepsKeepTheConfigurationAndTheRecord :
    Obligations.StepsKeepTheConfigurationAndTheRecord := by
  intro s t h
  obtain ⟨i, requests, hexec⟩ | ⟨requests, ret, rfl⟩ := step_next h
  · obtain ⟨n, ts, htrace, hchip, -⟩ := recorded_exec hexec
    exact ⟨(exec_cfg_requests hexec).1, ts, htrace, hchip⟩
  · exact ⟨rfl, [], by simp⟩

/-! ### Safe states (10_state.md R28 to R34, 42_manager.md R215) -/

/-- The invariants as those of the block's state under a configuration. -/
structure Manager.Safe (c : Cfg) (m : Manager) : Prop where
  cfg : c.WellFormed
  inbox : m.InboxFramable
  cause : m.CauseMatches
  stay : m.StayCounted c
  drained : m.BufferDrained c
  fits : m.BufferFits c
  telemetry : m.TelemetryIsNotData

theorem State.safe_iff {s : State} : s.Safe ↔ s.mgr.Safe s.cfg :=
  ⟨fun h => ⟨h.cfg, h.inbox, h.cause, h.stay, h.drained, h.fits, h.telemetry⟩,
    fun h => ⟨h.cfg, h.inbox, h.cause, h.stay, h.drained, h.fits, h.telemetry⟩⟩

/-- Every outcome of a tick keeps each invariant. -/
theorem TickOutcome.safe {c : Cfg} {m m' : Manager} (h : TickOutcome c m m') (hm : m.Safe c) :
    m'.Safe c where
  cfg := hm.cfg
  inbox p hp := hm.inbox p (h.inbox_suffix.subset hp)
  cause := h.causeMatches hm.cause
  stay := h.stayCounted hm.cfg hm.stay
  drained := h.bufferDrained hm.cfg hm.drained
  fits := h.bufferFits hm.cfg hm.drained hm.fits
  telemetry v hv := by
    obtain ⟨vs, htlm, hvs⟩ := h.tlm_append
    rw [htlm] at hv
    exact (List.mem_append.1 hv).elim (hm.telemetry v) (hvs v)

section
variable {c : Cfg} {m : Manager}

/-- No invariant is about the host's flags or the received data. -/
theorem Manager.Safe.with_unread (h : m.Safe c) (tx rx rr : Bool) (data : List (List Byte)) :
    Manager.Safe c { m with
      txEnabled := tx, rxEnabled := rx, resetRequested := rr, rxData := data } :=
  ⟨h.cfg, h.inbox, h.cause, h.stay, h.drained, h.fits, h.telemetry⟩

theorem Manager.Safe.with_inbox (h : m.Safe c) {inbox : List (List Byte)}
    (hin : ∀ p ∈ inbox, p.length ≤ 254) : Manager.Safe c { m with inbox := inbox } :=
  ⟨h.cfg, hin, h.cause, h.stay, h.drained, h.fits, h.telemetry⟩

theorem Manager.Safe.with_tlm (h : m.Safe c) {tlm : List Chunk} (htlm : tlm ⊆ m.tlm) :
    Manager.Safe c { m with tlm := tlm } :=
  ⟨h.cfg, h.inbox, h.cause, h.stay, h.drained, h.fits, fun v hv => h.telemetry v (htlm hv)⟩

end

/-- PUSH queues a payload that can be framed, or none (42_manager.md R210). -/
theorem exec_push_safe {p : List Byte} {s t : State} (hs : s.mgr.Safe s.cfg)
    (h : exec (.push p) s = .next t) : t.mgr.Safe s.cfg := by
  obtain ⟨hshort, hlong⟩ := pushAppendsOrRaises s p
  obtain hp | hp := Nat.lt_or_ge 254 p.length
  · cases h.symm.trans (hlong hp)
    exact hs
  · cases h.symm.trans (hshort hp)
    refine hs.with_inbox fun d hd => ?_
    obtain hd | hd := List.mem_append.1 hd
    · exact hs.inbox d hd
    · obtain rfl := List.mem_singleton.1 hd
      exact hp

theorem exec_safe {i : Instr} {s t : State} (hs : s.mgr.Safe s.cfg) (h : exec i s = .next t) :
    t.mgr.Safe s.cfg := by
  by_cases hi : i = .tick
  · subst hi
    exact (exec_tick_outcome h).safe hs
  · obtain hm | ⟨b, -, hm⟩ | ⟨b, -, hm⟩ | ⟨b, -, hm⟩ | ⟨p, rfl, -⟩ | ⟨-, hm⟩ | ⟨-, hm⟩ :=
      exec_mgr_cases_of_ne_tick hi h
    · rwa [hm]
    · rw [hm]
      exact hs.with_unread b _ _ _
    · rw [hm]
      exact hs.with_unread _ b _ _
    · rw [hm]
      exact hs.with_unread _ _ b _
    · exact exec_push_safe hs h
    · rw [hm]
      exact hs.with_unread _ _ _ _
    · rw [hm]
      exact hs.with_tlm (List.tail_subset _)

/-- Settles O55: a tick's outcomes and the host's operations keep the invariants, and a step runs
one of them or changes no element of the block. -/
theorem safeStatesStaySafe : Obligations.SafeStatesStaySafe := by
  intro s t hs h
  rw [State.safe_iff] at hs ⊢
  obtain ⟨i, requests, hexec⟩ | ⟨requests, ret, rfl⟩ := step_next h
  · have hcfg := (exec_cfg_requests hexec).1
    rw [hcfg]
    exact exec_safe (s := { s with requests := requests }) hs hexec
  · exact hs

/-! ### Construction (70_reset_and_hazards.md R270) -/

theorem wellFormed_reference : Cfg.reference.WellFormed := by
  refine ⟨by decide, by decide, by decide, by decide, by decide, by decide, ?_⟩
  exact Nat.le_add_left 1 _

theorem construct_safe {c : Cfg} (hc : c.WellFormed) : (State.construct c).Safe where
  cfg := hc
  inbox := by simp [Manager.InboxFramable, Manager.initial]
  cause := by simp [Manager.CauseMatches, Manager.initial]
  stay := by
    have ht : 0 < c.autorangeTimeoutTicks := wf_timeout hc
    simpa [Manager.StayCounted, Manager.initial] using ht
  drained := fun _ => rfl
  fits := Nat.zero_le _
  telemetry := by simp [Manager.TelemetryIsNotData, Manager.initial]

/-- Settles O56: the reset state is construction with a well-formed configuration. -/
theorem constructionIsSafe : Obligations.ConstructionIsSafe :=
  ⟨construct_safe wellFormed_reference, fun _ => construct_safe⟩

/-- Settles O57: construction is a literal state, and it lines up no request. -/
theorem constructionSetsTheResetValues : Obligations.ConstructionSetsTheResetValues :=
  fun _ => ⟨rfl, rfl, rfl, rfl, step_of_no_request rfl⟩

/-- Settles O50: each of the three rows is that one write. -/
theorem flagOperationsSetTheirFlag : Obligations.FlagOperationsSetTheirFlag :=
  fun _ _ => ⟨rfl, rfl, rfl⟩

end Sys2Proof.Machine
end
